-- ==== Sys2Proof/Word.lean ====
section
/-! DEFINITION. The fixed widths of KW256 (R10, R11, R13): the byte, the 32-bit bus word, the 8-byte
semiblock (a register R[i] or the accumulator A), the 16-byte cipher block and the 32-byte key.
A byte string of fixed length is held as ONE bit vector whose most significant byte is the string's byte 0, so
the hexadecimal literal reads as the spec writes the string, and `be` of R12 is the vector's unsigned value.
Every value is unsigned (R13). -/

namespace Sys2Proof

/-- A byte (R11). -/
abbrev Byte := BitVec 8

/-- A 32-bit bus word; bit 0 is the least significant (R10, R13). -/
abbrev Word := BitVec 32

/-- An 8-byte block: a register `R[i]` or the accumulator A (R10, R16, conflict C5). -/
abbrev Semiblock := BitVec 64

/-- A 16-byte cipher block, two semiblocks (R10, R16, conflict C5). -/
abbrev CipherBlock := BitVec 128

/-- The 32 bytes of an AES-256 key (R10, R24). -/
abbrev Key := BitVec 256

end Sys2Proof
end

