-- ==== Sys2Proof/Config.lean ====
section
/-! DEFINITION. The configuration parameters of R8. They are plain data, so a machine of ANY configuration can be
written down; a state carries its machine's configuration, which no step changes. Which configurations are well
formed (R9) is said in WellFormed.lean. The cipher pair of R8 is fixed at its default, FIPS-197 AES-256
(Machine/Aes.lean; assumption 2). -/

namespace Sys2Proof

/-- LENGTH_POLICY (R8, R120, R126, D13). -/
inductive LengthPolicy where
  | library
  | general
deriving DecidableEq, Repr, Inhabited

/-- ADAPTER_CMDS: whether ENC_BLOCK and DEC_BLOCK are legal commands (R8, R78, D15). -/
inductive AdapterCmds where
  | enabled
  | disabled
deriving DecidableEq, Repr, Inhabited

/-- PROVIDER: the block-cipher provider behind the adapter (R8, R145, R150, D26). -/
inductive Provider where
  | raw
  | padded
deriving DecidableEq, Repr, Inhabited

/-- PAD_CACHE: whether the padding ciphertext is cached per key (R8, R33, D27). -/
inductive PadCache where
  | off
  | on
deriving DecidableEq, Repr, Inhabited

/-- BUSERR_RESPONSE: the platform's form of a bus error response. The three forms D38 names, and any other.
No rule of KW256 reads it (R8, R54, R203). -/
inductive BusErrResponse where
  | cpuException
  | loggedEvent
  | ignored
  | other (form : Nat)
deriving DecidableEq, Repr, Inhabited

/-- The configuration (R8). -/
structure Config where
  /-- NMAX, the largest register count n; it sizes BUF at 8·(NMAX+1) bytes. -/
  nmax : Nat
  policy : LengthPolicy
  adapter : AdapterCmds
  provider : Provider
  padCache : PadCache
  /-- BASE, the bus address of the 0x200-byte window (D4, OPEN). -/
  base : Nat
  /-- BUSERR_RESPONSE (D38, OPEN). -/
  busErr : BusErrResponse
deriving DecidableEq, Repr, Inhabited

/-- BASE of the default machine: OPEN (R8, D4), so no value is given and none can be proved of it. -/
opaque Config.platformBase : Nat

/-- BUSERR_RESPONSE of the default machine: OPEN (R8, D38), so no value is given. -/
opaque Config.platformBusErr : BusErrResponse

/-- The defaults of R8. -/
def Config.default : Config where
  nmax := 4
  policy := .library
  adapter := .enabled
  provider := .raw
  padCache := .off
  base := Config.platformBase
  busErr := Config.platformBusErr

/-- The implemented size of BUF in bytes, 8·(NMAX+1) (R21). -/
def Config.bufBytes (c : Config) : Nat := 8 * (c.nmax + 1)

end Sys2Proof
end

