-- ==== Sys2Proof/Syntax.lean ====
section
/-! DEFINITION. The commands of KW256, one constructor per row of the opcode table (R77). A command word has no
operand field (R73): every operand comes from the bus registers (R79). -/

namespace Sys2Proof

/-- The five commands (R77). -/
inductive Instr where
  /-- WRAP, OP 0x1 (R122 to R125). -/
  | wrap
  /-- UNWRAP, OP 0x2 (R127 to R131). -/
  | unwrap
  /-- ENC_BLOCK, OP 0x3 (R143). -/
  | encBlock
  /-- DEC_BLOCK, OP 0x4 (R144). -/
  | decBlock
  /-- ZEROIZE, OP 0x5 (R160). -/
  | zeroize
deriving DecidableEq, Repr, Inhabited

end Sys2Proof
end

