-- ==== Sys2Proof/WellFormed.lean ====
section
/-! DEFINITION. Well-formedness: of a configuration (R9) and of a command under a configuration (R78, third
condition). -/

namespace Sys2Proof

/-- R9: the configurations that have a meaning. The machine refuses every other one. -/
def Config.wf (c : Config) : Bool :=
  decide (2 ≤ c.nmax) && decide (c.nmax ≤ 31)
    && (decide (c.policy = .general) || decide (4 ≤ c.nmax))
    && (decide (c.padCache = .off) || decide (c.provider = .padded))

/-- R78, third condition: ENC_BLOCK and DEC_BLOCK are commands only where ADAPTER_CMDS = ENABLED. -/
def Instr.wf (c : Config) : Instr → Bool
  | .wrap => true
  | .unwrap => true
  | .encBlock => decide (c.adapter = .enabled)
  | .decBlock => decide (c.adapter = .enabled)
  | .zeroize => true

end Sys2Proof
end

