-- ==== Sys2Proof/Decode.lean ====
section
/-! DEFINITION. Decoding a command word (R73, R77, R78), total on every 32-bit word and rejecting by name, the encoder
(R73, R77), and the opcode table as rows of match and mask (R84). -/

namespace Sys2Proof

/-- OP, bits 3:0 of the command word (R73). -/
def opField (w : Word) : BitVec 4 := w.extractLsb' 0 4

/-- RSVD, bits 31:4 of the command word (R73). -/
def rsvdField (w : Word) : BitVec 28 := w.extractLsb' 4 28

/-- What a command word decodes to: a command, or the reason it is none (R78). -/
inductive Decoded where
  | instr (i : Instr)
  /-- RSVD, bits 31:4, is not zero (R78, first condition). -/
  | reservedBitsSet
  /-- OP is 0x0 or 0x6 to 0xF (R78, second condition). -/
  | illegalOp (op : BitVec 4)
deriving DecidableEq, Repr

/-- R77: the command that OP selects. -/
def decodeOp (op : BitVec 4) : Decoded :=
  match op.toNat with
  | 0x1 => .instr .wrap
  | 0x2 => .instr .unwrap
  | 0x3 => .instr .encBlock
  | 0x4 => .instr .decBlock
  | 0x5 => .instr .zeroize
  | _ => .illegalOp op

/-- The decoder (R73, R77, R78): the whole word is needed, since RSVD must be zero. -/
def decode (w : Word) : Decoded :=
  if rsvdField w = 0 then decodeOp (opField w) else .reservedBitsSet

/-- OP of a command (R77). -/
def Instr.op : Instr → BitVec 4
  | .wrap => 0x1
  | .unwrap => 0x2
  | .encBlock => 0x3
  | .decBlock => 0x4
  | .zeroize => 0x5

/-- The encoder (R73, R77): RSVD is zero. -/
def encode (i : Instr) : Word := 0#28 ++ i.op

/-- R78: the legal command words of a configuration. -/
def legal (c : Config) (w : Word) : Bool :=
  match decode w with
  | .instr i => i.wf c
  | .reservedBitsSet => false
  | .illegalOp _ => false

/-- A row of the opcode table (R84). -/
structure OpcodeRow where
  instr : Instr
  mask : Word
  val : Word
deriving DecidableEq, Repr

/-- The opcode table (R84): every row has the full mask, because the RSVD bits must be zero. -/
def opcodeTable : List OpcodeRow :=
  [⟨.wrap, 0xFFFFFFFF, 0x00000001⟩, ⟨.unwrap, 0xFFFFFFFF, 0x00000002⟩,
   ⟨.encBlock, 0xFFFFFFFF, 0x00000003⟩, ⟨.decBlock, 0xFFFFFFFF, 0x00000004⟩,
   ⟨.zeroize, 0xFFFFFFFF, 0x00000005⟩]

/-- R84: a row matches a word when the masked word is the row's value. -/
def OpcodeRow.matches (r : OpcodeRow) (w : Word) : Bool := decide (w &&& r.mask = r.val)

/-- The command the decoder reads from a table row's bits, the bits above `nbits` being zero. A command is
one 32-bit word (R73, R81) and the word is the integer (R53), so no byte order arises. -/
def decodeTableWord (nbits w : Nat) : Option Instr :=
  match decode (BitVec.ofNat 32 (w % 2 ^ nbits)) with
  | .instr i => some i
  | .reservedBitsSet => none
  | .illegalOp _ => none

end Sys2Proof
end

