-- ==== Sys2Proof/Machine/State.lean ====
section
/-! DEFINITION. The state of KW256 as plain data (R20), the reasons a step can stop, and the state after reset (R36).
Beside the components R20 lists, a state holds the configuration its machine was built with (R8; no step changes it),
the pending events in the order in which they happen (R17, R60) and the port's answer to the last host access. -/

namespace Sys2Proof.Machine

/-- A byte array as a list of cells in canonical form: keys strictly rising, no cell equal to what an unlisted
key reads as. An unlisted byte reads 0x00, its reset value (R36). BUF and KEK are held so, keyed by byte index. -/
abbrev Memory := List Host.Cell

/-- The sequencer's phase (R31). -/
inductive Phase where
  | idle
  | decode
  | wrapLoop
  | unwrapLoop
  | unwrapCheck
deriving DecidableEq, Repr, Inhabited

/-- ERRCODE by name (R201). The reserved codes 6 to 15 are never produced, so no state holds one. -/
inductive ErrCode where
  | noError
  | invalidKeyLength
  | invalidWrappedKeyLength
  | invalidKekLength
  | integrityCheckFailed
  | illegalCommand
deriving DecidableEq, Repr, Inhabited

/-- PCACHE (R33): the padding ciphertext cached for one key. It exists only with PROVIDER = PADDED and
PAD_CACHE = ON; without them it stays as reset leaves it, invalid. -/
structure PCache where
  valid : Bool
  key : Key
  value : CipherBlock
deriving DecidableEq, Repr

/-- The widths a bus access can have (R54). Only the 32-bit one is admitted. -/
inductive AccessWidth where
  | w8
  | w16
  | w32
  | w64
deriving DecidableEq, Repr, Inhabited

/-- The direction of a bus access, with the data of a write (R17). A write of another width than 32 bits gets a bus
error and has no effect (R54), so its data is not held at that width. -/
inductive AccessOp where
  | read
  | write (v : Word)
deriving DecidableEq, Repr, Inhabited

/-- One bus access that reaches the block: the byte offset from BASE within the 0x200-byte window (R50), its width
and its direction. -/
structure Access where
  off : BitVec 9
  width : AccessWidth
  op : AccessOp
deriving DecidableEq, Repr

/-- One step's cause (R17): a host access, an engine step, or the reset input. -/
inductive Event where
  | host (a : Access)
  | engine
  | reset
deriving DecidableEq, Repr

/-- What the port answers to a host access: the word read (R170), the acknowledgement of a write (R171), or the bus
error response, which carries no data (R54). -/
inductive BusResponse where
  | data (w : Word)
  | written
  | busError
deriving DecidableEq, Repr

/-- The state of KW256. -/
structure State where
  /-- The configuration (R8). -/
  cfg : Config
  /-- BUF, bytes 0 to 8·(NMAX+1)-1 (R21, R22). -/
  buf : Memory
  /-- KEK, bytes 0 to 31 (R24). -/
  kek : Memory
  /-- LEN (R26). -/
  len : Word
  /-- KEKLEN (R25). -/
  keklen : Word
  /-- DONE (R27). -/
  done : Bool
  /-- ERRCODE (R27, R201). -/
  errcode : ErrCode
  /-- BUSYERR (R27, R204). -/
  busyErr : Bool
  /-- CMDLATCH (R28). -/
  cmdLatch : Word
  /-- The sequencer's phase; BUSY is `phase ≠ idle` (R27, R31). -/
  phase : Phase
  /-- The register count of the running WRAP or UNWRAP (R31). -/
  n : Nat
  /-- The round index (R31). -/
  j : Nat
  /-- The block index (R31). -/
  i : Nat
  /-- PCACHE (R33). -/
  pcache : PCache
  /-- The events to come, the first to happen first; with none left the engine steps (R17, R60; assumption 3). -/
  schedule : List Event
  /-- The port's answer to the last host access since reset (assumption 4). -/
  resp : Option BusResponse
deriving DecidableEq, Repr

/-- The reasons a step can stop with a fault. -/
inductive Fault where
  /-- Raised by BlockDecrypt under PROVIDER = PADDED when the provider reports PADDING_ERROR or strips other than one
  block (R151, R152). R153 shows that no state a run reaches raises it; safe (assumption 7). -/
  | paddingError
deriving DecidableEq, Repr

/-- The reasons a step can be refused. -/
inductive Refusal where
  /-- Raised by `exec` for a command that has no meaning yet; safe. No arm raises it. -/
  | notModelled (mnemonic : String)
  /-- Raised by every step of a machine whose configuration is ill formed, as R9 asks; safe. -/
  | illFormedConfig
deriving DecidableEq, Repr

/-- The reset values of R36 under a configuration, with no event pending and no access answered. -/
def State.resetOf (c : Config) : State where
  cfg := c
  buf := []
  kek := []
  len := 0
  keklen := 0
  done := false
  errcode := .noError
  busyErr := false
  cmdLatch := 0
  phase := .idle
  n := 0
  j := 0
  i := 0
  pcache := ⟨false, 0, 0⟩
  schedule := []
  resp := none

/-- The machine right after reset, in the default configuration (R8, R36). -/
def State.reset : State := State.resetOf Config.default

end Sys2Proof.Machine
end

