-- ==== Sys2Proof/Machine/Ops.lean ====
section
/-! DEFINITION. The named operations: byte strings and their big-endian values (R12), byte arrays (R21, R24), the two
completion primitives `Fail` and `Succeed` (R107, R108), the acceptance of a command (R100) and reset (R240).
`Fail` is what taking an exception is on this hardware (R207). There is no return from it: the next accepted
command word clears the error state (R208). -/

namespace Sys2Proof.Machine

/-! ### Byte strings -/

/-- R12: the unsigned value of a byte string, byte 0 most significant. -/
def be (xs : List Byte) : Nat := xs.foldl (fun v b => v * 256 + b.toNat) 0

/-- R12: the `k`-byte string of a value, most significant byte first. -/
def bytesOf : Nat → Nat → List Byte
  | 0, _ => []
  | k + 1, v => bytesOf k (v / 256) ++ [BitVec.ofNat 8 v]

/-! ### Byte arrays -/

/-- The value of an unlisted byte (R36). -/
def Memory.unlisted : Byte := 0x00

/-- The byte at index `a`. -/
def Memory.read (m : Memory) (a : Nat) : Byte :=
  match m.find? (fun c => c.1 == a) with
  | some c => c.2
  | none => Memory.unlisted

/-- Insert a cell before the first cell with a greater key. -/
def Memory.insert (a : Nat) (b : Byte) : Memory → Memory
  | [] => [(a, b)]
  | c :: m => if a < c.1 then (a, b) :: c :: m else c :: Memory.insert a b m

/-- Write one byte, keeping the canonical form: the value of an unlisted byte is not listed. -/
def Memory.write (m : Memory) (a : Nat) (b : Byte) : Memory :=
  let rest := m.filter (fun c => c.1 != a)
  if b = Memory.unlisted then rest else Memory.insert a b rest

/-- The `k` bytes from index `a` on. -/
def Memory.readBytes (m : Memory) (a : Nat) : Nat → List Byte
  | 0 => []
  | k + 1 => m.read a :: Memory.readBytes m (a + 1) k

/-- Write a byte string from index `a` on. -/
def Memory.writeBytes (m : Memory) (a : Nat) : List Byte → Memory
  | [] => m
  | b :: bs => Memory.writeBytes (m.write a b) (a + 1) bs

/-- The canonical form: keys strictly rising, and no cell equal to what an unlisted key reads as. -/
def Memory.wf : Memory → Bool
  | [] => true
  | [c] => c.2 != Memory.unlisted
  | c :: d :: m => c.2 != Memory.unlisted && decide (c.1 < d.1) && Memory.wf (d :: m)

/-- Every listed key lies below `bound`. -/
def Memory.below (m : Memory) (bound : Nat) : Bool := m.all (fun c => decide (c.1 < bound))

/-- A byte array of zeros. -/
def Memory.zeros : Memory := []

/-! ### Blocks of BUF -/

/-- `BUF.blk(b) = BUF[8b .. 8b+7]`, read big-endian (R14, R21, R23). -/
def Memory.blk (m : Memory) (b : Nat) : Semiblock := BitVec.ofNat 64 (be (m.readBytes (8 * b) 8))

/-- `BUF.blk(b) <- v` (R14). -/
def Memory.setBlk (m : Memory) (b : Nat) (v : Semiblock) : Memory := m.writeBytes (8 * b) (bytesOf 8 v.toNat)

/-- The cipher block `BUF[0..15]` (R79). -/
def Memory.cipherBlock (m : Memory) : CipherBlock := BitVec.ofNat 128 (be (m.readBytes 0 16))

/-- `BUF[0..15] <- x` (R143, R144). -/
def Memory.setCipherBlock (m : Memory) (x : CipherBlock) : Memory := m.writeBytes 0 (bytesOf 16 x.toNat)

/-- The bus word over bytes `4k .. 4k+3`: the lowest-numbered byte in bits 31:24 (R52). -/
def Memory.word (m : Memory) (k : Nat) : Word := BitVec.ofNat 32 (be (m.readBytes (4 * k) 4))

/-- Write a bus word over bytes `4k .. 4k+3` (R52, R171). -/
def Memory.setWord (m : Memory) (k : Nat) (v : Word) : Memory := m.writeBytes (4 * k) (bytesOf 4 v.toNat)

/-! ### Completion, acceptance, reset -/

/-- `Fail(code)` (R107, R207): all of BUF is zeroed, the code recorded, the command completed. KEK, KEKLEN, LEN,
BUSYERR and PCACHE are kept. -/
def State.fail (s : State) (code : ErrCode) : State :=
  { s with buf := Memory.zeros, errcode := code, done := true, phase := .idle }

/-- `Succeed()` (R108). -/
def State.succeed (s : State) : State :=
  { s with errcode := .noError, done := true, phase := .idle }

/-- R100: acceptance of a CMD write. Every word is accepted; legality is decided at DECODE. -/
def State.acceptCmd (s : State) (v : Word) : State :=
  { s with cmdLatch := v, done := false, errcode := .noError, busyErr := false, phase := .decode }

/-- `PCACHE.valid <- 0` (R33, R160, R171). Where PCACHE does not exist it is never valid, so this changes nothing. -/
def State.invalidatePCache (s : State) : State :=
  { s with pcache := { s.pcache with valid := false } }

/-- R240: the reset step. Configuration and pending events are not the block's state and stay. -/
def State.resetStep (s : State) : State :=
  { State.resetOf s.cfg with schedule := s.schedule }

end Sys2Proof.Machine
end

