-- ==== Sys2Proof/Machine/Control.lean ====
section
/-! DEFINITION. The control commands: ZEROIZE (R160) and the outcome of an illegal command word (R161). -/

namespace Sys2Proof.Machine

/-- The erasure of R160: KEK, BUF, LEN and KEKLEN to zero, PCACHE invalid. -/
def State.eraseKeys (s : State) : State :=
  ({ s with kek := Memory.zeros, buf := Memory.zeros, len := 0, keklen := 0 } : State).invalidatePCache

/-- ZEROIZE (R160), all in the DECODE step; it always succeeds. -/
def execZeroize (s : State) : Host.Outcome State Fault Refusal := .next s.eraseKeys.succeed

/-- R161: the outcome of a command word that is not legal. -/
def illegalCommand (s : State) : Host.Outcome State Fault Refusal := .next (s.fail .illegalCommand)

end Sys2Proof.Machine
end

