-- ==== Sys2Proof/Machine/Aes.lean ====
section
/-! DEFINITION. The AES-256 block cipher (R180 to R192), the pair of functions of R140. The two S-box tables are written
as the spec prints them, one row of sixteen bytes per high nibble. -/

namespace Sys2Proof.Machine.Aes

/-! ### Field arithmetic (R180) -/

/-- Multiplication by 0x02 in GF(2^8) modulo 0x11B (R180). -/
def xtime (b : Byte) : Byte := (b <<< 1) ^^^ (if b.msb then 0x1B#8 else 0x00#8)

/-- `xtime^k(a)` (R180). -/
def xtimePow : Nat → Byte → Byte
  | 0, a => a
  | k + 1, a => xtime (xtimePow k a)

/-- The XOR of `xtime^m(a)` over the bits m < k set in b (R180). -/
def gmulBits : Nat → Byte → Byte → Byte
  | 0, _, _ => 0
  | k + 1, a, b => gmulBits k a b ^^^ (if b.getLsbD k then xtimePow k a else 0)

/-- `a • b` (R180). -/
def gmul (a b : Byte) : Byte := gmulBits 8 a b

/-- The square `b • b`. -/
def gsq (b : Byte) : Byte := gmul b b

/-- `b^-1 = b^254` with 254 = 2+4+8+16+32+64+128; it maps 0x00 to 0x00 (R180). -/
def ginv (b : Byte) : Byte :=
  let b2 := gsq b
  let b4 := gsq b2
  let b8 := gsq b4
  let b16 := gsq b8
  let b32 := gsq b16
  let b64 := gsq b32
  let b128 := gsq b64
  gmul b2 (gmul b4 (gmul b8 (gmul b16 (gmul b32 (gmul b64 b128)))))

/-- The affine map A of the S-box (R185). -/
def affine (x : Byte) : Byte :=
  x ^^^ x.rotateLeft 1 ^^^ x.rotateLeft 2 ^^^ x.rotateLeft 3 ^^^ x.rotateLeft 4 ^^^ 0x63#8

/-! ### S-box tables (R185, R186) -/

/-- The S-box, row = high nibble (R185). -/
def sboxRows : List Nat :=
  [0x637C777BF26B6FC53001672BFED7AB76, 0xCA82C97DFA5947F0ADD4A2AF9CA472C0,
   0xB7FD9326363FF7CC34A5E5F171D83115, 0x04C723C31896059A071280E2EB27B275,
   0x09832C1A1B6E5AA0523BD6B329E32F84, 0x53D100ED20FCB15B6ACBBE394A4C58CF,
   0xD0EFAAFB434D338545F9027F503C9FA8, 0x51A3408F929D38F5BCB6DA2110FFF3D2,
   0xCD0C13EC5F974417C4A77E3D645D1973, 0x60814FDC222A908846EEB814DE5E0BDB,
   0xE0323A0A4906245CC2D3AC629195E479, 0xE7C8376D8DD54EA96C56F4EA657AAE08,
   0xBA78252E1CA6B4C6E8DD741F4BBD8B8A, 0x703EB5664803F60E613557B986C11D9E,
   0xE1F8981169D98E949B1E87E9CE5528DF, 0x8CA1890DBFE6426841992D0FB054BB16]

/-- The inverse S-box, row = high nibble (R186). -/
def invSboxRows : List Nat :=
  [0x52096AD53036A538BF40A39E81F3D7FB, 0x7CE339829B2FFF87348E4344C4DEE9CB,
   0x547B9432A6C2233DEE4C950B42FAC34E, 0x082EA16628D924B2765BA2496D8BD125,
   0x72F8F66486689816D4A45CCC5D65B692, 0x6C704850FDEDB9DA5E154657A78D9D84,
   0x90D8AB008CBCD30AF7E45805B8B34506, 0xD02C1E8FCA3F0F02C1AFBD0301138A6B,
   0x3A9111414F67DCEA97F2CFCEF0B4E673, 0x96AC7422E7AD3585E2F937E81C75DF6E,
   0x47F11A711D29C5896FB7620EAA18BE1B, 0xFC563E4BC6D279209ADBC0FE78CD5AF4,
   0x1FDDA8338807C731B11210592780EC5F, 0x60517FA919B54A0D2DE57A9F93C99CEF,
   0xA0E03B4DAE2AF5B0C8EBBB3C83539961, 0x172B047EBA77D626E169146355210C7D]

/-- The byte of a table in the row of the high nibble and the column of the low nibble (R185). -/
def tableByte (rows : List Nat) (b : Byte) : Byte :=
  BitVec.ofNat 8 (rows.getD (b.toNat / 16) 0 / 256 ^ (15 - b.toNat % 16))

/-- `S(b)` (R185). -/
def sbox (b : Byte) : Byte := tableByte sboxRows b

/-- `S⁻¹(b)` (R186). -/
def invSbox (b : Byte) : Byte := tableByte invSboxRows b

/-! ### The 4×4 state (R181) -/

/-- A column of the state, rows 0 to 3; also a 4-byte word of the key schedule, byte 0 to 3 (R181, R183). -/
structure Column where
  r0 : Byte
  r1 : Byte
  r2 : Byte
  r3 : Byte
deriving DecidableEq, Repr, Inhabited

/-- The state `s[r][c]`, by columns (R181). -/
structure Matrix where
  c0 : Column
  c1 : Column
  c2 : Column
  c3 : Column
deriving DecidableEq, Repr, Inhabited

/-- A column with every byte replaced. -/
def Column.map (f : Byte → Byte) (a : Column) : Column := ⟨f a.r0, f a.r1, f a.r2, f a.r3⟩

/-- The bytewise XOR of two columns. -/
def Column.xor (a b : Column) : Column := ⟨a.r0 ^^^ b.r0, a.r1 ^^^ b.r1, a.r2 ^^^ b.r2, a.r3 ^^^ b.r3⟩

/-- The bytes of a column, row 0 first. -/
def Column.bytes (a : Column) : List Byte := [a.r0, a.r1, a.r2, a.r3]

/-- The column of the first four bytes of a string. -/
def Column.ofBytes (xs : List Byte) : Column := ⟨xs.getD 0 0, xs.getD 1 0, xs.getD 2 0, xs.getD 3 0⟩

/-- The state with every column replaced. -/
def Matrix.map (f : Column → Column) (s : Matrix) : Matrix := ⟨f s.c0, f s.c1, f s.c2, f s.c3⟩

/-- The bytes of the state in the order `out[r + 4c] = s[r][c]` (R181). -/
def Matrix.bytes (s : Matrix) : List Byte := s.c0.bytes ++ (s.c1.bytes ++ (s.c2.bytes ++ s.c3.bytes))

/-- The state of a 16-byte string, `s[r][c] = in[r + 4c]` (R181). -/
def Matrix.ofBytes (xs : List Byte) : Matrix :=
  ⟨Column.ofBytes xs, Column.ofBytes (xs.drop 4), Column.ofBytes (xs.drop 8), Column.ofBytes (xs.drop 12)⟩

/-- Load the state from a cipher block, byte 0 first (R51 (d), R181). -/
def load (x : CipherBlock) : Matrix := Matrix.ofBytes (bytesOf 16 x.toNat)

/-- Store the state as a cipher block (R181). -/
def store (s : Matrix) : CipherBlock := BitVec.ofNat 128 (be s.bytes)

/-! ### Key expansion (R182, R183) -/

/-- `Rcon[k + 1] = xtime^k(0x01)` (R183). -/
def rcon (k : Nat) : Byte := xtimePow k 0x01#8

/-- RotWord (R183). -/
def rotWord (a : Column) : Column := ⟨a.r1, a.r2, a.r3, a.r0⟩

/-- SubWord (R183). -/
def subWord (a : Column) : Column := a.map sbox

/-- `w[q]` from the words before it, latest first: `w[q-1]` is the first and `w[q-8]` the eighth (R183). -/
def nextKeyWord (q : Nat) (back : List Column) : Column :=
  let prev := back.getD 0 default
  let temp :=
    if q % 8 = 0 then (subWord (rotWord prev)).xor ⟨rcon (q / 8 - 1), 0, 0, 0⟩
    else if q % 8 = 4 then subWord prev
    else prev
  (back.getD 7 default).xor temp

/-- Extend the key words, latest first, by `k` words from `w[q]` on (R183). -/
def extendKey : Nat → Nat → List Column → List Column
  | 0, _, back => back
  | k + 1, q, back => extendKey k (q + 1) (nextKeyWord q back :: back)

/-- The words of a byte string, four bytes each. -/
def columnsOf (xs : List Byte) : Nat → List Column
  | 0 => []
  | k + 1 => Column.ofBytes xs :: columnsOf (xs.drop 4) k

/-- KeyExpansion: `w[0..59]`, Nk = 8 words of the key and 52 more (R182, R183). -/
def keyExpansion (key : Key) : List Column :=
  (extendKey 52 8 (columnsOf (bytesOf 32 key.toNat) 8).reverse).reverse

/-- Round key r, the words `w[4r .. 4r+3]` (R183). -/
def roundKey (ws : List Column) (r : Nat) : Matrix :=
  ⟨ws.getD (4 * r) default, ws.getD (4 * r + 1) default, ws.getD (4 * r + 2) default, ws.getD (4 * r + 3) default⟩

/-! ### Round transformations (R185 to R189) -/

/-- SubBytes (R185). -/
def subBytes (s : Matrix) : Matrix := s.map (Column.map sbox)

/-- InvSubBytes (R186). -/
def invSubBytes (s : Matrix) : Matrix := s.map (Column.map invSbox)

/-- ShiftRows, `s'[r][c] = s[r][(c + r) mod 4]` (R187). -/
def shiftRows (s : Matrix) : Matrix :=
  ⟨⟨s.c0.r0, s.c1.r1, s.c2.r2, s.c3.r3⟩, ⟨s.c1.r0, s.c2.r1, s.c3.r2, s.c0.r3⟩,
   ⟨s.c2.r0, s.c3.r1, s.c0.r2, s.c1.r3⟩, ⟨s.c3.r0, s.c0.r1, s.c1.r2, s.c2.r3⟩⟩

/-- InvShiftRows, `s'[r][c] = s[r][(c - r) mod 4]` (R187). -/
def invShiftRows (s : Matrix) : Matrix :=
  ⟨⟨s.c0.r0, s.c3.r1, s.c2.r2, s.c1.r3⟩, ⟨s.c1.r0, s.c0.r1, s.c3.r2, s.c2.r3⟩,
   ⟨s.c2.r0, s.c1.r1, s.c0.r2, s.c3.r3⟩, ⟨s.c3.r0, s.c2.r1, s.c1.r2, s.c0.r3⟩⟩

/-- One column of MixColumns (R188). -/
def mixColumn (s : Column) : Column :=
  ⟨gmul 0x02 s.r0 ^^^ gmul 0x03 s.r1 ^^^ gmul 0x01 s.r2 ^^^ gmul 0x01 s.r3,
   gmul 0x01 s.r0 ^^^ gmul 0x02 s.r1 ^^^ gmul 0x03 s.r2 ^^^ gmul 0x01 s.r3,
   gmul 0x01 s.r0 ^^^ gmul 0x01 s.r1 ^^^ gmul 0x02 s.r2 ^^^ gmul 0x03 s.r3,
   gmul 0x03 s.r0 ^^^ gmul 0x01 s.r1 ^^^ gmul 0x01 s.r2 ^^^ gmul 0x02 s.r3⟩

/-- One column of InvMixColumns: the coefficients 0E 0B 0D 09, each next row rotated one place right (R188). -/
def invMixColumn (s : Column) : Column :=
  ⟨gmul 0x0E s.r0 ^^^ gmul 0x0B s.r1 ^^^ gmul 0x0D s.r2 ^^^ gmul 0x09 s.r3,
   gmul 0x09 s.r0 ^^^ gmul 0x0E s.r1 ^^^ gmul 0x0B s.r2 ^^^ gmul 0x0D s.r3,
   gmul 0x0D s.r0 ^^^ gmul 0x09 s.r1 ^^^ gmul 0x0E s.r2 ^^^ gmul 0x0B s.r3,
   gmul 0x0B s.r0 ^^^ gmul 0x0D s.r1 ^^^ gmul 0x09 s.r2 ^^^ gmul 0x0E s.r3⟩

/-- MixColumns (R188). -/
def mixColumns (s : Matrix) : Matrix := s.map mixColumn

/-- InvMixColumns (R188). -/
def invMixColumns (s : Matrix) : Matrix := s.map invMixColumn

/-- AddRoundKey (R189). -/
def addRoundKey (k s : Matrix) : Matrix := ⟨s.c0.xor k.c0, s.c1.xor k.c1, s.c2.xor k.c2, s.c3.xor k.c3⟩

/-! ### Cipher and inverse cipher (R190, R191) -/

/-- One full round of the cipher (R190). -/
def encRound (ws : List Column) (r : Nat) (s : Matrix) : Matrix :=
  addRoundKey (roundKey ws r) (mixColumns (shiftRows (subBytes s)))

/-- One full round of the inverse cipher (R191). -/
def decRound (ws : List Column) (r : Nat) (s : Matrix) : Matrix :=
  invMixColumns (addRoundKey (roundKey ws r) (invSubBytes (invShiftRows s)))

/-- Rounds 1 to m of the cipher, ascending (R190). -/
def encRounds (ws : List Column) : Nat → Matrix → Matrix
  | 0, s => s
  | m + 1, s => encRound ws (m + 1) (encRounds ws m s)

/-- Rounds m down to 1 of the inverse cipher (R191). -/
def decRounds (ws : List Column) : Nat → Matrix → Matrix
  | 0, s => s
  | m + 1, s => decRounds ws m (decRound ws (m + 1) s)

/-- `AES256_Enc(key, x)` (R190). -/
def aes256Enc (key : Key) (x : CipherBlock) : CipherBlock :=
  let ws := keyExpansion key
  let s := encRounds ws 13 (addRoundKey (roundKey ws 0) (load x))
  store (addRoundKey (roundKey ws 14) (shiftRows (subBytes s)))

/-- `AES256_Dec(key, x)` (R191). -/
def aes256Dec (key : Key) (x : CipherBlock) : CipherBlock :=
  let ws := keyExpansion key
  let s := decRounds ws 13 (addRoundKey (roundKey ws 14) (load x))
  store (addRoundKey (roundKey ws 0) (invSubBytes (invShiftRows s)))

end Sys2Proof.Machine.Aes
end

