-- ==== Sys2Proof/Machine/Operands.lean ====
section
/-! DEFINITION. Operands: the hardwired constants (R29), the assembly of a command's operands from the bus registers
(R79), the halves of a cipher block (R12), the legal lengths (R120, R126), the step counter (R121) and the
register map (R70 to R72). -/

namespace Sys2Proof.Machine

/-! ### Hardwired constants (R29) -/

/-- IV, the Integrity Constant (R29). -/
def iv : Semiblock := 0xA6A6A6A6A6A6A6A6#64

/-- PAD_BLOCK, the byte 0x10 sixteen times (R29). -/
def padBlock : CipherBlock := 0x10101010101010101010101010101010#128

/-! ### Command operands -/

/-- `KEKbytes = KEK[0..31]` (R14, R79). -/
def State.kekBytes (s : State) : Key := BitVec.ofNat 256 (be (s.kek.readBytes 0 32))

/-- `KEKLEN = 32`, the check of every command that uses the KEK (R25). -/
def State.kekLenOK (s : State) : Bool := decide (s.keklen = 32#32)

/-- n of a WRAP: `LEN / 8` (R79, R122). -/
def wrapCount (len : Word) : Nat := len.toNat / 8

/-- n of an UNWRAP: `LEN / 8 - 1` (R79, R127). -/
def unwrapCount (len : Word) : Nat := len.toNat / 8 - 1

/-- R120: the legal WRAP lengths. -/
def wrapLenOK (c : Config) (len : Word) : Bool :=
  match c.policy with
  | .library => decide (len.toNat = 32)
  | .general => decide (len.toNat % 8 = 0) && decide (2 ≤ len.toNat / 8) && decide (len.toNat / 8 ≤ c.nmax)

/-- R126: the legal UNWRAP lengths. -/
def unwrapLenOK (c : Config) (len : Word) : Bool :=
  match c.policy with
  | .library => decide (len.toNat = 40)
  | .general =>
    decide (len.toNat % 8 = 0) && decide (24 ≤ len.toNat) && decide (len.toNat ≤ 8 * (c.nmax + 1))

/-- MSB64, the leading 8 bytes of a cipher block (R12). -/
def msb64 (x : CipherBlock) : Semiblock := x.extractLsb' 64 64

/-- LSB64, the trailing 8 bytes of a cipher block (R12). -/
def lsb64 (x : CipherBlock) : Semiblock := x.extractLsb' 0 64

/-- The cipher input `A || R[i]`, A leading (R51). -/
def joinBlocks (a r : Semiblock) : CipherBlock := a ++ r

/-- R121: the step counter `t(j, i) = n*j + i + 1`. -/
def stepCounter (n j i : Nat) : Nat := n * j + i + 1

/-- R121: `be64⁻¹(be(A) XOR t)`, t zero-extended to 64 bits. -/
def xorCounter (a : Semiblock) (t : Nat) : Semiblock := a ^^^ BitVec.ofNat 64 t

/-! ### The register map -/

/-- The bus registers of R70. A BUF word is implemented for k < 2·(NMAX+1); every other offset is reserved. -/
inductive BusReg where
  | cmd
  | status
  | len
  | keklen
  | param
  | kekWord (m : Nat)
  | bufWord (k : Nat)
  | reserved
deriving DecidableEq, Repr

/-- R70, R71, R72: the register at an aligned byte offset of the window. -/
def regAt (c : Config) (off : Nat) : BusReg :=
  if off = 0x000 then .cmd
  else if off = 0x004 then .status
  else if off = 0x008 then .len
  else if off = 0x00C then .keklen
  else if off = 0x010 then .param
  else if 0x020 ≤ off ∧ off ≤ 0x03C then .kekWord ((off - 0x020) / 4)
  else if 0x040 ≤ off ∧ (off - 0x040) / 4 < 2 * (c.nmax + 1) then .bufWord ((off - 0x040) / 4)
  else .reserved

/-- R171: the writable registers. -/
def BusReg.writable : BusReg → Bool
  | .cmd => true
  | .status => false
  | .len => true
  | .keklen => true
  | .param => false
  | .kekWord _ => true
  | .bufWord _ => true
  | .reserved => false

/-- R50: the platform's selection of the block. A bus address inside the window at BASE reaches the block with its byte
offset; any other address does not reach it (R54). -/
def windowOffset (c : Config) (addr : Nat) : Option (BitVec 9) :=
  if c.base ≤ addr ∧ addr < c.base + 0x200 then some (BitVec.ofNat 9 (addr - c.base)) else none

end Sys2Proof.Machine
end

