-- ==== Sys2Proof/Machine/Adapter.lean ====
section
/-! DEFINITION. The Block Cipher Adapter (R141 to R154): the RAW and the PADDED provider, BlockEncrypt and BlockDecrypt
over either, the AES operations they take, and the meanings of ENC_BLOCK and DEC_BLOCK. -/

namespace Sys2Proof.Machine

open Sys2Proof.Machine.Aes

/-! ### Providers -/

/-- R150: `ProviderEcbEncrypt(k, X)` for X of one or more cipher blocks, the first given apart. One padding block is
appended and every block is encrypted on its own. -/
def providerEcbEncrypt (k : Key) (x : CipherBlock) (xs : List CipherBlock) : CipherBlock × List CipherBlock :=
  (aes256Enc k x, (xs ++ [padBlock]).map (aes256Enc k))

/-- The plaintext bytes of the provider's decrypt, before the padding is checked (R151). -/
def providerPlainBytes (k : Key) (y : CipherBlock) (ys : List CipherBlock) : List Byte :=
  (y :: ys).flatMap (fun b => bytesOf 16 (aes256Dec k b).toNat)

/-- R151: validate and strip the padding of a byte string; `none` is PADDING_ERROR. -/
def stripPadding (ps : List Byte) : Option (List Byte) :=
  let last := ps.getLastD 0
  let p := last.toNat
  if 1 ≤ p ∧ p ≤ 16 ∧ ps.drop (ps.length - p) = List.replicate p last then some (ps.take (ps.length - p)) else none

/-- R151: `ProviderEcbDecrypt(k, Y)` for Y of one or more cipher blocks, the first given apart. -/
def providerEcbDecrypt (k : Key) (y : CipherBlock) (ys : List CipherBlock) : Option (List Byte) :=
  stripPadding (providerPlainBytes k y ys)

/-! ### BlockEncrypt and BlockDecrypt -/

/-- `Enc(k, x)` (R141): RAW is a direct pass-through (R145), PADDED keeps the first 16 bytes (R152). -/
def blockEncrypt (c : Config) (k : Key) (x : CipherBlock) : CipherBlock :=
  match c.provider with
  | .raw => aes256Enc k x
  | .padded => (providerEcbEncrypt k x []).1

/-- R152: PCACHE holds the padding ciphertext of this key. -/
def PCache.hit (c : Config) (pc : PCache) (k : Key) : Bool :=
  decide (c.padCache = .on) && pc.valid && decide (pc.key = k)

/-- R152: the padding ciphertext, from PCACHE or by an encrypt. -/
def paddingCiphertext (c : Config) (pc : PCache) (k : Key) : CipherBlock :=
  if pc.hit c k then pc.value else blockEncrypt c k padBlock

/-- R152: PCACHE after the padding ciphertext has been found. -/
def PCache.update (c : Config) (pc : PCache) (k : Key) : PCache :=
  if pc.hit c k then pc
  else if c.padCache = .on then ⟨true, k, blockEncrypt c k padBlock⟩
  else pc

/-- `Dec(k, y)` (R142) with PCACHE after it: RAW is a direct pass-through (R145), PADDED rebuilds the padded ciphertext
and has the provider decrypt and strip it (R152). `none` where the provider does not return exactly 16 bytes, which
R153 excludes. -/
def blockDecrypt (c : Config) (pc : PCache) (k : Key) (y : CipherBlock) : Option (CipherBlock × PCache) :=
  match c.provider with
  | .raw => some (aes256Dec k y, pc)
  | .padded =>
    match providerEcbDecrypt k y [paddingCiphertext c pc k] with
    | none => none
    | some ps => if ps.length = 16 then some (BitVec.ofNat 128 (be ps), pc.update c k) else none

/-! ### AES block operations per call (R154) -/

/-- A number of `AES256_Enc` and of `AES256_Dec` operations. -/
structure AesOps where
  encs : Nat
  decs : Nat
deriving DecidableEq, Repr

/-- The operations of one `ProviderEcbEncrypt` of m blocks: the appended block is encrypted as well (R150). -/
def providerEncryptOps (m : Nat) : AesOps := ⟨m + 1, 0⟩

/-- The operations of one `ProviderEcbDecrypt` of m blocks (R151). -/
def providerDecryptOps (m : Nat) : AesOps := ⟨0, m⟩

/-- The operations of one `Enc` (R154). -/
def blockEncryptOps (c : Config) : AesOps :=
  match c.provider with
  | .raw => ⟨1, 0⟩
  | .padded => providerEncryptOps 1

/-- The operations of one `Dec` (R154); they are work, and no rule depends on them. -/
def blockDecryptOps (c : Config) (pc : PCache) (k : Key) : AesOps :=
  match c.provider with
  | .raw => ⟨0, 1⟩
  | .padded =>
    let pad : AesOps := if pc.hit c k then ⟨0, 0⟩ else blockEncryptOps c
    ⟨pad.encs + (providerDecryptOps 2).encs, pad.decs + (providerDecryptOps 2).decs⟩

/-! ### The commands -/

/-- ENC_BLOCK (R143), all in the DECODE step. Under ADAPTER_CMDS = DISABLED its word is illegal (R78, R161). -/
def execEncBlock (s : State) : Host.Outcome State Fault Refusal :=
  if Instr.encBlock.wf s.cfg = false then .next (s.fail .illegalCommand)
  else if s.kekLenOK = false then .next (s.fail .invalidKekLength)
  else
    .next ({ s with buf := s.buf.setCipherBlock (blockEncrypt s.cfg s.kekBytes s.buf.cipherBlock) } : State).succeed

/-- DEC_BLOCK (R144), all in the DECODE step. Under ADAPTER_CMDS = DISABLED its word is illegal (R78, R161). -/
def execDecBlock (s : State) : Host.Outcome State Fault Refusal :=
  if Instr.decBlock.wf s.cfg = false then .next (s.fail .illegalCommand)
  else if s.kekLenOK = false then .next (s.fail .invalidKekLength)
  else
    match blockDecrypt s.cfg s.pcache s.kekBytes s.buf.cipherBlock with
    | none => .fault .paddingError
    | some (x, pc) => .next ({ s with buf := s.buf.setCipherBlock x, pcache := pc } : State).succeed

end Sys2Proof.Machine
end

