-- ==== Sys2Proof/Machine/KeyWrap.lean ====
section
/-! DEFINITION. The Key Wrap Engine (R120 to R131): the DECODE step of WRAP and UNWRAP (their meanings), the loop steps
and the integrity check, with the advance of the loop indexes (R104 to R106). -/

namespace Sys2Proof.Machine

/-! ### WRAP -/

/-- WRAP at DECODE (R122): the two checks in the order of R102, then the set-up of the loop. -/
def execWrap (s : State) : Host.Outcome State Fault Refusal :=
  if wrapLenOK s.cfg s.len = false then .next (s.fail .invalidKeyLength)
  else if s.kekLenOK = false then .next (s.fail .invalidKekLength)
  else
    .next { s with buf := s.buf.setBlk 0 iv, n := wrapCount s.len, j := 0, i := 0, phase := .wrapLoop }

/-- R123: the new accumulator and register of the wrap step at the current `(j, i)`, from the cipher output B. -/
def wrapStoreB (s : State) (b : CipherBlock) : State :=
  { s with
    buf := (s.buf.setBlk 0 (xorCounter (msb64 b) (stepCounter s.n s.j s.i))).setBlk (1 + s.i) (lsb64 b) }

/-- R104: the advance after a wrap step. -/
def wrapAdvance (s : State) : State :=
  if s.i + 1 < s.n then { s with i := s.i + 1 }
  else if s.j < 5 then { s with j := s.j + 1, i := 0 }
  else s.succeed

/-- The WRAP_LOOP step (R104, R123). -/
def wrapLoopStep (s : State) : State :=
  wrapAdvance (wrapStoreB s (blockEncrypt s.cfg s.kekBytes (joinBlocks (s.buf.blk 0) (s.buf.blk (1 + s.i)))))

/-! ### UNWRAP -/

/-- UNWRAP at DECODE (R127): the two checks in the order of R102, then the set-up of the loop. -/
def execUnwrap (s : State) : Host.Outcome State Fault Refusal :=
  if unwrapLenOK s.cfg s.len = false then .next (s.fail .invalidWrappedKeyLength)
  else if s.kekLenOK = false then .next (s.fail .invalidKekLength)
  else
    .next { s with n := unwrapCount s.len, j := 5, i := unwrapCount s.len - 1, phase := .unwrapLoop }

/-- R128: the cipher input of the unwrap step at the current `(j, i)`, `(A XOR t) || R[i]`. -/
def unwrapInput (s : State) : CipherBlock :=
  joinBlocks (xorCounter (s.buf.blk 0) (stepCounter s.n s.j s.i)) (s.buf.blk (1 + s.i))

/-- R128: the new accumulator and register, from the cipher output B. -/
def unwrapStoreB (s : State) (b : CipherBlock) : State :=
  { s with buf := (s.buf.setBlk 0 (msb64 b)).setBlk (1 + s.i) (lsb64 b) }

/-- R105: the advance after an unwrap step. -/
def unwrapAdvance (s : State) : State :=
  if 0 < s.i then { s with i := s.i - 1 }
  else if 0 < s.j then { s with j := s.j - 1, i := s.n - 1 }
  else { s with phase := .unwrapCheck }

/-- The UNWRAP_LOOP step (R105, R128). -/
def unwrapLoopStep (s : State) : Host.Outcome State Fault Refusal :=
  match blockDecrypt s.cfg s.pcache s.kekBytes (unwrapInput s) with
  | none => .fault .paddingError
  | some (b, pc) => .next (unwrapAdvance (unwrapStoreB { s with pcache := pc } b))

/-- The UNWRAP_CHECK step (R106, R129): one comparison of all 8 bytes. -/
def unwrapCheckStep (s : State) : State :=
  if s.buf.blk 0 = iv then s.succeed else s.fail .integrityCheckFailed

end Sys2Proof.Machine
end

