-- ==== Sys2Proof/Machine/Dispatch.lean ====
section
/-! DEFINITION. The meaning of every command: its DECODE step (R101), one arm per constructor of Instr. -/

namespace Sys2Proof.Machine

def exec (i : Instr) (s : State) : Host.Outcome State Fault Refusal :=
  match i with
  | .wrap => Sys2Proof.Machine.execWrap s
  | .unwrap => Sys2Proof.Machine.execUnwrap s
  | .encBlock => Sys2Proof.Machine.execEncBlock s
  | .decBlock => Sys2Proof.Machine.execDecBlock s
  | .zeroize => Sys2Proof.Machine.execZeroize s

end Sys2Proof.Machine
end

