-- ==== Sys2Proof/Machine/Flags.lean ====
section
/-! DEFINITION. The status flags and the two read-only words made of them and of the configuration: BUSY (R27), the
error codes (R201), STATUS (R74) and PARAM (R75). What changes the flags is in Ops.lean (R100, R107, R108, R240)
and HostBus.lean (BUSYERR, R171). -/

namespace Sys2Proof.Machine

/-- BUSY, not stored: 1 exactly when `phase ≠ IDLE` (R27). -/
def State.busy (s : State) : Bool := decide (s.phase ≠ .idle)

/-- The numeric error codes (R201). -/
def ErrCode.code : ErrCode → BitVec 4
  | .noError => 0
  | .invalidKeyLength => 1
  | .invalidWrappedKeyLength => 2
  | .invalidKekLength => 3
  | .integrityCheckFailed => 4
  | .illegalCommand => 5

/-- A flag as the low bit of a word. -/
def flagBit (b : Bool) : Word := if b then 1#32 else 0#32

/-- R74: `STATUS = BUSY | DONE<<1 | ERRCODE<<4 | BUSYERR<<8`; the reserved bits read 0. -/
def State.statusWord (s : State) : Word :=
  flagBit s.busy ||| (flagBit s.done <<< 1) ||| (s.errcode.code.setWidth 32 <<< 4) ||| (flagBit s.busyErr <<< 8)

/-- R75: PARAM, constant for a configuration; bits 31:10 are 0. -/
def paramWord (c : Config) : Word :=
  ((BitVec.ofNat 8 c.nmax).setWidth 32) ||| (flagBit (decide (c.policy = .library)) <<< 8)
    ||| (flagBit (decide (c.adapter = .enabled)) <<< 9)

end Sys2Proof.Machine
end

