-- ==== Sys2Proof/Machine/HostBus.lean ====
section
/-! DEFINITION. The host step: one bus access (R54, R170, R171). -/

namespace Sys2Proof.Machine

/-- `BusRead(off)` (R170), which has no side effect. The KEK words and CMD read zero, and a BUF word reads zero while
BUSY = 1. -/
def busRead (s : State) (off : Nat) : Word :=
  match regAt s.cfg off with
  | .cmd => 0
  | .status => s.statusWord
  | .len => s.len
  | .keklen => s.keklen
  | .param => paramWord s.cfg
  | .kekWord _ => 0
  | .bufWord k => if s.busy then 0 else s.buf.word k
  | .reserved => 0

/-- The effect of an admitted write while BUSY = 0 (R171, last branch). -/
def idleWrite (s : State) (r : BusReg) (v : Word) : State :=
  match r with
  | .cmd => s.acceptCmd v
  | .status => s
  | .len => { s with len := v }
  | .keklen => { s with keklen := v }
  | .param => s
  | .kekWord m => ({ s with kek := s.kek.setWord m v } : State).invalidatePCache
  | .bufWord k => { s with buf := s.buf.setWord k v }
  | .reserved => s

/-- `BusWrite(off, v)` (R171). -/
def busWrite (s : State) (off : Nat) (v : Word) : State :=
  if (regAt s.cfg off).writable = false then s
  else if s.busy then { s with busyErr := true }
  else idleWrite s (regAt s.cfg off) v

/-- R54: an access is admitted when it is 32 bits wide and aligned. -/
def Access.admitted (a : Access) : Bool := decide (a.width = .w32) && decide (a.off.toNat % 4 = 0)

/-- The host step (R17, R54, R55): an access that is not admitted gets a bus error and changes nothing else. -/
def hostStep (s : State) (a : Access) : State :=
  if a.admitted = false then { s with resp := some .busError }
  else
    match a.op with
    | .read => { s with resp := some (.data (busRead s a.off.toNat)) }
    | .write v => { busWrite s a.off.toNat v with resp := some .written }

end Sys2Proof.Machine
end

