-- ==== Sys2Proof/Machine/Sequencer.lean ====
section
/-! DEFINITION. The sequencer (R100 to R111): the engine step of each phase, and the step of the whole machine, which takes
the next event (R17). -/

namespace Sys2Proof.Machine

/-- The DECODE step (R101): the word latched at acceptance is decoded and the command it stands for is performed; a
word that is no command fails. (ENC_BLOCK and DEC_BLOCK check ADAPTER_CMDS in their meanings.) -/
def decodeStep (s : State) : Host.Outcome State Fault Refusal :=
  match decode s.cmdLatch with
  | .instr i => exec i s
  | .reservedBitsSet => illegalCommand s
  | .illegalOp _ => illegalCommand s

/-- An engine step (R17, R101, R104 to R106). With the phase IDLE the engine has no work and nothing changes. -/
def engineStep (s : State) : Host.Outcome State Fault Refusal :=
  match s.phase with
  | .idle => .next s
  | .decode => decodeStep s
  | .wrapLoop => .next (wrapLoopStep s)
  | .unwrapLoop => unwrapLoopStep s
  | .unwrapCheck => .next (unwrapCheckStep s)

/-- The state with the given events pending. -/
def State.withSchedule (s : State) (es : List Event) : State := { s with schedule := es }

/-- The step a cause makes (R17). -/
def eventStep (s : State) (e : Event) : Host.Outcome State Fault Refusal :=
  match e with
  | .host a => .next (hostStep s a)
  | .engine => engineStep s
  | .reset => .next s.resetStep

/-- The next event and what remains: with no event pending the engine steps (R17, weak fairness). -/
def nextEvent (s : State) : Event × List Event :=
  match s.schedule with
  | [] => (.engine, [])
  | e :: es => (e, es)

/-- One step of the machine: R9 refuses an ill-formed configuration; else the next event happens (R17, R60). -/
def machineStep (s : State) : Host.Outcome State Fault Refusal :=
  if s.cfg.wf = false then .refused .illFormedConfig
  else eventStep (s.withSchedule (nextEvent s).2) (nextEvent s).1

/-- The state in which the very next step is the DECODE step of a command word: the word has just been accepted
(R100) and the engine steps first. -/
def acceptedNext (s : State) (v : Word) : State := (s.acceptCmd v).withSchedule (.engine :: s.schedule)

end Sys2Proof.Machine
end

