-- ==== Sys2Proof/Machine/Step.lean ====
section
/-! DEFINITION. The step of the machine and the placing of a command word for the next step; both only call
Machine/Sequencer.lean. -/

namespace Sys2Proof.Machine

/-- One step of KW256 (R17). -/
def step (s : State) : Host.Outcome State Fault Refusal := machineStep s

/-- The state in which the next step decodes and performs the command word `w` (assumption 5). -/
def State.withFetchWord (s : State) (nbits w : Nat) : State := acceptedNext s (BitVec.ofNat 32 (w % 2 ^ nbits))

end Sys2Proof.Machine
end

