-- ==== Sys2Proof/Machine/HostProgram.lean ====
section
/-! DEFINITION. The host's side of the port: the notation `WR` and `RD` (R82) and the expansions of the
pseudo-operations LDKEK, LDBUF, POLL, RUN and RDBUF (R83). A host program is a list of events for the machine's
schedule; what is bound to the words read (RD, RDBUF, POLL, RUN) is given by functions that perform the reads on a
state. POLL, which depends on what it reads, is a loop with a bound on its reads. -/

namespace Sys2Proof.Machine

/-- The byte offset of a register with a name of its own (R70, R82). -/
def offCMD : BitVec 9 := 0x000
def offSTATUS : BitVec 9 := 0x004
def offLEN : BitVec 9 := 0x008
def offKEKLEN : BitVec 9 := 0x00C
def offPARAM : BitVec 9 := 0x010

/-- `KEKm`, offset 0x020 + 4m (R72, R82). -/
def offKEK (m : Nat) : BitVec 9 := BitVec.ofNat 9 (0x020 + 4 * m)

/-- `BUFk`, offset 0x040 + 4k (R71, R82). -/
def offBUF (k : Nat) : BitVec 9 := BitVec.ofNat 9 (0x040 + 4 * k)

/-- `WR off, v` (R82). -/
def wr (off : BitVec 9) (v : Word) : Event := .host ⟨off, .w32, .write v⟩

/-- `RD off` (R82); the word read is the port's response. -/
def rd (off : BitVec 9) : Event := .host ⟨off, .w32, .read⟩

/-- Writes of the 32-bit big-endian words of a byte string to the offsets of consecutive words from `k` on. -/
def wrWords (off : Nat → BitVec 9) (k : Nat) : List Byte → List Event
  | b0 :: b1 :: b2 :: b3 :: rest => wr (off k) (BitVec.ofNat 32 (be [b0, b1, b2, b3])) :: wrWords off (k + 1) rest
  | _ => []

/-- `LDKEK K`: nine writes, KEK0 to KEK7 and then KEKLEN (R83). -/
def ldKek (key : Key) : List Event := wrWords offKEK 0 (bytesOf 32 key.toNat) ++ [wr offKEKLEN 32]

/-- `LDBUF b, X`: the words of X from BUF word 2b on, ascending (R83). -/
def ldBuf (b : Nat) (xs : List Byte) : List Event := wrWords offBUF (2 * b) xs

/-- The reads of `RDBUF b, m`: words 2b to 2b+2m-1, ascending (R83). -/
def rdBuf (b m : Nat) : List Event := (List.range (2 * m)).map (fun q => rd (offBUF (2 * b + q)))

/-- The byte string of the words read, concatenated big-endian in the order of the reads (R83). -/
def bytesOfWords (ws : List Word) : List Byte := ws.flatMap (fun w => bytesOf 4 w.toNat)

/-- `WR CMD, op` for the mnemonic of a command, the write with which `RUN op` begins (R82, R83). -/
def wrCmd (i : Instr) : Event := wr offCMD (encode i)

/-- The port's response to a read, where there is one. -/
def readResult (t : State) : Option (State × Word) :=
  match t.resp with
  | some (.data w) => some (t, w)
  | _ => none

/-- `RD off -> name` (R82) before the machine's pending events: the state after the read and the word read. -/
def readWord (off : BitVec 9) (s : State) : Option (State × Word) :=
  match step (s.withSchedule (rd off :: s.schedule)) with
  | .next t => readResult t
  | .fault _ => none
  | .refused _ => none

/-- `k` reads of consecutive BUF words from word `q` on, ascending: the state after them and the words read. -/
def readBufWords (q : Nat) : Nat → State → Option (State × List Word)
  | 0, s => some (s, [])
  | k + 1, s =>
    match readWord (offBUF q) s with
    | some (t, w) =>
      match readBufWords (q + 1) k t with
      | some (u, ws) => some (u, w :: ws)
      | none => none
    | none => none

/-- `RDBUF b, m -> X` (R83): the state after the reads and the 8m-byte string X. -/
def readBuf (b m : Nat) (s : State) : Option (State × List Byte) :=
  match readBufWords (2 * b) (2 * m) s with
  | some (t, ws) => some (t, bytesOfWords ws)
  | none => none

/-- `POLL -> s` with at most `fuel` reads (R83): read STATUS until its bit 0 is 0. Between two reads the machine takes
the next step of its own schedule, an engine step where none is pending (R17). -/
def poll : Nat → State → Option (State × Word)
  | 0, _ => none
  | fuel + 1, s =>
    match readWord offSTATUS s with
    | some (t, w) =>
      if w.getLsbD 0 then
        match step t with
        | .next u => poll fuel u
        | .fault _ => none
        | .refused _ => none
      else some (t, w)
    | none => none

/-- `RUN op -> s` (R83): `WR CMD, op` followed by POLL. `op` is any value; a command's mnemonic stands for `encode` of
the command (R82). -/
def runCmd (fuel : Nat) (op : Word) (s : State) : Option (State × Word) :=
  match step (s.withSchedule (wr offCMD op :: s.schedule)) with
  | .next t => poll fuel t
  | .fault _ => none
  | .refused _ => none

end Sys2Proof.Machine
end

