-- ==== Sys2Proof/Safety.lean ====
section
/-! DEFINITION. The terms claims use: the invariant of a run (R32, R33, and what the sequencer and the byte arrays keep),
runs of several steps, the acceptance of a command, and the source's key wrap algorithm as plain functions of an
accumulator and a list of registers (R123, R128), independent of the sequencer. -/

namespace Sys2Proof.Machine

/-! ### The invariant -/

/-- R33: a valid PCACHE exists and holds the padding ciphertext of its key. -/
def PCache.Sound (c : Config) (pc : PCache) : Prop :=
  pc.valid = true → c.provider = .padded ∧ c.padCache = .on ∧ pc.value = Aes.aes256Enc pc.key padBlock

/-- The phases in which n, j and i are read (R32 (b)). -/
def Phase.inLoop (p : Phase) : Prop := p = .wrapLoop ∨ p = .unwrapLoop ∨ p = .unwrapCheck

/-- What holds of every state a run reaches. -/
structure Inv (s : State) : Prop where
  /-- R9. -/
  cfgWf : s.cfg.wf = true
  /-- BUF is in canonical form and lists no byte beyond its implemented size (R21). -/
  bufWf : s.buf.wf = true
  bufBound : s.buf.below s.cfg.bufBytes = true
  /-- KEK is in canonical form and has 32 bytes (R24). -/
  kekWf : s.kek.wf = true
  kekBound : s.kek.below 32 = true
  /-- R32 (b). -/
  loopIndex : s.phase.inLoop → (2 ≤ s.n ∧ s.n ≤ s.cfg.nmax) ∧ s.j ≤ 5 ∧ s.i < s.n
  /-- R32 (c). -/
  doneIdle : s.done = true → s.phase = .idle
  /-- R32 (d). -/
  errDone : s.errcode ≠ .noError → s.done = true
  /-- R33; the cached key is the one in KEK, since every change of KEK invalidates PCACHE. -/
  pcacheSound : s.pcache.Sound s.cfg
  pcacheKey : s.pcache.valid = true → s.pcache.key = s.kekBytes
  /-- A running WRAP passed its checks on the operands that still stand in the registers (R64, R122). -/
  wrapRunning : s.phase = .wrapLoop →
    s.cmdLatch = encode .wrap ∧ wrapLenOK s.cfg s.len = true ∧ s.kekLenOK = true ∧ s.n = wrapCount s.len
  /-- The same of a running UNWRAP (R64, R127). -/
  unwrapRunning : s.phase = .unwrapLoop ∨ s.phase = .unwrapCheck →
    s.cmdLatch = encode .unwrap ∧ unwrapLenOK s.cfg s.len = true ∧ s.kekLenOK = true ∧ s.n = unwrapCount s.len

/-! ### Runs and events -/

/-- `k` steps of the machine, stopping at the first fault or refusal. -/
def runSteps (k : Nat) (s : State) : Host.Outcome State Fault Refusal := Host.Core.run Sys2Proof.core k s

/-- The next step is a host access. -/
def State.hostNext (s : State) (a : Access) (es : List Event) : Prop := s.schedule = .host a :: es

/-- The next step is an engine step, and `es` is pending after it: an engine step is the next event, or none is
pending (R17). -/
def State.engineNext (s : State) (es : List Event) : Prop := nextEvent s = (.engine, es)

/-- The next step is the reset input. -/
def State.resetNext (s : State) (es : List Event) : Prop := s.schedule = .reset :: es

/-- The next step accepts the command word `v` (R100): an admitted write to CMD while idle. -/
def State.acceptNext (s : State) (v : Word) : Prop :=
  s.phase = .idle ∧ ∃ es, s.hostNext ⟨0x000, .w32, .write v⟩ es

/-- R[0], ..., R[n-1] (R22). -/
def State.regs (s : State) (n : Nat) : List Semiblock := (List.range n).map (fun i => s.buf.blk (1 + i))

end Sys2Proof.Machine

/-! ### The key wrap algorithm of the source (R123, R128), over any block cipher -/

namespace Sys2Proof.Rfc3394

open Sys2Proof.Machine

/-- One wrap step: `B = Enc(A || R)`, `A = MSB64(B) XOR t`, `R = LSB64(B)` (R123). -/
def wrapStep (enc : CipherBlock → CipherBlock) (t : Nat) (a r : Semiblock) : Semiblock × Semiblock :=
  (xorCounter (msb64 (enc (joinBlocks a r))) t, lsb64 (enc (joinBlocks a r)))

/-- One round over the registers in ascending order, its first step counted `t` (R15, R104). -/
def wrapRound (enc : CipherBlock → CipherBlock) : Nat → Semiblock → List Semiblock → Semiblock × List Semiblock
  | _, a, [] => (a, [])
  | t, a, r :: rs =>
    let p := wrapStep enc t a r
    let q := wrapRound enc (t + 1) p.1 rs
    (q.1, p.2 :: q.2)

/-- Rounds 0 to m-1, ascending; round j begins with the counter `n*j + 1` (R104, R121). -/
def wrapRounds (enc : CipherBlock → CipherBlock) (n : Nat) :
    Nat → Semiblock × List Semiblock → Semiblock × List Semiblock
  | 0, p => p
  | m + 1, p => wrapRound enc (n * m + 1) (wrapRounds enc n m p).1 (wrapRounds enc n m p).2

/-- The wrap of a list of registers: six rounds from A = IV; the result is `A` and `R` (R122 to R124). -/
def wrap (enc : CipherBlock → CipherBlock) (rs : List Semiblock) : Semiblock × List Semiblock :=
  wrapRounds enc rs.length 6 (iv, rs)

/-- One unwrap step: `B = Dec((A XOR t) || R)`, `A = MSB64(B)`, `R = LSB64(B)` (R128). -/
def unwrapStep (dec : CipherBlock → CipherBlock) (t : Nat) (a r : Semiblock) : Semiblock × Semiblock :=
  (msb64 (dec (joinBlocks (xorCounter a t) r)), lsb64 (dec (joinBlocks (xorCounter a t) r)))

/-- One round over the registers in descending order; the step of the first register is counted `t` (R105). -/
def unwrapRound (dec : CipherBlock → CipherBlock) : Nat → Semiblock → List Semiblock → Semiblock × List Semiblock
  | _, a, [] => (a, [])
  | t, a, r :: rs =>
    let q := unwrapRound dec (t + 1) a rs
    let p := unwrapStep dec t q.1 r
    (p.1, p.2 :: q.2)

/-- Rounds m-1 down to 0 (R105). -/
def unwrapRounds (dec : CipherBlock → CipherBlock) (n : Nat) :
    Nat → Semiblock × List Semiblock → Semiblock × List Semiblock
  | 0, p => p
  | m + 1, p => unwrapRounds dec n m (unwrapRound dec (n * m + 1) p.1 p.2)

/-- The unwrap of an accumulator and registers, before the integrity check: six rounds in reverse (R127 to R129). -/
def unwrap (dec : CipherBlock → CipherBlock) (a : Semiblock) (rs : List Semiblock) : Semiblock × List Semiblock :=
  unwrapRounds dec rs.length 6 (a, rs)

end Sys2Proof.Rfc3394
end

