-- ==== Sys2Proof/Certificates/Slice0/Obligations.lean ====
section
/-! DEFINITION. The statements for the provers, one definition each. A frame is said as an equality of states: the next
state is the state before with the named fields replaced, so every other field is unchanged. Addresses of BUF and KEK
are byte indexes; the bytes a command or a bus word stores to are computed as the rules give them. Such an equality also
says that n, j, i and the key and value of an invalid PCACHE stay, which the spec leaves to a model (assumption 10), and
what becomes of `schedule` and `resp`, which are the model's own (assumptions 3 and 4). -/

open Sys2Proof Sys2Proof.Machine Sys2Proof.Machine.Aes

/-! ### Reset and configuration -/

/-- R36, for every configuration: the reset value of every component, what STATUS and PARAM then read, and that until the
host sets KEKLEN every command that needs the KEK fails with INVALID_KEK_LENGTH (where the checks R102 puts before that one
pass). -/
def Obligations.ResetStateHoldsResetValues : Prop :=
  ∀ c : Config, let s := State.resetOf c
    (∀ m, s.buf.read m = 0x00#8) ∧ (∀ m, s.kek.read m = 0x00#8) ∧ s.len = 0#32 ∧ s.keklen = 0#32
      ∧ s.done = false ∧ s.errcode.code = 0#4 ∧ s.busyErr = false ∧ s.cmdLatch = 0#32 ∧ s.phase = .idle
      ∧ s.n = 0 ∧ s.j = 0 ∧ s.i = 0 ∧ s.pcache = ⟨false, 0, 0⟩
      ∧ busRead s 0x004 = 0x00000000#32 ∧ busRead s 0x010 = paramWord c
      ∧ ∀ (i : Instr) (buf : Memory) (l : Word), i ≠ .zeroize → i.wf c = true → (i = .wrap → wrapLenOK c l = true) →
          (i = .unwrap → unwrapLenOK c l = true) →
          ∃ t, exec i { s with buf := buf, len := l } = .next t ∧ t.errcode = .invalidKekLength

/-- R240: the reset step, from any phase, leaves the reset state of the same configuration; a running command is abandoned
and the pending events stay. -/
def Obligations.ResetStepErasesAndAbandons : Prop :=
  ∀ (s : State) (es : List Event), s.cfg.wf = true → s.resetNext es →
    step s = .next { State.resetOf s.cfg with schedule := es }

/-- R9: the machine refuses an ill-formed configuration, and refuses nothing else. -/
def Obligations.IllFormedConfigurationIsRefused : Prop :=
  ∀ s : State,
    let ok : Prop := (2 ≤ s.cfg.nmax ∧ s.cfg.nmax ≤ 31) ∧ (s.cfg.policy = .library → 4 ≤ s.cfg.nmax)
      ∧ (s.cfg.padCache = .on → s.cfg.provider = .padded)
    (¬ ok → step s = .refused .illFormedConfig) ∧ (ok → ∀ r, step s ≠ .refused r)

/-! ### Decoding -/

/-- R101: when the latched word decodes to a command, the engine step of DECODE is `exec` of that command; and so is the
next step after the word is placed by `withFetchWord`. (An ENC_BLOCK or DEC_BLOCK word that the configuration makes
illegal fails inside `exec`: see IllegalWordFails.) -/
def Obligations.DecodedCommandIsExecuted : Prop :=
  (∀ (s : State) (es : List Event) (i : Instr), s.cfg.wf = true → s.engineNext es → s.phase = .decode →
    decode s.cmdLatch = .instr i → step s = exec i (s.withSchedule es))
  ∧ ∀ (s : State) (nbits w : Nat) (i : Instr), s.cfg.wf = true → decodeTableWord nbits w = some i →
    step (s.withFetchWord nbits w) = exec i (s.acceptCmd (BitVec.ofNat 32 (w % 2 ^ nbits)))

/-- R77, R80: words written out from the encoding decode to their commands, and some illegal words to none. -/
def Obligations.KnownWordsDecode : Prop :=
  decode 0x00000001#32 = .instr .wrap ∧ decode 0x00000002#32 = .instr .unwrap
    ∧ decode 0x00000003#32 = .instr .encBlock ∧ decode 0x00000004#32 = .instr .decBlock
    ∧ decode 0x00000005#32 = .instr .zeroize ∧ decode 0x00000000#32 = .illegalOp 0x0
    ∧ decode 0x00000006#32 = .illegalOp 0x6 ∧ decode 0x0000000F#32 = .illegalOp 0xF
    ∧ decode 0x00000011#32 = .reservedBitsSet ∧ decode 0x80000001#32 = .reservedBitsSet

/-- R84: decoding undoes encoding, in both directions, and agrees with the rows of the opcode table, which all have the full
mask; a word is legal when it matches a row that the configuration admits. -/
def Obligations.DecodeAgreesWithOpcodeTable : Prop :=
  (∀ i : Instr, decode (encode i) = .instr i)
  ∧ (∀ r ∈ opcodeTable, r.mask = 0xFFFFFFFF#32)
  ∧ (∀ (w : Word) (i : Instr), decode w = .instr i → w = encode i)
  ∧ (∀ (w : Word) (i : Instr), decode w = .instr i ↔ ∃ r ∈ opcodeTable, r.instr = i ∧ w &&& r.mask = r.val)
  ∧ ∀ (c : Config) (w : Word), legal c w = true ↔
      ∃ r ∈ opcodeTable, w &&& r.mask = r.val
        ∧ ((r.instr = .encBlock ∨ r.instr = .decBlock) → c.adapter = .enabled)

/-- R78: the three conditions of legality, the list of the legal words, and the outcome of every other word: it is
accepted (BUSY goes to 1) and the next engine step completes it with ILLEGAL_COMMAND. -/
def Obligations.LegalWordsAreExactlyFive : Prop :=
  (∀ (c : Config) (w : Word),
    (legal c w = true ↔ w.extractLsb' 4 28 = 0#28 ∧ w.extractLsb' 0 4 ∈ ([0x1, 0x2, 0x3, 0x4, 0x5] : List (BitVec 4))
      ∧ (w.extractLsb' 0 4 ∈ ([0x3, 0x4] : List (BitVec 4)) → c.adapter = .enabled))
    ∧ (legal c w = true ↔ w = 0x00000001#32 ∨ w = 0x00000002#32 ∨ w = 0x00000005#32
      ∨ c.adapter = .enabled ∧ (w = 0x00000003#32 ∨ w = 0x00000004#32)))
  ∧ ∀ (s : State) (v : Word) (es : List Event), s.cfg.wf = true → s.phase = .idle →
      s.schedule = .host ⟨0x000, .w32, .write v⟩ :: .engine :: es → legal s.cfg v = false →
      ∃ u t, step s = .next u ∧ u.busy = true ∧ step u = .next t ∧ t.busy = false ∧ t.done = true
        ∧ t.errcode = .illegalCommand

/-- R161, R80 (a): the DECODE step of a word that is not legal zeroes BUF, reports ILLEGAL_COMMAND and changes nothing
else; PCACHE is untouched. -/
def Obligations.IllegalWordFails : Prop :=
  ∀ (s : State) (es : List Event), s.cfg.wf = true → s.engineNext es → s.phase = .decode →
    legal s.cfg s.cmdLatch = false →
    ∃ t, step s = .next t ∧ (∀ a, t.buf.read a = 0x00#8)
      ∧ t = { s with buf := t.buf, errcode := .illegalCommand, done := true, phase := .idle, schedule := es }

/-! ### Host accesses -/

/-- R100: a CMD write while idle is accepted, whatever its value; while a command runs it is dropped. -/
def Obligations.CmdWriteIsAccepted : Prop :=
  ∀ (s : State) (v : Word) (es : List Event), s.cfg.wf = true → s.hostNext ⟨0x000, .w32, .write v⟩ es →
    (s.phase = .idle → step s = .next { s with
      cmdLatch := v, done := false, errcode := .noError, busyErr := false, phase := .decode,
      schedule := es, resp := some .written })
    ∧ (s.phase ≠ .idle → step s = .next { s with busyErr := true, schedule := es, resp := some .written })

/-- R171: what an aligned 32-bit write does at every offset of the window. `o` is the offset, `stored` the four bytes of the
value, byte 0 in bits 31:24. -/
def Obligations.HostWriteEffects : Prop :=
  ∀ (s : State) (off : BitVec 9) (v : Word) (es : List Event), s.cfg.wf = true →
    s.hostNext ⟨off, .w32, .write v⟩ es → off.toNat % 4 = 0 →
    let o := off.toNat
    let isKek : Prop := 0x020 ≤ o ∧ o ≤ 0x03C
    let isBuf : Prop := 0x040 ≤ o ∧ o < 0x040 + 8 * (s.cfg.nmax + 1)
    let writable : Prop := o = 0x000 ∨ o = 0x008 ∨ o = 0x00C ∨ isKek ∨ isBuf
    let stored (m : Nat → Byte) (a : Nat) : Prop := m a = v.extractLsb' 24 8 ∧ m (a + 1) = v.extractLsb' 16 8
      ∧ m (a + 2) = v.extractLsb' 8 8 ∧ m (a + 3) = v.extractLsb' 0 8
    let after (t : State) : State := { t with schedule := es, resp := some .written }
    ∃ t, step s = .next t
      ∧ (¬ writable → t = after s)
      ∧ (writable → s.busy = true → t = after { s with busyErr := true })
      ∧ (s.busy = false →
          (o = 0x000 → t = after { s with
            cmdLatch := v, done := false, errcode := .noError, busyErr := false, phase := .decode })
          ∧ (o = 0x008 → t = after { s with len := v })
          ∧ (o = 0x00C → t = after { s with keklen := v })
          ∧ (isKek → t = after { s with kek := t.kek, pcache := { s.pcache with valid := false } }
              ∧ stored t.kek.read (o - 0x020)
              ∧ ∀ a, a < o - 0x020 ∨ o - 0x020 + 4 ≤ a → t.kek.read a = s.kek.read a)
          ∧ (isBuf → t = after { s with buf := t.buf } ∧ stored t.buf.read (o - 0x040)
              ∧ ∀ a, a < o - 0x040 ∨ o - 0x040 + 4 ≤ a → t.buf.read a = s.buf.read a))

/-- R170: what an aligned 32-bit read returns at every offset of the window, with no side effect. -/
def Obligations.HostReadReturns : Prop :=
  ∀ (s : State) (off : BitVec 9) (es : List Event), s.cfg.wf = true →
    s.hostNext ⟨off, .w32, .read⟩ es → off.toNat % 4 = 0 →
    let o := off.toNat
    let isBuf : Prop := 0x040 ≤ o ∧ o < 0x040 + 8 * (s.cfg.nmax + 1)
    ∃ w, step s = .next { s with schedule := es, resp := some (.data w) }
      ∧ (o = 0x004 → w = s.statusWord) ∧ (o = 0x008 → w = s.len) ∧ (o = 0x00C → w = s.keklen)
      ∧ (o = 0x010 → w = paramWord s.cfg)
      ∧ (isBuf → s.busy = true → w = 0x00000000#32)
      ∧ (isBuf → s.busy = false → w.extractLsb' 24 8 = s.buf.read (o - 0x040)
          ∧ w.extractLsb' 16 8 = s.buf.read (o - 0x040 + 1) ∧ w.extractLsb' 8 8 = s.buf.read (o - 0x040 + 2)
          ∧ w.extractLsb' 0 8 = s.buf.read (o - 0x040 + 3))
      ∧ (¬ (o = 0x004 ∨ o = 0x008 ∨ o = 0x00C ∨ o = 0x010 ∨ isBuf) → w = 0x00000000#32)

/-- R54: an access of another width than 32 bits, or misaligned, gets a bus error and changes no state, whatever BUSY; and a
bus address outside the window does not reach the block. -/
def Obligations.BusErrorHasNoEffect : Prop :=
  (∀ (s : State) (a : Access) (es : List Event), s.cfg.wf = true → s.hostNext a es →
    a.width ≠ .w32 ∨ a.off.toNat % 4 ≠ 0 → step s = .next { s with schedule := es, resp := some .busError })
  ∧ ∀ (c : Config) (addr : Nat),
      (windowOffset c addr = none ↔ addr < c.base ∨ c.base + 0x200 ≤ addr)
      ∧ ∀ off, windowOffset c addr = some off → c.base + off.toNat = addr

/-- R172 (d), (e): a BUF word written while idle reads back at once; a word that is not implemented reads zero. -/
def Obligations.BufWordWriteThenRead : Prop :=
  ∀ (s : State) (k : Nat) (v : Word) (es : List Event), s.cfg.wf = true → s.phase = .idle → k < 64 →
    s.schedule = wr (offBUF k) v :: rd (offBUF k) :: es →
    ∃ t, runSteps 2 s = .next t ∧ t.schedule = es
      ∧ (k < 2 * (s.cfg.nmax + 1) → t.resp = some (.data v))
      ∧ (2 * (s.cfg.nmax + 1) ≤ k → t.resp = some (.data 0x00000000#32) ∧ t.buf = s.buf)

/-- R83, R72: the nine writes of LDKEK leave the key in KEK and 32 in KEKLEN, invalidate PCACHE and change nothing else. -/
def Obligations.LdKekLoadsKey : Prop :=
  ∀ (s : State) (key : Key) (es : List Event), s.cfg.wf = true → s.phase = .idle → s.schedule = ldKek key ++ es →
    ∃ t, runSteps 9 s = .next t ∧ t.kekBytes = key
      ∧ t = { s with
        kek := t.kek, keklen := 32#32, pcache := { s.pcache with valid := false },
        schedule := es, resp := some .written }

/-- R74: the fields of STATUS. -/
def Obligations.StatusWordFields : Prop :=
  ∀ s : State, let w := s.statusWord
    w.getLsbD 0 = decide (s.phase ≠ .idle) ∧ w.getLsbD 1 = s.done ∧ w.extractLsb' 2 2 = 0#2
      ∧ w.extractLsb' 4 4 = s.errcode.code ∧ w.getLsbD 8 = s.busyErr ∧ w.extractLsb' 9 23 = 0#23

/-- R75: the fields of PARAM, its default value, and that the provider is not reported. -/
def Obligations.ParamWordFields : Prop :=
  (∀ c : Config, c.wf = true → let w := paramWord c
    (w.extractLsb' 0 8).toNat = c.nmax ∧ w.getLsbD 8 = decide (c.policy = .library)
      ∧ w.getLsbD 9 = decide (c.adapter = .enabled) ∧ w.extractLsb' 10 22 = 0#22)
  ∧ paramWord Config.default = 0x00000304#32
  ∧ ∀ (c : Config) (p : Provider) (q : PadCache), paramWord { c with provider := p, padCache := q } = paramWord c

/-! ### Lengths and the step counter -/

/-- R120, R126: the legal lengths under each policy, and the length growth of R132. -/
def Obligations.LegalLengths : Prop :=
  ∀ (c : Config) (l : Word),
    (wrapLenOK c l = true ↔ (c.policy = .library ∧ l = 32#32)
      ∨ (c.policy = .general ∧ l.toNat % 8 = 0 ∧ 2 ≤ l.toNat / 8 ∧ l.toNat / 8 ≤ c.nmax))
    ∧ (unwrapLenOK c l = true ↔ (c.policy = .library ∧ l = 40#32)
      ∨ (c.policy = .general ∧ l.toNat % 8 = 0 ∧ 2 ≤ l.toNat / 8 - 1 ∧ l.toNat / 8 - 1 ≤ c.nmax))
    ∧ (c.wf = true → wrapLenOK c l = true → unwrapLenOK c (l + 8#32) = true)

/-- R121: over the 6·n steps the counter takes every value from 1 to 6n exactly once, it is XORed into the 64-bit value of A,
and only the last byte of A can change. -/
def Obligations.StepCounterCoversOneToSixN : Prop :=
  ∀ n : Nat, 2 ≤ n → n ≤ 31 →
    (∀ j i, j ≤ 5 → i < n → 1 ≤ stepCounter n j i ∧ stepCounter n j i ≤ 6 * n)
    ∧ (∀ t, 1 ≤ t → t ≤ 6 * n → ∃! p : Nat × Nat, p.1 ≤ 5 ∧ p.2 < n ∧ stepCounter n p.1 p.2 = t)
    ∧ ∀ (a : Semiblock) (j i : Nat), j ≤ 5 → i < n →
        (xorCounter a (stepCounter n j i)).toNat = a.toNat ^^^ (n * j + i + 1)
        ∧ (xorCounter a (stepCounter n j i)).extractLsb' 8 56 = a.extractLsb' 8 56

/-! ### The commands at DECODE -/

/-- R122: WRAP at DECODE, with its two errors in their order. -/
def Obligations.WrapDecodeStep : Prop :=
  encode .wrap = 0x00000001#32 ∧ ∀ s : State, ∃ t, exec .wrap s = .next t
    ∧ (wrapLenOK s.cfg s.len = false → (∀ a, t.buf.read a = 0x00#8)
        ∧ t = { s with buf := t.buf, errcode := .invalidKeyLength, done := true, phase := .idle })
    ∧ (wrapLenOK s.cfg s.len = true → s.keklen ≠ 32#32 → (∀ a, t.buf.read a = 0x00#8)
        ∧ t = { s with buf := t.buf, errcode := .invalidKekLength, done := true, phase := .idle })
    ∧ (wrapLenOK s.cfg s.len = true → s.keklen = 32#32 →
        t.buf.blk 0 = 0xA6A6A6A6A6A6A6A6#64 ∧ (∀ a, 8 ≤ a → t.buf.read a = s.buf.read a)
        ∧ t = { s with buf := t.buf, n := s.len.toNat / 8, j := 0, i := 0, phase := .wrapLoop })

/-- R127: UNWRAP at DECODE, with its two errors in their order; the set-up changes no byte of BUF. -/
def Obligations.UnwrapDecodeStep : Prop :=
  encode .unwrap = 0x00000002#32 ∧ ∀ s : State, ∃ t, exec .unwrap s = .next t
    ∧ (unwrapLenOK s.cfg s.len = false → (∀ a, t.buf.read a = 0x00#8)
        ∧ t = { s with buf := t.buf, errcode := .invalidWrappedKeyLength, done := true, phase := .idle })
    ∧ (unwrapLenOK s.cfg s.len = true → s.keklen ≠ 32#32 → (∀ a, t.buf.read a = 0x00#8)
        ∧ t = { s with buf := t.buf, errcode := .invalidKekLength, done := true, phase := .idle })
    ∧ (unwrapLenOK s.cfg s.len = true → s.keklen = 32#32 →
        t = { s with n := s.len.toNat / 8 - 1, j := 5, i := s.len.toNat / 8 - 1 - 1, phase := .unwrapLoop })

/-- R143: ENC_BLOCK, with either provider. Bytes 0 to 15 of BUF hold AES-256 of what they held; on an error BUF is zero. -/
def Obligations.EncBlockEffect : Prop :=
  encode .encBlock = 0x00000003#32 ∧ ∀ s : State, ∃ t, exec .encBlock s = .next t
    ∧ (s.cfg.adapter = .disabled → (∀ a, t.buf.read a = 0x00#8)
        ∧ t = { s with buf := t.buf, errcode := .illegalCommand, done := true, phase := .idle })
    ∧ (s.cfg.adapter = .enabled → s.keklen ≠ 32#32 → (∀ a, t.buf.read a = 0x00#8)
        ∧ t = { s with buf := t.buf, errcode := .invalidKekLength, done := true, phase := .idle })
    ∧ (s.cfg.adapter = .enabled → s.keklen = 32#32 →
        t.buf.cipherBlock = aes256Enc s.kekBytes s.buf.cipherBlock ∧ (∀ a, 16 ≤ a → t.buf.read a = s.buf.read a)
        ∧ t = { s with buf := t.buf, errcode := .noError, done := true, phase := .idle })

/-- R144: DEC_BLOCK, with either provider, in a state whose PCACHE is sound (R33). PCACHE stays sound, and with PROVIDER = RAW
or PAD_CACHE = OFF it is unchanged. ENC_BLOCK then DEC_BLOCK restores bytes 0 to 15 of BUF. -/
def Obligations.DecBlockEffect : Prop :=
  encode .decBlock = 0x00000004#32 ∧ ∀ s : State, s.pcache.Sound s.cfg → ∃ t, exec .decBlock s = .next t
    ∧ (s.cfg.adapter = .disabled → (∀ a, t.buf.read a = 0x00#8)
        ∧ t = { s with buf := t.buf, errcode := .illegalCommand, done := true, phase := .idle })
    ∧ (s.cfg.adapter = .enabled → s.keklen ≠ 32#32 → (∀ a, t.buf.read a = 0x00#8)
        ∧ t = { s with buf := t.buf, errcode := .invalidKekLength, done := true, phase := .idle })
    ∧ (s.cfg.adapter = .enabled → s.keklen = 32#32 →
        t.buf.cipherBlock = aes256Dec s.kekBytes s.buf.cipherBlock ∧ (∀ a, 16 ≤ a → t.buf.read a = s.buf.read a)
        ∧ t = { s with buf := t.buf, errcode := .noError, done := true, phase := .idle, pcache := t.pcache }
        ∧ t.pcache.Sound s.cfg
        ∧ (s.cfg.provider = .raw ∨ s.cfg.padCache = .off → t.pcache = s.pcache)
        ∧ ∀ u v, exec .encBlock s = .next u → exec .decBlock u = .next v → v.buf.cipherBlock = s.buf.cipherBlock)

/-- R160: ZEROIZE. -/
def Obligations.ZeroizeEffect : Prop :=
  encode .zeroize = 0x00000005#32 ∧ ∀ s : State, ∃ t, exec .zeroize s = .next t
    ∧ (∀ a, t.kek.read a = 0x00#8) ∧ (∀ a, t.buf.read a = 0x00#8)
    ∧ t = { s with
      kek := t.kek, buf := t.buf, len := 0#32, keklen := 0#32, pcache := { s.pcache with valid := false },
      errcode := .noError, done := true, phase := .idle }

/-! ### The loop steps -/

/-- R104, R123: the WRAP_LOOP step, with either provider. `b` is the cipher output and the counter is `n*j + i + 1`. -/
def Obligations.WrapLoopStepEffect : Prop :=
  ∀ (s : State) (es : List Event), s.cfg.wf = true → s.engineNext es → s.phase = .wrapLoop →
    let b := aes256Enc s.kekBytes (s.buf.blk 0 ++ s.buf.blk (1 + s.i) : BitVec (64 + 64))
    ∃ t, step s = .next t
      ∧ t.buf.blk 0 = (b.extractLsb' 64 64) ^^^ BitVec.ofNat 64 (s.n * s.j + s.i + 1)
      ∧ t.buf.blk (1 + s.i) = b.extractLsb' 0 64
      ∧ (∀ a, a / 8 ≠ 0 → a / 8 ≠ 1 + s.i → t.buf.read a = s.buf.read a)
      ∧ (s.i + 1 < s.n → t = { s with buf := t.buf, i := s.i + 1, schedule := es })
      ∧ (¬ s.i + 1 < s.n → s.j < 5 → t = { s with buf := t.buf, j := s.j + 1, i := 0, schedule := es })
      ∧ (¬ s.i + 1 < s.n → ¬ s.j < 5 →
          t = { s with buf := t.buf, errcode := .noError, done := true, phase := .idle, schedule := es })

/-- R105, R128: the UNWRAP_LOOP step, with either provider, in a state whose PCACHE is sound (R33). -/
def Obligations.UnwrapLoopStepEffect : Prop :=
  ∀ (s : State) (es : List Event), s.cfg.wf = true → s.engineNext es → s.phase = .unwrapLoop →
    s.pcache.Sound s.cfg →
    let b := aes256Dec s.kekBytes
      ((s.buf.blk 0 ^^^ BitVec.ofNat 64 (s.n * s.j + s.i + 1)) ++ s.buf.blk (1 + s.i) : BitVec (64 + 64))
    ∃ t, step s = .next t
      ∧ t.buf.blk 0 = b.extractLsb' 64 64 ∧ t.buf.blk (1 + s.i) = b.extractLsb' 0 64
      ∧ (∀ a, a / 8 ≠ 0 → a / 8 ≠ 1 + s.i → t.buf.read a = s.buf.read a)
      ∧ t.pcache.Sound s.cfg
      ∧ (0 < s.i → t = { s with buf := t.buf, pcache := t.pcache, i := s.i - 1, schedule := es })
      ∧ (s.i = 0 → 0 < s.j →
          t = { s with buf := t.buf, pcache := t.pcache, j := s.j - 1, i := s.n - 1, schedule := es })
      ∧ (s.i = 0 → s.j = 0 → t = { s with buf := t.buf, pcache := t.pcache, phase := .unwrapCheck, schedule := es })

/-- R106, R129: the UNWRAP_CHECK step compares all 8 bytes of the accumulator with IV. -/
def Obligations.UnwrapCheckEffect : Prop :=
  ∀ (s : State) (es : List Event), s.cfg.wf = true → s.engineNext es → s.phase = .unwrapCheck →
    ∃ t, step s = .next t
      ∧ (s.buf.blk 0 ≠ 0xA6A6A6A6A6A6A6A6#64 → (∀ a, t.buf.read a = 0x00#8)
          ∧ t = { s with
            buf := t.buf, errcode := .integrityCheckFailed, done := true, phase := .idle, schedule := es })
      ∧ (s.buf.blk 0 = 0xA6A6A6A6A6A6A6A6#64 →
          t = { s with errcode := .noError, done := true, phase := .idle, schedule := es })

/-! ### The cipher and the providers -/

/-- R140: for every key the cipher and the inverse cipher undo each other. -/
def Obligations.CipherIsInvertible : Prop :=
  ∀ (k : Key) (x y : CipherBlock), aes256Dec k (aes256Enc k x) = x ∧ aes256Enc k (aes256Dec k y) = y

/-- R185, R186: the S-box table is the affine map of the multiplicative inverse, with 0x00 taken as its own inverse, and the
inverse table inverts it. -/
def Obligations.SboxIsAffineOfInverse : Prop :=
  sbox 0x00#8 = affine 0x00#8
    ∧ (∀ b : Byte, b ≠ 0x00#8 → ∃ x : Byte, gmul b x = 0x01#8 ∧ sbox b = affine x)
    ∧ ∀ b : Byte, invSbox (sbox b) = b

/-- R141, R142, R153: with either provider, with and without PCACHE, BlockEncrypt is `AES256_Enc` and BlockDecrypt is
`AES256_Dec`: the padding check never fails and exactly the one appended block is stripped. -/
def Obligations.PaddedProviderEqualsRaw : Prop :=
  ∀ (c : Config) (pc : PCache) (k : Key) (x : CipherBlock), pc.Sound c →
    blockEncrypt c k x = aes256Enc k x
    ∧ (∃ pc', blockDecrypt c pc k x = some (aes256Dec k x, pc') ∧ pc'.Sound c)
    ∧ providerEcbDecrypt k x [aes256Enc k padBlock] = some (bytesOf 16 (aes256Dec k x).toNat)

/-- R153: two machines that differ only in PROVIDER, PAD_CACHE and a sound PCACHE step alike: the same port response, and the
same state but for those three, so that every bus read agrees. -/
def Obligations.ProviderIsUnobservable : Prop :=
  ∀ (s : State) (p : Provider) (q : PadCache) (pc : PCache),
    let other (t : State) (pc : PCache) : State := { t with cfg := { t.cfg with provider := p, padCache := q }, pcache := pc }
    s.cfg.wf = true → (other s pc).cfg.wf = true → s.pcache.Sound s.cfg → pc.Sound (other s pc).cfg →
    ∃ t pc', step s = .next t ∧ step (other s pc) = .next (other t pc')
      ∧ t.pcache.Sound t.cfg ∧ pc'.Sound (other t pc').cfg ∧ ∀ off, busRead (other t pc') off = busRead t off

/-- R154: the AES operations of one adapter call. -/
def Obligations.AdapterWorkCounts : Prop :=
  ∀ (c : Config) (pc : PCache) (k : Key),
    (c.provider = .raw → blockEncryptOps c = ⟨1, 0⟩ ∧ blockDecryptOps c pc k = ⟨0, 1⟩)
    ∧ (c.provider = .padded → blockEncryptOps c = ⟨2, 0⟩
      ∧ (c.padCache = .off → blockDecryptOps c pc k = ⟨2, 2⟩)
      ∧ (pc.hit c k = true → blockDecryptOps c pc k = ⟨0, 2⟩))

/-! ### Errors and flags -/

/-- R102: which error the DECODE step reports, and that an integrity failure comes from UNWRAP_CHECK only. -/
def Obligations.ErrorPriority : Prop :=
  ∀ (s t : State) (es : List Event), Inv s → s.engineNext es → step s = .next t →
    (s.phase = .decode → t.errcode =
      if legal s.cfg s.cmdLatch = false then .illegalCommand
      else if s.cmdLatch = 0x00000001#32 ∧ wrapLenOK s.cfg s.len = false then .invalidKeyLength
      else if s.cmdLatch = 0x00000002#32 ∧ unwrapLenOK s.cfg s.len = false then .invalidWrappedKeyLength
      else if s.cmdLatch ≠ 0x00000005#32 ∧ s.keklen ≠ 32#32 then .invalidKekLength
      else .noError)
    ∧ (s.errcode ≠ .integrityCheckFailed → t.errcode = .integrityCheckFailed → s.phase = .unwrapCheck)

/-- R107: a command that completes with an error leaves all of BUF zero and KEK, KEKLEN, LEN, BUSYERR and PCACHE as they
were. -/
def Obligations.FailedCommandLeavesNothing : Prop :=
  ∀ s t : State, Inv s → step s = .next t → s.busy = true → t.busy = false → t.errcode ≠ .noError →
    (∀ a, t.buf.read a = 0x00#8) ∧ t.done = true
      ∧ t = { s with buf := t.buf, errcode := t.errcode, done := true, phase := .idle, schedule := t.schedule }

/-- R27: the only ways BUSY, DONE, ERRCODE and BUSYERR change. -/
def Obligations.FlagsChangeOnlyAsStated : Prop :=
  ∀ s t : State, Inv s → step s = .next t →
    let accepted : Prop := ∃ v, s.acceptNext v
    let completed : Prop := s.busy = true ∧ t.busy = false ∧ t.done = true ∧ ∃ es, s.engineNext es
    let reset : Prop := ∃ es, s.resetNext es
    (s.busy = false → t.busy = true → accepted)
    ∧ (s.busy = true → t.busy = false → completed ∨ reset)
    ∧ (s.done = true → t.done = false → accepted ∨ reset)
    ∧ (s.done = false → t.done = true → completed)
    ∧ (t.errcode ≠ s.errcode → accepted ∨ completed ∨ reset)
    ∧ (s.busyErr = true → t.busyErr = false → accepted ∨ reset)
    ∧ (s.busyErr = false → t.busyErr = true → s.busy = true ∧ ∃ (off : BitVec 9) (v : Word) (es : List Event),
        s.hostNext ⟨off, .w32, .write v⟩ es ∧ (regAt s.cfg off.toNat).writable = true)

/-- R20, R28, R64: who can change the configuration, CMDLATCH, KEK, LEN, KEKLEN and BUF. -/
def Obligations.OperandsChangeOnlyByTheirWriters : Prop :=
  ∀ s t : State, step s = .next t →
    let idleWrite (lo hi : Nat) : Prop := s.phase = .idle ∧ ∃ (off : BitVec 9) (v : Word) (es : List Event),
      s.hostNext ⟨off, .w32, .write v⟩ es ∧ lo ≤ off.toNat ∧ off.toNat ≤ hi
    let zeroize : Prop := s.phase = .decode ∧ s.cmdLatch = 0x00000005#32 ∧ ∃ es, s.engineNext es
    let reset : Prop := ∃ es, s.resetNext es
    t.cfg = s.cfg
    ∧ (t.cmdLatch ≠ s.cmdLatch → (∃ v, s.acceptNext v ∧ t.cmdLatch = v) ∨ reset)
    ∧ (t.kek ≠ s.kek → idleWrite 0x020 0x03C ∨ zeroize ∨ reset)
    ∧ (t.len ≠ s.len → idleWrite 0x008 0x008 ∨ zeroize ∨ reset)
    ∧ (t.keklen ≠ s.keklen → idleWrite 0x00C 0x00C ∨ zeroize ∨ reset)
    ∧ (t.buf ≠ s.buf → idleWrite 0x040 0x13C ∨ (s.phase ≠ .idle ∧ ∃ es, s.engineNext es) ∨ reset)

/-- R61 (b): once a command has been accepted, and until reset, STATUS shows either BUSY = 1 with DONE = 0, or BUSY = 0 with
DONE = 1: the property holds after acceptance and every other step but reset keeps it. -/
def Obligations.StatusShowsBusyOrDone : Prop :=
  ∀ s t : State, Inv s → step s = .next t → (¬ ∃ es, s.resetNext es) →
    (∃ v, s.acceptNext v) ∨ s.busy = true ∨ s.done = true →
    (t.statusWord.getLsbD 0 = true ∧ t.statusWord.getLsbD 1 = false)
      ∨ (t.statusWord.getLsbD 0 = false ∧ t.statusWord.getLsbD 1 = true)

/-! ### Invariants -/

/-- The invariant holds of the reset state of every well-formed configuration (R32, R36). -/
def Obligations.InvariantHoldsAtReset : Prop := ∀ c : Config, c.wf = true → Inv (State.resetOf c)

/-- Every step keeps the invariant: the sequencer's R32, R33 of PCACHE, the canonical form and the size of BUF and KEK, and
the operands a running command was checked on (R64). -/
def Obligations.InvariantKeptByEveryStep : Prop := ∀ s t : State, Inv s → step s = .next t → Inv t

/-- Every step of a state that meets the invariant answers a next state: KW256 never traps, hangs or stops (R80 (a), R200). -/
def Obligations.EveryStepAnswersNext : Prop := ∀ s : State, Inv s → ∃ t, step s = .next t

/-! ### Whole commands -/

/-- R122 to R124, R109: a WRAP, with no host access in between, takes 1 + 6·n engine steps, is busy until the last, and
leaves the key wrap of R[0..n-1] under KEK in blocks 0 to n of BUF; bytes 8n+8 and up, KEK, LEN, KEKLEN and PCACHE stay. -/
def Obligations.WrapRunComputesKeyWrap : Prop :=
  ∀ s : State, s.cfg.wf = true → s.schedule = [] → s.phase = .decode → s.cmdLatch = 0x00000001#32 →
    wrapLenOK s.cfg s.len = true → s.keklen = 32#32 →
    let n := s.len.toNat / 8
    (∀ k, k < 1 + 6 * n → ∃ u, runSteps k s = .next u ∧ u.busy = true)
    ∧ ∃ t, runSteps (1 + 6 * n) s = .next t
      ∧ (t.buf.blk 0, t.regs n) = Rfc3394.wrap (aes256Enc s.kekBytes) (s.regs n)
      ∧ (∀ a, 8 * n + 8 ≤ a → t.buf.read a = s.buf.read a)
      ∧ t = { s with
        buf := t.buf, errcode := .noError, done := true, phase := .idle, n := t.n, j := t.j, i := t.i }

/-- R127 to R131, R109: an UNWRAP, with no host access in between, takes 1 + 6·n + 1 engine steps, whatever the data, is busy
until the last, and succeeds with the unwrapped registers when the accumulator ends as IV, else fails with BUF zero. -/
def Obligations.UnwrapRunComputesKeyUnwrap : Prop :=
  ∀ s : State, s.cfg.wf = true → s.schedule = [] → s.phase = .decode → s.cmdLatch = 0x00000002#32 →
    unwrapLenOK s.cfg s.len = true → s.keklen = 32#32 → s.pcache.Sound s.cfg →
    let n := s.len.toNat / 8 - 1
    let r := Rfc3394.unwrap (aes256Dec s.kekBytes) (s.buf.blk 0) (s.regs n)
    (∀ k, k < 1 + 6 * n + 1 → ∃ u, runSteps k s = .next u ∧ u.busy = true)
    ∧ ∃ t, runSteps (1 + 6 * n + 1) s = .next t
      ∧ (r.1 = 0xA6A6A6A6A6A6A6A6#64 → t.errcode = .noError ∧ t.buf.blk 0 = 0xA6A6A6A6A6A6A6A6#64 ∧ t.regs n = r.2
          ∧ ∀ a, 8 * n + 8 ≤ a → t.buf.read a = s.buf.read a)
      ∧ (r.1 ≠ 0xA6A6A6A6A6A6A6A6#64 → t.errcode = .integrityCheckFailed ∧ ∀ a, t.buf.read a = 0x00#8)
      ∧ t = { s with
        buf := t.buf, errcode := t.errcode, done := true, phase := .idle, n := t.n, j := t.j, i := t.i,
        pcache := t.pcache }

/-- R132: WRAP of a key, LEN raised by 8, then UNWRAP, with no other write in between, succeeds and leaves the key in
`BUF[8 .. 8n+7]`; the wrapped length is legal for UNWRAP. -/
def Obligations.UnwrapUndoesWrap : Prop :=
  ∀ s : State, Inv s → s.phase = .idle → wrapLenOK s.cfg s.len = true → s.keklen = 32#32 →
    let n := s.len.toNat / 8
    s.schedule = [wrCmd .wrap] ++ List.replicate (1 + 6 * n) .engine
      ++ [wr offLEN (s.len + 8#32), wrCmd .unwrap] ++ List.replicate (1 + 6 * n + 1) .engine →
    unwrapLenOK s.cfg (s.len + 8#32) = true
    ∧ ∃ t, runSteps (1 + (1 + 6 * n) + 2 + (1 + 6 * n + 1)) s = .next t
      ∧ t.phase = .idle ∧ t.done = true ∧ t.errcode = .noError
      ∧ ∀ a, 8 ≤ a → a < 8 * n + 8 → t.buf.read a = s.buf.read a

/-- R17, R109: a running command completes, with no host access in between, within 1 + 6·31 + 1 steps. -/
def Obligations.AcceptedCommandCompletes : Prop :=
  ∀ s : State, Inv s → s.schedule = [] → s.busy = true →
    ∃ k t, k ≤ 1 + 6 * 31 + 1 ∧ runSteps k s = .next t ∧ t.phase = .idle ∧ t.done = true

/-- R83: POLL terminates, with a STATUS word that shows BUSY = 0. -/
def Obligations.PollTerminates : Prop :=
  ∀ s : State, Inv s → s.schedule = [] →
    ∃ fuel t w, poll fuel s = some (t, w) ∧ w.getLsbD 0 = false ∧ w = t.statusWord ∧ t.phase = .idle

/-! ### What a host cannot learn -/

/-- R24, R34, R170: no bus read depends on KEK, and while a command runs no bus read depends on BUF, the sequencer or
PCACHE. -/
def Obligations.BusyReadsRevealNothing : Prop :=
  (∀ (s : State) (kek : Memory) (off : Nat), busRead { s with kek := kek } off = busRead s off)
  ∧ ∀ (s : State) (kek buf : Memory) (pc : PCache) (p : Phase) (n j i : Nat) (off : Nat),
      s.busy = true → p ≠ .idle →
      busRead { s with kek := kek, buf := buf, pcache := pc, phase := p, n := n, j := j, i := i } off = busRead s off

/-- R249: the sequencer does not depend on KEK, BUF or PCACHE. Two states that differ only there step to the same phase,
loop indexes, BUSY, DONE and BUSYERR, so no command takes more steps for one key or block than for another. -/
def Obligations.ControlFlowIgnoresSecrets : Prop :=
  ∀ (s : State) (kek buf : Memory) (pc : PCache), s.cfg.wf = true → s.pcache.Sound s.cfg → pc.Sound s.cfg →
    ∃ t u, step s = .next t ∧ step { s with kek := kek, buf := buf, pcache := pc } = .next u
      ∧ u = { t with kek := u.kek, buf := u.buf, pcache := u.pcache, errcode := u.errcode, resp := u.resp }
      ∧ t.pcache.Sound t.cfg ∧ u.pcache.Sound u.cfg

/-- R216: two UNWRAPs of the same length that both fail, whatever their KEKs and blobs, take the same number of steps and
end in host-visible states that no bus read tells apart. (Runs that fail exist: KW-5 and KW-7 to KW-9 of
95_test_vectors.md.) -/
def Obligations.IntegrityFailuresIndistinguishable : Prop :=
  ∀ (s : State) (kek buf : Memory) (pc : PCache), s.cfg.wf = true → s.schedule = [] → s.phase = .decode →
    s.cmdLatch = 0x00000002#32 → unwrapLenOK s.cfg s.len = true → s.keklen = 32#32 →
    s.pcache.Sound s.cfg → pc.Sound s.cfg →
    let s' : State := { s with kek := kek, buf := buf, pcache := pc }
    let steps := 1 + 6 * (s.len.toNat / 8 - 1) + 1
    (∀ k, k < steps → ∃ u u', runSteps k s = .next u ∧ runSteps k s' = .next u' ∧ u.busy = true ∧ u'.busy = true)
    ∧ ∃ t t', runSteps steps s = .next t ∧ runSteps steps s' = .next t' ∧ t.busy = false ∧ t'.busy = false
      ∧ (t.errcode ≠ .noError → t'.errcode ≠ .noError →
          t.errcode = .integrityCheckFailed ∧ t'.errcode = .integrityCheckFailed ∧ t.done = true ∧ t'.done = true
          ∧ (∀ a, t.buf.read a = 0x00#8) ∧ (∀ a, t'.buf.read a = 0x00#8)
          ∧ ∀ off, busRead t off = busRead t' off)

/-! ### The pseudo-operations of the host -/

/-- R83, R71: the 2m writes of LDBUF b, X leave the 8m bytes of X in BUF from block b on and change nothing else. -/
def Obligations.LdBufStoresString : Prop :=
  ∀ (s : State) (b m : Nat) (xs : List Byte) (es : List Event), s.cfg.wf = true → s.phase = .idle →
    xs.length = 8 * m → b + m ≤ s.cfg.nmax + 1 → s.schedule = ldBuf b xs ++ es →
    ∃ t, runSteps (2 * m) s = .next t ∧ t.buf.readBytes (8 * b) (8 * m) = xs
      ∧ (∀ a, a < 8 * b ∨ 8 * b + 8 * m ≤ a → t.buf.read a = s.buf.read a)
      ∧ t = { s with buf := t.buf, schedule := es, resp := t.resp }

/-- R83, R71: RDBUF b, m, while idle, gives the 8m bytes of BUF from block b on, in their order; while a command runs it gives
zeros (R172 (f)). It changes nothing but the port's response. -/
def Obligations.RdBufGivesString : Prop :=
  ∀ (s : State) (b m : Nat), s.cfg.wf = true → b + m ≤ s.cfg.nmax + 1 →
    ∃ t x, readBuf b m s = some (t, x) ∧ t = { s with resp := t.resp }
      ∧ (s.busy = false → x = s.buf.readBytes (8 * b) (8 * m))
      ∧ (s.busy = true → x = List.replicate (8 * m) 0x00#8)

/-- R83: RUN op, from an idle state, ends for every value op with a STATUS word that shows BUSY = 0 and DONE = 1; the word
is latched, and a word that is not legal gives ERRCODE 5. -/
def Obligations.RunEndsWithDone : Prop :=
  ∀ (s : State) (op : Word), Inv s → s.schedule = [] → s.phase = .idle →
    ∃ fuel t w, runCmd fuel op s = some (t, w) ∧ w = t.statusWord ∧ w.getLsbD 0 = false ∧ w.getLsbD 1 = true
      ∧ t.phase = .idle ∧ t.cmdLatch = op ∧ (legal s.cfg op = false → w.extractLsb' 4 4 = 0x5#4)
end

