-- ==== Sys2Proof/Laws/Memory.lean ====
section
/-! SUPPORT. The laws of byte strings and byte arrays: `be` and `bytesOf` are inverse, a read after a write gives the
value written, a write leaves every other byte alone, and every operation keeps the canonical form. -/

namespace Sys2Proof.Machine

/-! ### Byte strings (R12) -/

theorem be_append (xs ys : List Byte) : be (xs ++ ys) = ys.foldl (fun v b => v * 256 + b.toNat) (be xs) := by
  simp [be, List.foldl_append]

@[simp] theorem be_nil : be [] = 0 := rfl

theorem be_concat (xs : List Byte) (b : Byte) : be (xs ++ [b]) = be xs * 256 + b.toNat := by
  simp [be_append]

@[simp] theorem bytesOf_length (k v : Nat) : (bytesOf k v).length = k := by
  induction k generalizing v with
  | zero => rfl
  | succ k ih => simp [bytesOf, ih]

theorem be_lt (xs : List Byte) : be xs < 256 ^ xs.length := by
  induction xs using List.reverseRecOn with
  | nil => simp
  | append_singleton xs b ih =>
    have hb := b.isLt
    simp only [be_concat, List.length_append, List.length_cons, List.length_nil, Nat.zero_add, Nat.pow_succ]
    omega

/-- Writing a byte string's value back gives the byte string (R12). -/
theorem bytesOf_be (xs : List Byte) : bytesOf xs.length (be xs) = xs := by
  induction xs using List.reverseRecOn with
  | nil => rfl
  | append_singleton xs b ih =>
    have hb := b.isLt
    have h1 : (be xs * 256 + b.toNat) / 256 = be xs := by omega
    have h2 : BitVec.ofNat 8 (be xs * 256 + b.toNat) = b := by
      apply BitVec.eq_of_toNat_eq
      simp only [BitVec.toNat_ofNat]
      omega
    simp [bytesOf, be_concat, h1, h2, ih]

theorem bytesOf_be_of_length {xs : List Byte} {k : Nat} (h : xs.length = k) : bytesOf k (be xs) = xs := by
  subst h
  exact bytesOf_be xs

/-- The value of the `k`-byte string of `v` is `v` modulo `256^k` (R12). -/
theorem be_bytesOf (k v : Nat) : be (bytesOf k v) = v % 256 ^ k := by
  induction k generalizing v with
  | zero => simp [bytesOf, Nat.mod_one]
  | succ k ih =>
    simp only [bytesOf, be_concat, ih, BitVec.toNat_ofNat, Nat.pow_succ]
    have h := Nat.mod_mul (x := v) (a := 256) (b := 256 ^ k)
    rw [Nat.mul_comm (256 ^ k) 256, h]
    omega

theorem ofNat_be_bytesOf (k : Nat) (x : BitVec (8 * k)) : BitVec.ofNat (8 * k) (be (bytesOf k x.toNat)) = x := by
  apply BitVec.eq_of_toNat_eq
  have h : (256 : Nat) ^ k = 2 ^ (8 * k) := by rw [Nat.pow_mul]
  have hx := x.isLt
  rw [be_bytesOf, BitVec.toNat_ofNat, h, Nat.mod_mod, Nat.mod_eq_of_lt hx]

theorem bytesOf_ofNat_be {k : Nat} {xs : List Byte} (hk : xs.length = k) :
    bytesOf k (BitVec.ofNat (8 * k) (be xs)).toNat = xs := by
  have h : (256 : Nat) ^ k = 2 ^ (8 * k) := by rw [Nat.pow_mul]
  have hx := be_lt xs
  rw [hk, h] at hx
  rw [BitVec.toNat_ofNat, Nat.mod_eq_of_lt hx, bytesOf_be_of_length hk]

/-! ### One byte -/

@[simp] theorem Memory.read_nil (a : Nat) : Memory.read [] a = 0 := rfl

@[simp] theorem Memory.read_zeros (a : Nat) : Memory.read Memory.zeros a = 0 := rfl

theorem Memory.read_cons (c : Host.Cell) (m : Memory) (a : Nat) :
    Memory.read (c :: m) a = if c.1 = a then c.2 else Memory.read m a := by
  by_cases h : c.1 = a <;> simp [Memory.read, h]

theorem Memory.read_filter_other (m : Memory) {a c : Nat} (h : c ≠ a) :
    Memory.read (m.filter (fun d => d.1 != a)) c = Memory.read m c := by
  induction m with
  | nil => rfl
  | cons d m ih =>
    by_cases hd : d.1 = a
    · have : ¬ d.1 = c := by omega
      simp [hd, Memory.read_cons, ih, Ne.symm h]
    · simp [hd, Memory.read_cons, ih]

theorem Memory.read_filter_same (m : Memory) (a : Nat) :
    Memory.read (m.filter (fun d => d.1 != a)) a = 0 := by
  induction m with
  | nil => rfl
  | cons d m ih =>
    by_cases hd : d.1 = a
    · simp [hd, ih]
    · simp [hd, Memory.read_cons, ih]

theorem Memory.read_insert_other (m : Memory) {a c : Nat} (b : Byte) (h : c ≠ a) :
    Memory.read (Memory.insert a b m) c = Memory.read m c := by
  induction m with
  | nil => simp [Memory.insert, Memory.read_cons, Ne.symm h]
  | cons d m ih =>
    unfold Memory.insert
    split
    · simp [Memory.read_cons, Ne.symm h]
    · simp [Memory.read_cons, ih]

theorem Memory.read_insert_same (m : Memory) (a : Nat) (b : Byte) (h : ∀ d ∈ m, d.1 ≠ a) :
    Memory.read (Memory.insert a b m) a = b := by
  induction m with
  | nil => simp [Memory.insert, Memory.read_cons]
  | cons d m ih =>
    unfold Memory.insert
    split
    · simp [Memory.read_cons]
    · simp [Memory.read_cons, h d (by simp), ih (fun e he => h e (by simp [he]))]

/-- A read after a write to the same byte gives the value written. -/
@[simp] theorem Memory.read_write_same (m : Memory) (a : Nat) (b : Byte) : (m.write a b).read a = b := by
  unfold Memory.write
  by_cases h : b = Memory.unlisted
  · simp [h, Memory.read_filter_same, Memory.unlisted]
  · simp only [h, if_false]
    exact Memory.read_insert_same _ a b (fun d hd => by simpa using (List.mem_filter.mp hd).2)

/-- A write leaves every other byte alone. -/
theorem Memory.read_write_other (m : Memory) {a c : Nat} (b : Byte) (h : c ≠ a) :
    (m.write a b).read c = m.read c := by
  unfold Memory.write
  by_cases hb : b = Memory.unlisted
  · simp [hb, Memory.read_filter_other m h]
  · simp [hb, Memory.read_insert_other _ b h, Memory.read_filter_other m h]

/-! ### Byte strings in an array -/

@[simp] theorem Memory.readBytes_length (m : Memory) (a k : Nat) : (m.readBytes a k).length = k := by
  induction k generalizing a with
  | zero => rfl
  | succ k ih => simp [Memory.readBytes, ih]

/-- Writing a byte string leaves every byte outside it alone. -/
theorem Memory.read_writeBytes_other (bs : List Byte) :
    ∀ (m : Memory) (a c : Nat), c < a ∨ a + bs.length ≤ c → (m.writeBytes a bs).read c = m.read c := by
  induction bs with
  | nil => intros; rfl
  | cons b bs ih =>
    intro m a c h
    simp only [List.length_cons] at h
    have hca : c ≠ a := by omega
    have h' : c < a + 1 ∨ a + 1 + bs.length ≤ c := by omega
    simp only [Memory.writeBytes, ih (m.write a b) (a + 1) c h', Memory.read_write_other m b hca]

theorem Memory.readBytes_congr {m m' : Memory} (k : Nat) :
    ∀ a, (∀ c, a ≤ c → c < a + k → m.read c = m'.read c) → m.readBytes a k = m'.readBytes a k := by
  induction k with
  | zero => intros; rfl
  | succ k ih =>
    intro a h
    simp only [Memory.readBytes]
    rw [h a (by omega) (by omega), ih (a + 1) (fun c h1 h2 => h c (by omega) (by omega))]

theorem Memory.read_eq_of_readBytes {m m' : Memory} (k : Nat) :
    ∀ a, m.readBytes a k = m'.readBytes a k → ∀ c, a ≤ c → c < a + k → m.read c = m'.read c := by
  induction k with
  | zero => intros; omega
  | succ k ih =>
    intro a h c h1 h2
    simp only [Memory.readBytes, List.cons.injEq] at h
    by_cases hc : c = a
    · rw [hc, h.1]
    · exact ih (a + 1) h.2 c (by omega) (by omega)

/-- Reading back a byte string just written. -/
theorem Memory.readBytes_writeBytes_same (bs : List Byte) :
    ∀ (m : Memory) (a : Nat), (m.writeBytes a bs).readBytes a bs.length = bs := by
  induction bs with
  | nil => intros; rfl
  | cons b bs ih =>
    intro m a
    simp only [Memory.writeBytes, List.length_cons, Memory.readBytes]
    rw [ih, Memory.read_writeBytes_other bs _ _ _ (Or.inl (by omega)), Memory.read_write_same]

theorem Memory.readBytes_writeBytes_other (m : Memory) (a k c : Nat) (bs : List Byte)
    (h : c + k ≤ a ∨ a + bs.length ≤ c) : (m.writeBytes a bs).readBytes c k = m.readBytes c k :=
  Memory.readBytes_congr k c (fun d h1 h2 => Memory.read_writeBytes_other bs m a d (by omega))

/-! ### Blocks, cipher blocks and words -/

@[simp] theorem Memory.blk_setBlk_same (m : Memory) (b : Nat) (v : Semiblock) : (m.setBlk b v).blk b = v := by
  have h := Memory.readBytes_writeBytes_same (bytesOf 8 v.toNat) m (8 * b)
  simp only [bytesOf_length] at h
  simp only [Memory.blk, Memory.setBlk, h]
  exact ofNat_be_bytesOf 8 v

theorem Memory.blk_setBlk_other (m : Memory) {b b' : Nat} (v : Semiblock) (h : b' ≠ b) :
    (m.setBlk b v).blk b' = m.blk b' := by
  simp only [Memory.blk, Memory.setBlk]
  rw [Memory.readBytes_writeBytes_other _ _ _ _ _ (by simp only [bytesOf_length]; omega)]

theorem Memory.read_setBlk_other (m : Memory) {b a : Nat} (v : Semiblock) (h : a / 8 ≠ b) :
    (m.setBlk b v).read a = m.read a :=
  Memory.read_writeBytes_other _ _ _ _ (by simp only [bytesOf_length]; omega)

theorem Memory.read_eq_of_blk {m m' : Memory} {b : Nat} (h : m.blk b = m'.blk b) {a : Nat} (ha : a / 8 = b) :
    m.read a = m'.read a := by
  have key := congrArg (fun x : Semiblock => bytesOf 8 x.toNat) h
  have e1 := bytesOf_ofNat_be (k := 8) (Memory.readBytes_length m (8 * b) 8)
  have e2 := bytesOf_ofNat_be (k := 8) (Memory.readBytes_length m' (8 * b) 8)
  have h8 : m.readBytes (8 * b) 8 = m'.readBytes (8 * b) 8 := e1.symm.trans (key.trans e2)
  exact Memory.read_eq_of_readBytes 8 (8 * b) h8 a (by omega) (by omega)

theorem Memory.blk_congr {m m' : Memory} {b : Nat} (h : ∀ a, a / 8 = b → m.read a = m'.read a) :
    m.blk b = m'.blk b := by
  simp only [Memory.blk]
  rw [Memory.readBytes_congr 8 (8 * b) (fun c h1 h2 => h c (by omega))]

@[simp] theorem Memory.cipherBlock_setCipherBlock (m : Memory) (x : CipherBlock) :
    (m.setCipherBlock x).cipherBlock = x := by
  have h := Memory.readBytes_writeBytes_same (bytesOf 16 x.toNat) m 0
  simp only [bytesOf_length] at h
  simp only [Memory.cipherBlock, Memory.setCipherBlock, h]
  exact ofNat_be_bytesOf 16 x

theorem Memory.read_setCipherBlock_other (m : Memory) (x : CipherBlock) {a : Nat} (h : 16 ≤ a) :
    (m.setCipherBlock x).read a = m.read a :=
  Memory.read_writeBytes_other _ _ _ _ (by simp only [bytesOf_length]; omega)

@[simp] theorem Memory.word_setWord_same (m : Memory) (k : Nat) (v : Word) : (m.setWord k v).word k = v := by
  have h := Memory.readBytes_writeBytes_same (bytesOf 4 v.toNat) m (4 * k)
  simp only [bytesOf_length] at h
  simp only [Memory.word, Memory.setWord, h]
  exact ofNat_be_bytesOf 4 v

theorem Memory.read_setWord_other (m : Memory) {k a : Nat} (v : Word) (h : a / 4 ≠ k) :
    (m.setWord k v).read a = m.read a :=
  Memory.read_writeBytes_other _ _ _ _ (by simp only [bytesOf_length]; omega)

/-! ### The canonical form -/

/-- The canonical form said of every pair of cells: keys strictly rise and no cell is as unlisted. -/
theorem Memory.wf_iff (m : Memory) :
    m.wf = true ↔ m.Pairwise (fun c d => c.1 < d.1) ∧ ∀ c ∈ m, c.2 ≠ Memory.unlisted := by
  induction m with
  | nil => simp [Memory.wf]
  | cons c m ih =>
    cases m with
    | nil => simp [Memory.wf]
    | cons d m =>
      simp only [Memory.wf, Bool.and_eq_true, ih, bne_iff_ne, decide_eq_true_eq, List.pairwise_cons,
        List.mem_cons, forall_eq_or_imp]
      constructor
      · rintro ⟨⟨h1, h2⟩, ⟨h3, h4⟩, h5, h6⟩
        exact ⟨⟨⟨h2, fun e he => lt_trans h2 (h3 e he)⟩, h3, h4⟩, h1, h5, h6⟩
      · rintro ⟨⟨⟨h2, -⟩, h3, h4⟩, h1, h5, h6⟩
        exact ⟨⟨h1, h2⟩, ⟨h3, h4⟩, h5, h6⟩

theorem Memory.mem_insert {a : Nat} {b : Byte} {m : Memory} {c : Host.Cell} :
    c ∈ Memory.insert a b m ↔ c = (a, b) ∨ c ∈ m := by
  induction m with
  | nil => simp [Memory.insert]
  | cons d m ih =>
    unfold Memory.insert
    split
    · simp
    · simp only [List.mem_cons, ih]
      tauto

theorem Memory.insert_pairwise {a : Nat} {b : Byte} {m : Memory} (h : m.Pairwise (fun c d => c.1 < d.1))
    (hne : ∀ c ∈ m, c.1 ≠ a) : (Memory.insert a b m).Pairwise (fun c d => c.1 < d.1) := by
  induction m with
  | nil => simp [Memory.insert]
  | cons d m ih =>
    rw [List.pairwise_cons] at h
    have hda := hne d (by simp)
    unfold Memory.insert
    split
    · rename_i hlt
      refine List.pairwise_cons.mpr ⟨fun e he => ?_, List.pairwise_cons.mpr h⟩
      rcases List.mem_cons.mp he with rfl | he
      · exact hlt
      · exact lt_trans hlt (h.1 e he)
    · rename_i hlt
      refine List.pairwise_cons.mpr ⟨fun e he => ?_, ih h.2 (fun c hc => hne c (by simp [hc]))⟩
      rcases Memory.mem_insert.mp he with rfl | he
      · simp only
        omega
      · exact h.1 e he

/-- A write keeps the canonical form. -/
theorem Memory.wf_write {m : Memory} (h : m.wf = true) (a : Nat) (b : Byte) : (m.write a b).wf = true := by
  rw [Memory.wf_iff] at h
  have hf : (m.filter (fun c => c.1 != a)).Pairwise (fun c d => c.1 < d.1) := h.1.filter _
  have hn : ∀ c ∈ m.filter (fun c => c.1 != a), c.1 ≠ a := fun c hc => by simpa using (List.mem_filter.mp hc).2
  rw [Memory.wf_iff]
  unfold Memory.write
  by_cases hb : b = Memory.unlisted
  · simp only [hb, if_true]
    exact ⟨hf, fun c hc => h.2 c (List.mem_filter.mp hc).1⟩
  · simp only [hb, if_false]
    refine ⟨Memory.insert_pairwise hf hn, fun c hc => ?_⟩
    rcases Memory.mem_insert.mp hc with rfl | hc
    · exact hb
    · exact h.2 c (List.mem_filter.mp hc).1

theorem Memory.wf_writeBytes (bs : List Byte) :
    ∀ {m : Memory} (a : Nat), m.wf = true → (m.writeBytes a bs).wf = true := by
  induction bs with
  | nil => intro m a h; exact h
  | cons b bs ih => intro m a h; exact ih (a + 1) (Memory.wf_write h a b)

theorem Memory.below_write {m : Memory} {bound a : Nat} (h : m.below bound = true) (ha : a < bound) (b : Byte) :
    (m.write a b).below bound = true := by
  simp only [Memory.below, List.all_eq_true, decide_eq_true_eq] at h ⊢
  intro c hc
  unfold Memory.write at hc
  by_cases hb : b = Memory.unlisted
  · simp only [hb, if_true] at hc
    exact h c (List.mem_filter.mp hc).1
  · simp only [hb, if_false] at hc
    rcases Memory.mem_insert.mp hc with rfl | hc
    · exact ha
    · exact h c (List.mem_filter.mp hc).1

theorem Memory.below_writeBytes (bs : List Byte) {bound : Nat} :
    ∀ {m : Memory} (a : Nat), m.below bound = true → a + bs.length ≤ bound →
      (m.writeBytes a bs).below bound = true := by
  induction bs with
  | nil => intro m a h _; exact h
  | cons b bs ih =>
    intro m a h hle
    simp only [List.length_cons] at hle
    exact ih (a + 1) (Memory.below_write h (by omega) b) (by omega)

theorem Memory.wf_setBlk {m : Memory} (h : m.wf = true) (b : Nat) (v : Semiblock) : (m.setBlk b v).wf = true :=
  Memory.wf_writeBytes _ _ h

theorem Memory.wf_setCipherBlock {m : Memory} (h : m.wf = true) (x : CipherBlock) :
    (m.setCipherBlock x).wf = true := Memory.wf_writeBytes _ _ h

theorem Memory.wf_setWord {m : Memory} (h : m.wf = true) (k : Nat) (v : Word) : (m.setWord k v).wf = true :=
  Memory.wf_writeBytes _ _ h

theorem Memory.below_setBlk {m : Memory} {bound b : Nat} (h : m.below bound = true) (hb : 8 * b + 8 ≤ bound)
    (v : Semiblock) : (m.setBlk b v).below bound = true :=
  Memory.below_writeBytes _ _ h (by simpa using hb)

theorem Memory.below_setCipherBlock {m : Memory} {bound : Nat} (h : m.below bound = true) (hb : 16 ≤ bound)
    (x : CipherBlock) : (m.setCipherBlock x).below bound = true :=
  Memory.below_writeBytes _ _ h (by simpa using hb)

theorem Memory.below_setWord {m : Memory} {bound k : Nat} (h : m.below bound = true) (hk : 4 * k + 4 ≤ bound)
    (v : Word) : (m.setWord k v).below bound = true :=
  Memory.below_writeBytes _ _ h (by simpa using hk)

/-! ### Halves of a cipher block (R12, R51) -/

@[simp] theorem msb64_joinBlocks (a r : Semiblock) : msb64 (joinBlocks a r) = a :=
  BitVec.extractLsb'_append_eq_left

@[simp] theorem lsb64_joinBlocks (a r : Semiblock) : lsb64 (joinBlocks a r) = r :=
  BitVec.extractLsb'_append_eq_right

@[simp] theorem joinBlocks_halves (x : CipherBlock) : joinBlocks (msb64 x) (lsb64 x) = x := by
  have h := BitVec.extractLsb'_append_extractLsb'_eq_extractLsb' (w := 128) (x := x) (start₁ := 0) (len₁ := 64)
    (start₂ := 64) (len₂ := 64) rfl
  exact h.trans (BitVec.extractLsb'_eq_self (x := x))

/-- The counter is XORed twice to nothing (R121). -/
@[simp] theorem xorCounter_xorCounter (a : Semiblock) (t : Nat) : xorCounter (xorCounter a t) t = a := by
  simp [xorCounter]

end Sys2Proof.Machine
end

