-- ==== Sys2Proof/Laws/Adapter.lean ====
section
/-! SUPPORT. What the adapter's functions are under each provider: BlockEncrypt is always `AES256_Enc` (R141), stripping a
string that ends in one whole padding block (R151), and PCACHE after a BlockDecrypt (R152). -/

namespace Sys2Proof.Machine

open Sys2Proof.Machine.Aes

/-- R141: BlockEncrypt is `AES256_Enc` with either provider, since PADDED keeps the first block. -/
@[simp] theorem blockEncrypt_eq (c : Config) (k : Key) (x : CipherBlock) : blockEncrypt c k x = aes256Enc k x := by
  unfold blockEncrypt
  cases c.provider <;> rfl

theorem blockDecrypt_raw {c : Config} (h : c.provider = .raw) (pc : PCache) (k : Key) (y : CipherBlock) :
    blockDecrypt c pc k y = some (aes256Dec k y, pc) := by
  unfold blockDecrypt
  simp [h]

/-- R151, R153: a string that ends in PAD_BLOCK loses exactly that block. -/
theorem stripPadding_padBlock (ps : List Byte) :
    stripPadding (ps ++ bytesOf 16 padBlock.toNat) = some ps := by
  have hb : bytesOf 16 padBlock.toNat = List.replicate 16 0x10#8 := by decide +kernel
  have hr : List.replicate 16 (0x10#8 : Byte) = List.replicate 15 0x10#8 ++ [0x10#8] := by decide +kernel
  have hl : (ps ++ List.replicate 16 (0x10#8 : Byte)).getLastD 0 = 0x10#8 := by
    rw [hr, ← List.append_assoc, List.getLastD_concat]
  unfold stripPadding
  simp only [hb, hl]
  have hn : (ps ++ List.replicate 16 (0x10#8 : Byte)).length - (0x10#8 : Byte).toNat = ps.length := by simp
  rw [hn]
  simp

/-- PCACHE after a BlockDecrypt is what `update` makes of it, or is unchanged (R152). -/
theorem blockDecrypt_pcache {c : Config} {pc pc' : PCache} {k : Key} {y x : CipherBlock}
    (h : blockDecrypt c pc k y = some (x, pc')) : pc' = pc ∨ (c.provider = .padded ∧ pc' = pc.update c k) := by
  unfold blockDecrypt at h
  split at h
  · simp only [Option.some.injEq, Prod.mk.injEq] at h
    exact Or.inl h.2.symm
  · rename_i hp
    split at h
    · cases h
    · split at h
      · simp only [Option.some.injEq, Prod.mk.injEq] at h
        exact Or.inr ⟨hp, h.2.symm⟩
      · cases h

/-- Without a cache, a BlockDecrypt leaves PCACHE alone (R33). -/
theorem PCache.update_of_off {c : Config} (h : c.padCache = .off) (pc : PCache) (k : Key) : pc.update c k = pc := by
  simp [PCache.update, PCache.hit, h]

end Sys2Proof.Machine
end

