-- ==== Sys2Proof/Laws/Aes.lean ====
section
/-! SUPPORT. The laws of the cipher's transformations: the inverse S-box table inverts the S-box table (R186),
and each inverse transformation undoes its transformation (R187 to R189, R191). -/

namespace Sys2Proof.Machine.Aes

/-! ### The S-box tables -/

/-- R186. -/
theorem invSbox_sbox : ∀ b : Byte, invSbox (sbox b) = b := by decide +kernel

theorem sbox_invSbox : ∀ b : Byte, sbox (invSbox b) = b := by decide +kernel

/-! ### Field arithmetic -/

theorem select_xor (p q : Bool) (x : Byte) :
    (if (p ^^ q) = true then x else 0) = (if p = true then x else 0) ^^^ (if q = true then x else 0) := by
  cases p <;> cases q <;> simp

theorem gmulBits_xor (k : Nat) (a b c : Byte) : gmulBits k a (b ^^^ c) = gmulBits k a b ^^^ gmulBits k a c := by
  induction k with
  | zero => simp [gmulBits]
  | succ k ih =>
    simp only [gmulBits, ih, BitVec.getLsbD_xor, select_xor]
    ac_rfl

/-- Multiplication distributes over addition (R180). -/
theorem gmul_xor (a b c : Byte) : gmul a (b ^^^ c) = gmul a b ^^^ gmul a c := gmulBits_xor 8 a b c

/-! ### MixColumns and its inverse (R188) -/

/-- The column with a byte in one row and zeros elsewhere. -/
def inRow : Nat → Byte → Column
  | 0, b => ⟨b, 0, 0, 0⟩
  | 1, b => ⟨0, b, 0, 0⟩
  | 2, b => ⟨0, 0, b, 0⟩
  | _, b => ⟨0, 0, 0, b⟩

/-- A column is the sum of its four bytes, each alone in its row. -/
theorem Column.eq_sum (s : Column) :
    s = (((inRow 0 s.r0).xor (inRow 1 s.r1)).xor (inRow 2 s.r2)).xor (inRow 3 s.r3) := by
  simp [Column.xor, inRow]

theorem mixColumn_xor (x y : Column) : mixColumn (x.xor y) = (mixColumn x).xor (mixColumn y) := by
  simp only [mixColumn, Column.xor, gmul_xor, Column.mk.injEq]
  refine ⟨?_, ?_, ?_, ?_⟩ <;> ac_rfl

theorem invMixColumn_xor (x y : Column) : invMixColumn (x.xor y) = (invMixColumn x).xor (invMixColumn y) := by
  simp only [invMixColumn, Column.xor, gmul_xor, Column.mk.injEq]
  refine ⟨?_, ?_, ?_, ?_⟩ <;> ac_rfl

/-- A byte is the sum of its bits, each alone in its place. -/
theorem byte_eq_sum : ∀ b : Byte, b =
    (if b.getLsbD 0 then 0x01 else 0) ^^^ (if b.getLsbD 1 then 0x02 else 0) ^^^ (if b.getLsbD 2 then 0x04 else 0)
    ^^^ (if b.getLsbD 3 then 0x08 else 0) ^^^ (if b.getLsbD 4 then 0x10 else 0) ^^^ (if b.getLsbD 5 then 0x20 else 0)
    ^^^ (if b.getLsbD 6 then 0x40 else 0) ^^^ (if b.getLsbD 7 then 0x80 else 0) := by decide +kernel

/-- Two additive maps of bytes that agree on zero and on the eight single bits are equal. -/
theorem additive_ext {f g : Byte → Column} (hf : ∀ x y, f (x ^^^ y) = (f x).xor (f y))
    (hg : ∀ x y, g (x ^^^ y) = (g x).xor (g y))
    (h : ∀ x ∈ ([0x00, 0x01, 0x02, 0x04, 0x08, 0x10, 0x20, 0x40, 0x80] : List Byte), f x = g x) (b : Byte) :
    f b = g b := by
  have sel : ∀ (p : Bool) (x : Byte), f 0 = g 0 → f x = g x →
      f (if p = true then x else 0) = g (if p = true then x else 0) := by
    intro p x h0 hx
    cases p
    · simpa using h0
    · simpa using hx
  rw [byte_eq_sum b]
  simp only [hf, hg]
  simp only [List.mem_cons, List.not_mem_nil, or_false, forall_eq_or_imp, forall_eq] at h
  obtain ⟨h0, h1, h2, h3, h4, h5, h6, h7, h8⟩ := h
  rw [sel _ _ h0 h1, sel _ _ h0 h2, sel _ _ h0 h3, sel _ _ h0 h4, sel _ _ h0 h5, sel _ _ h0 h6, sel _ _ h0 h7,
    sel _ _ h0 h8]

theorem inRow_xor (k : Nat) (x y : Byte) : inRow k (x ^^^ y) = (inRow k x).xor (inRow k y) := by
  unfold inRow
  split <;> simp [Column.xor]

theorem invMixColumn_mixColumn_inRow (k : Nat) (hk : k < 4) (b : Byte) :
    invMixColumn (mixColumn (inRow k b)) = inRow k b := by
  refine additive_ext (f := fun b => invMixColumn (mixColumn (inRow k b))) (g := inRow k) (fun x y => ?_)
    (inRow_xor k) ?_ b
  · simp only [inRow_xor, mixColumn_xor, invMixColumn_xor]
  · revert k
    decide +kernel

theorem mixColumn_invMixColumn_inRow (k : Nat) (hk : k < 4) (b : Byte) :
    mixColumn (invMixColumn (inRow k b)) = inRow k b := by
  refine additive_ext (f := fun b => mixColumn (invMixColumn (inRow k b))) (g := inRow k) (fun x y => ?_)
    (inRow_xor k) ?_ b
  · simp only [inRow_xor, mixColumn_xor, invMixColumn_xor]
  · revert k
    decide +kernel

@[simp] theorem invMixColumn_mixColumn (s : Column) : invMixColumn (mixColumn s) = s := by
  conv_lhs => rw [Column.eq_sum s]
  rw [mixColumn_xor, mixColumn_xor, mixColumn_xor, invMixColumn_xor, invMixColumn_xor, invMixColumn_xor,
    invMixColumn_mixColumn_inRow 0 (by decide), invMixColumn_mixColumn_inRow 1 (by decide),
    invMixColumn_mixColumn_inRow 2 (by decide), invMixColumn_mixColumn_inRow 3 (by decide), ← Column.eq_sum s]

@[simp] theorem mixColumn_invMixColumn (s : Column) : mixColumn (invMixColumn s) = s := by
  conv_lhs => rw [Column.eq_sum s]
  rw [invMixColumn_xor, invMixColumn_xor, invMixColumn_xor, mixColumn_xor, mixColumn_xor, mixColumn_xor,
    mixColumn_invMixColumn_inRow 0 (by decide), mixColumn_invMixColumn_inRow 1 (by decide),
    mixColumn_invMixColumn_inRow 2 (by decide), mixColumn_invMixColumn_inRow 3 (by decide), ← Column.eq_sum s]

/-! ### Each transformation is undone by its inverse (R191) -/

@[simp] theorem invMixColumns_mixColumns (s : Matrix) : invMixColumns (mixColumns s) = s := by
  simp [invMixColumns, mixColumns, Matrix.map]

@[simp] theorem mixColumns_invMixColumns (s : Matrix) : mixColumns (invMixColumns s) = s := by
  simp [invMixColumns, mixColumns, Matrix.map]

@[simp] theorem invSubBytes_subBytes (s : Matrix) : invSubBytes (subBytes s) = s := by
  simp [invSubBytes, subBytes, Matrix.map, Column.map, invSbox_sbox]

@[simp] theorem subBytes_invSubBytes (s : Matrix) : subBytes (invSubBytes s) = s := by
  simp [invSubBytes, subBytes, Matrix.map, Column.map, sbox_invSbox]

@[simp] theorem invShiftRows_shiftRows (s : Matrix) : invShiftRows (shiftRows s) = s := rfl

@[simp] theorem shiftRows_invShiftRows (s : Matrix) : shiftRows (invShiftRows s) = s := rfl

@[simp] theorem addRoundKey_addRoundKey (k s : Matrix) : addRoundKey k (addRoundKey k s) = s := by
  simp [addRoundKey, Column.xor]

/-! ### Loading and storing the state (R181) -/

theorem Matrix.bytes_length (s : Matrix) : s.bytes.length = 16 := rfl

@[simp] theorem Matrix.ofBytes_bytes (s : Matrix) : Matrix.ofBytes s.bytes = s := rfl

theorem Matrix.bytes_ofBytes {xs : List Byte} (h : xs.length = 16) : (Matrix.ofBytes xs).bytes = xs := by
  match xs, h with
  | [_, _, _, _, _, _, _, _, _, _, _, _, _, _, _, _], _ => rfl

@[simp] theorem load_store (s : Matrix) : load (store s) = s := by
  have h := bytesOf_ofNat_be (k := 16) (Matrix.bytes_length s)
  simp only [load, store]
  exact (congrArg Matrix.ofBytes h).trans (Matrix.ofBytes_bytes s)

@[simp] theorem store_load (x : CipherBlock) : store (load x) = x := by
  simp only [load, store, Matrix.bytes_ofBytes (bytesOf_length 16 x.toNat)]
  exact ofNat_be_bytesOf 16 x

end Sys2Proof.Machine.Aes
end

