-- ==== Sys2Proof/Laws/Bus.lean ====
section
/-! SUPPORT. The bytes of a bus word in their lanes (R52), and the register at every aligned offset of the window (R70). -/

namespace Sys2Proof.Machine

/-! ### The lanes of a bus word (R52) -/

theorem extractByte_eq (w : Word) (k : Nat) : w.extractLsb' (8 * k) 8 = BitVec.ofNat 8 (w.toNat / 256 ^ k) := by
  apply BitVec.eq_of_toNat_eq
  have h : (256 : Nat) ^ k = 2 ^ (8 * k) := by rw [Nat.pow_mul]
  simp [BitVec.extractLsb'_toNat, Nat.shiftRight_eq_div_pow, h]

theorem bytesOf_word (v : Word) :
    bytesOf 4 v.toNat = [v.extractLsb' 24 8, v.extractLsb' 16 8, v.extractLsb' 8 8, v.extractLsb' 0 8] := by
  have h3 := extractByte_eq v 3
  have h2 := extractByte_eq v 2
  have h1 := extractByte_eq v 1
  have h0 := extractByte_eq v 0
  simp at h0 h1 h2 h3
  simp [bytesOf, h0, h1, h2, h3, Nat.div_div_eq_div_mul]

/-- The four bytes of a bus word read from a byte array. -/
theorem Memory.word_bytes (m : Memory) (k : Nat) :
    (m.word k).extractLsb' 24 8 = m.read (4 * k) ∧ (m.word k).extractLsb' 16 8 = m.read (4 * k + 1)
      ∧ (m.word k).extractLsb' 8 8 = m.read (4 * k + 2) ∧ (m.word k).extractLsb' 0 8 = m.read (4 * k + 3) := by
  have h : bytesOf 4 (m.word k).toNat = m.readBytes (4 * k) 4 :=
    bytesOf_ofNat_be (k := 4) (Memory.readBytes_length m (4 * k) 4)
  rw [bytesOf_word] at h
  simpa [Memory.readBytes] using h

/-- The four bytes a bus word is stored as. -/
theorem Memory.setWord_bytes (m : Memory) (k : Nat) (v : Word) :
    (m.setWord k v).read (4 * k) = v.extractLsb' 24 8 ∧ (m.setWord k v).read (4 * k + 1) = v.extractLsb' 16 8
      ∧ (m.setWord k v).read (4 * k + 2) = v.extractLsb' 8 8 ∧ (m.setWord k v).read (4 * k + 3) = v.extractLsb' 0 8 := by
  have h := Memory.word_bytes (m.setWord k v) k
  rw [Memory.word_setWord_same] at h
  exact ⟨h.1.symm, h.2.1.symm, h.2.2.1.symm, h.2.2.2.symm⟩

/-! ### The register map (R70) -/

/-- The register at an aligned offset, with the offset it has. -/
theorem regAt_cases (c : Config) (o : Nat) (ho : o % 4 = 0) :
    (o = 0x000 ∧ regAt c o = .cmd) ∨ (o = 0x004 ∧ regAt c o = .status) ∨ (o = 0x008 ∧ regAt c o = .len)
    ∨ (o = 0x00C ∧ regAt c o = .keklen) ∨ (o = 0x010 ∧ regAt c o = .param)
    ∨ (∃ m, o = 0x020 + 4 * m ∧ m < 8 ∧ regAt c o = .kekWord m)
    ∨ (∃ k, o = 0x040 + 4 * k ∧ k < 2 * (c.nmax + 1) ∧ regAt c o = .bufWord k)
    ∨ (o ≠ 0x000 ∧ o ≠ 0x004 ∧ o ≠ 0x008 ∧ o ≠ 0x00C ∧ o ≠ 0x010 ∧ ¬ (0x020 ≤ o ∧ o ≤ 0x03C)
        ∧ ¬ (0x040 ≤ o ∧ o < 0x040 + 8 * (c.nmax + 1)) ∧ regAt c o = .reserved) := by
  unfold regAt
  split_ifs with h0 h1 h2 h3 h4 h5 h6
  · simp [h0]
  · simp [h1]
  · simp [h2]
  · simp [h3]
  · simp [h4]
  · refine Or.inr (Or.inr (Or.inr (Or.inr (Or.inr (Or.inl ⟨_, ?_, ?_, rfl⟩))))) <;> omega
  · refine Or.inr (Or.inr (Or.inr (Or.inr (Or.inr (Or.inr (Or.inl ⟨_, ?_, ?_, rfl⟩)))))) <;> omega
  · refine Or.inr (Or.inr (Or.inr (Or.inr (Or.inr (Or.inr (Or.inr ⟨h0, h1, h2, h3, h4, h5, ?_, rfl⟩))))))
    omega

/-! ### The host step (R54, R55) -/

theorem hostStep_read (s : State) {off : BitVec 9} (h : off.toNat % 4 = 0) :
    hostStep s ⟨off, .w32, .read⟩ = { s with resp := some (.data (busRead s off.toNat)) } := by
  simp [hostStep, Access.admitted, h]

theorem hostStep_write (s : State) {off : BitVec 9} (h : off.toNat % 4 = 0) (v : Word) :
    hostStep s ⟨off, .w32, .write v⟩ = { busWrite s off.toNat v with resp := some .written } := by
  simp [hostStep, Access.admitted, h]

theorem hostStep_error (s : State) {a : Access} (h : a.width ≠ .w32 ∨ a.off.toNat % 4 ≠ 0) :
    hostStep s a = { s with resp := some .busError } := by
  have hn : a.admitted = false := by
    rcases h with h | h <;> simp [Access.admitted, h]
  simp [hostStep, hn]

/-- R100: a CMD write while idle is the acceptance of its word. -/
theorem busWrite_cmd {s : State} (h : s.phase = .idle) (v : Word) : busWrite s 0x000 v = s.acceptCmd v := by
  simp [busWrite, regAt, BusReg.writable, State.busy, h, idleWrite]

/-- R171: a write to a writable register while a command runs is dropped and sets BUSYERR. -/
theorem busWrite_busy {s : State} {off : Nat} (h : s.busy = true) (hw : (regAt s.cfg off).writable = true) (v : Word) :
    busWrite s off v = { s with busyErr := true } := by
  simp [busWrite, h, hw]

end Sys2Proof.Machine
end

