-- ==== Sys2Proof/Laws/State.lean ====
section
/-! SUPPORT. One lemma per field of State and named update: what the field holds after it. -/

namespace Sys2Proof.Machine

/-! ### `Fail(code)` (R107) -/

@[simp] theorem State.fail_cfg (s : State) (c : ErrCode) : (s.fail c).cfg = s.cfg := rfl
@[simp] theorem State.fail_buf (s : State) (c : ErrCode) : (s.fail c).buf = Memory.zeros := rfl
@[simp] theorem State.fail_kek (s : State) (c : ErrCode) : (s.fail c).kek = s.kek := rfl
@[simp] theorem State.fail_len (s : State) (c : ErrCode) : (s.fail c).len = s.len := rfl
@[simp] theorem State.fail_keklen (s : State) (c : ErrCode) : (s.fail c).keklen = s.keklen := rfl
@[simp] theorem State.fail_done (s : State) (c : ErrCode) : (s.fail c).done = true := rfl
@[simp] theorem State.fail_errcode (s : State) (c : ErrCode) : (s.fail c).errcode = c := rfl
@[simp] theorem State.fail_busyErr (s : State) (c : ErrCode) : (s.fail c).busyErr = s.busyErr := rfl
@[simp] theorem State.fail_cmdLatch (s : State) (c : ErrCode) : (s.fail c).cmdLatch = s.cmdLatch := rfl
@[simp] theorem State.fail_phase (s : State) (c : ErrCode) : (s.fail c).phase = .idle := rfl
@[simp] theorem State.fail_n (s : State) (c : ErrCode) : (s.fail c).n = s.n := rfl
@[simp] theorem State.fail_j (s : State) (c : ErrCode) : (s.fail c).j = s.j := rfl
@[simp] theorem State.fail_i (s : State) (c : ErrCode) : (s.fail c).i = s.i := rfl
@[simp] theorem State.fail_pcache (s : State) (c : ErrCode) : (s.fail c).pcache = s.pcache := rfl
@[simp] theorem State.fail_schedule (s : State) (c : ErrCode) : (s.fail c).schedule = s.schedule := rfl
@[simp] theorem State.fail_resp (s : State) (c : ErrCode) : (s.fail c).resp = s.resp := rfl

/-! ### `Succeed()` (R108) -/

@[simp] theorem State.succeed_cfg (s : State) : s.succeed.cfg = s.cfg := rfl
@[simp] theorem State.succeed_buf (s : State) : s.succeed.buf = s.buf := rfl
@[simp] theorem State.succeed_kek (s : State) : s.succeed.kek = s.kek := rfl
@[simp] theorem State.succeed_len (s : State) : s.succeed.len = s.len := rfl
@[simp] theorem State.succeed_keklen (s : State) : s.succeed.keklen = s.keklen := rfl
@[simp] theorem State.succeed_done (s : State) : s.succeed.done = true := rfl
@[simp] theorem State.succeed_errcode (s : State) : s.succeed.errcode = .noError := rfl
@[simp] theorem State.succeed_busyErr (s : State) : s.succeed.busyErr = s.busyErr := rfl
@[simp] theorem State.succeed_cmdLatch (s : State) : s.succeed.cmdLatch = s.cmdLatch := rfl
@[simp] theorem State.succeed_phase (s : State) : s.succeed.phase = .idle := rfl
@[simp] theorem State.succeed_n (s : State) : s.succeed.n = s.n := rfl
@[simp] theorem State.succeed_j (s : State) : s.succeed.j = s.j := rfl
@[simp] theorem State.succeed_i (s : State) : s.succeed.i = s.i := rfl
@[simp] theorem State.succeed_pcache (s : State) : s.succeed.pcache = s.pcache := rfl
@[simp] theorem State.succeed_schedule (s : State) : s.succeed.schedule = s.schedule := rfl
@[simp] theorem State.succeed_resp (s : State) : s.succeed.resp = s.resp := rfl

/-! ### Acceptance (R100) -/

@[simp] theorem State.acceptCmd_cfg (s : State) (v : Word) : (s.acceptCmd v).cfg = s.cfg := rfl
@[simp] theorem State.acceptCmd_buf (s : State) (v : Word) : (s.acceptCmd v).buf = s.buf := rfl
@[simp] theorem State.acceptCmd_kek (s : State) (v : Word) : (s.acceptCmd v).kek = s.kek := rfl
@[simp] theorem State.acceptCmd_len (s : State) (v : Word) : (s.acceptCmd v).len = s.len := rfl
@[simp] theorem State.acceptCmd_keklen (s : State) (v : Word) : (s.acceptCmd v).keklen = s.keklen := rfl
@[simp] theorem State.acceptCmd_done (s : State) (v : Word) : (s.acceptCmd v).done = false := rfl
@[simp] theorem State.acceptCmd_errcode (s : State) (v : Word) : (s.acceptCmd v).errcode = .noError := rfl
@[simp] theorem State.acceptCmd_busyErr (s : State) (v : Word) : (s.acceptCmd v).busyErr = false := rfl
@[simp] theorem State.acceptCmd_cmdLatch (s : State) (v : Word) : (s.acceptCmd v).cmdLatch = v := rfl
@[simp] theorem State.acceptCmd_phase (s : State) (v : Word) : (s.acceptCmd v).phase = .decode := rfl
@[simp] theorem State.acceptCmd_n (s : State) (v : Word) : (s.acceptCmd v).n = s.n := rfl
@[simp] theorem State.acceptCmd_j (s : State) (v : Word) : (s.acceptCmd v).j = s.j := rfl
@[simp] theorem State.acceptCmd_i (s : State) (v : Word) : (s.acceptCmd v).i = s.i := rfl
@[simp] theorem State.acceptCmd_pcache (s : State) (v : Word) : (s.acceptCmd v).pcache = s.pcache := rfl
@[simp] theorem State.acceptCmd_schedule (s : State) (v : Word) : (s.acceptCmd v).schedule = s.schedule := rfl
@[simp] theorem State.acceptCmd_resp (s : State) (v : Word) : (s.acceptCmd v).resp = s.resp := rfl

/-! ### Invalidation of PCACHE (R33) -/

@[simp] theorem State.invalidatePCache_cfg (s : State) : s.invalidatePCache.cfg = s.cfg := rfl
@[simp] theorem State.invalidatePCache_buf (s : State) : s.invalidatePCache.buf = s.buf := rfl
@[simp] theorem State.invalidatePCache_kek (s : State) : s.invalidatePCache.kek = s.kek := rfl
@[simp] theorem State.invalidatePCache_len (s : State) : s.invalidatePCache.len = s.len := rfl
@[simp] theorem State.invalidatePCache_keklen (s : State) : s.invalidatePCache.keklen = s.keklen := rfl
@[simp] theorem State.invalidatePCache_done (s : State) : s.invalidatePCache.done = s.done := rfl
@[simp] theorem State.invalidatePCache_errcode (s : State) : s.invalidatePCache.errcode = s.errcode := rfl
@[simp] theorem State.invalidatePCache_busyErr (s : State) : s.invalidatePCache.busyErr = s.busyErr := rfl
@[simp] theorem State.invalidatePCache_cmdLatch (s : State) : s.invalidatePCache.cmdLatch = s.cmdLatch := rfl
@[simp] theorem State.invalidatePCache_phase (s : State) : s.invalidatePCache.phase = s.phase := rfl
@[simp] theorem State.invalidatePCache_n (s : State) : s.invalidatePCache.n = s.n := rfl
@[simp] theorem State.invalidatePCache_j (s : State) : s.invalidatePCache.j = s.j := rfl
@[simp] theorem State.invalidatePCache_i (s : State) : s.invalidatePCache.i = s.i := rfl
@[simp] theorem State.invalidatePCache_pcache (s : State) : s.invalidatePCache.pcache = { s.pcache with valid := false } := rfl
@[simp] theorem State.invalidatePCache_schedule (s : State) : s.invalidatePCache.schedule = s.schedule := rfl
@[simp] theorem State.invalidatePCache_resp (s : State) : s.invalidatePCache.resp = s.resp := rfl

/-! ### The erasure of ZEROIZE (R160) -/

@[simp] theorem State.eraseKeys_cfg (s : State) : s.eraseKeys.cfg = s.cfg := rfl
@[simp] theorem State.eraseKeys_buf (s : State) : s.eraseKeys.buf = Memory.zeros := rfl
@[simp] theorem State.eraseKeys_kek (s : State) : s.eraseKeys.kek = Memory.zeros := rfl
@[simp] theorem State.eraseKeys_len (s : State) : s.eraseKeys.len = 0 := rfl
@[simp] theorem State.eraseKeys_keklen (s : State) : s.eraseKeys.keklen = 0 := rfl
@[simp] theorem State.eraseKeys_done (s : State) : s.eraseKeys.done = s.done := rfl
@[simp] theorem State.eraseKeys_errcode (s : State) : s.eraseKeys.errcode = s.errcode := rfl
@[simp] theorem State.eraseKeys_busyErr (s : State) : s.eraseKeys.busyErr = s.busyErr := rfl
@[simp] theorem State.eraseKeys_cmdLatch (s : State) : s.eraseKeys.cmdLatch = s.cmdLatch := rfl
@[simp] theorem State.eraseKeys_phase (s : State) : s.eraseKeys.phase = s.phase := rfl
@[simp] theorem State.eraseKeys_n (s : State) : s.eraseKeys.n = s.n := rfl
@[simp] theorem State.eraseKeys_j (s : State) : s.eraseKeys.j = s.j := rfl
@[simp] theorem State.eraseKeys_i (s : State) : s.eraseKeys.i = s.i := rfl
@[simp] theorem State.eraseKeys_pcache (s : State) : s.eraseKeys.pcache = { s.pcache with valid := false } := rfl
@[simp] theorem State.eraseKeys_schedule (s : State) : s.eraseKeys.schedule = s.schedule := rfl
@[simp] theorem State.eraseKeys_resp (s : State) : s.eraseKeys.resp = s.resp := rfl

/-! ### The pending events (R17) -/

@[simp] theorem State.withSchedule_cfg (s : State) (es : List Event) : (s.withSchedule es).cfg = s.cfg := rfl
@[simp] theorem State.withSchedule_buf (s : State) (es : List Event) : (s.withSchedule es).buf = s.buf := rfl
@[simp] theorem State.withSchedule_kek (s : State) (es : List Event) : (s.withSchedule es).kek = s.kek := rfl
@[simp] theorem State.withSchedule_len (s : State) (es : List Event) : (s.withSchedule es).len = s.len := rfl
@[simp] theorem State.withSchedule_keklen (s : State) (es : List Event) : (s.withSchedule es).keklen = s.keklen := rfl
@[simp] theorem State.withSchedule_done (s : State) (es : List Event) : (s.withSchedule es).done = s.done := rfl
@[simp] theorem State.withSchedule_errcode (s : State) (es : List Event) : (s.withSchedule es).errcode = s.errcode := rfl
@[simp] theorem State.withSchedule_busyErr (s : State) (es : List Event) : (s.withSchedule es).busyErr = s.busyErr := rfl
@[simp] theorem State.withSchedule_cmdLatch (s : State) (es : List Event) : (s.withSchedule es).cmdLatch = s.cmdLatch := rfl
@[simp] theorem State.withSchedule_phase (s : State) (es : List Event) : (s.withSchedule es).phase = s.phase := rfl
@[simp] theorem State.withSchedule_n (s : State) (es : List Event) : (s.withSchedule es).n = s.n := rfl
@[simp] theorem State.withSchedule_j (s : State) (es : List Event) : (s.withSchedule es).j = s.j := rfl
@[simp] theorem State.withSchedule_i (s : State) (es : List Event) : (s.withSchedule es).i = s.i := rfl
@[simp] theorem State.withSchedule_pcache (s : State) (es : List Event) : (s.withSchedule es).pcache = s.pcache := rfl
@[simp] theorem State.withSchedule_schedule (s : State) (es : List Event) : (s.withSchedule es).schedule = es := rfl
@[simp] theorem State.withSchedule_resp (s : State) (es : List Event) : (s.withSchedule es).resp = s.resp := rfl

/-! ### The reset step (R240) -/

@[simp] theorem State.resetStep_cfg (s : State) : s.resetStep.cfg = s.cfg := rfl
@[simp] theorem State.resetStep_buf (s : State) : s.resetStep.buf = [] := rfl
@[simp] theorem State.resetStep_kek (s : State) : s.resetStep.kek = [] := rfl
@[simp] theorem State.resetStep_len (s : State) : s.resetStep.len = 0 := rfl
@[simp] theorem State.resetStep_keklen (s : State) : s.resetStep.keklen = 0 := rfl
@[simp] theorem State.resetStep_done (s : State) : s.resetStep.done = false := rfl
@[simp] theorem State.resetStep_errcode (s : State) : s.resetStep.errcode = .noError := rfl
@[simp] theorem State.resetStep_busyErr (s : State) : s.resetStep.busyErr = false := rfl
@[simp] theorem State.resetStep_cmdLatch (s : State) : s.resetStep.cmdLatch = 0 := rfl
@[simp] theorem State.resetStep_phase (s : State) : s.resetStep.phase = .idle := rfl
@[simp] theorem State.resetStep_n (s : State) : s.resetStep.n = 0 := rfl
@[simp] theorem State.resetStep_j (s : State) : s.resetStep.j = 0 := rfl
@[simp] theorem State.resetStep_i (s : State) : s.resetStep.i = 0 := rfl
@[simp] theorem State.resetStep_pcache (s : State) : s.resetStep.pcache = ⟨false, 0, 0⟩ := rfl
@[simp] theorem State.resetStep_schedule (s : State) : s.resetStep.schedule = s.schedule := rfl
@[simp] theorem State.resetStep_resp (s : State) : s.resetStep.resp = none := rfl

end Sys2Proof.Machine
end

