-- ==== Sys2Proof/Laws/Step.lean ====
section
/-! SUPPORT. What a step can do, said once: the step that each next event makes, the inversion of a step, of a host step, of
an engine step and of each command, and the unfolding of runs. -/

namespace Sys2Proof.Machine

/-! ### The step of each event (R9, R17) -/

theorem step_refused {s : State} (h : s.cfg.wf = false) : step s = .refused .illFormedConfig := by
  simp [step, machineStep, h]

theorem step_of_hostNext {s : State} {a : Access} {es : List Event} (hw : s.cfg.wf = true) (h : s.hostNext a es) :
    step s = .next (hostStep (s.withSchedule es) a) := by
  have h' : s.schedule = .host a :: es := h
  simp [step, machineStep, hw, nextEvent, h', eventStep]

theorem step_of_engineNext {s : State} {es : List Event} (hw : s.cfg.wf = true) (h : s.engineNext es) :
    step s = engineStep (s.withSchedule es) := by
  have h' : nextEvent s = (.engine, es) := h
  simp [step, machineStep, hw, h', eventStep]

theorem step_of_resetNext {s : State} {es : List Event} (hw : s.cfg.wf = true) (h : s.resetNext es) :
    step s = .next (s.withSchedule es).resetStep := by
  have h' : s.schedule = .reset :: es := h
  simp [step, machineStep, hw, nextEvent, h', eventStep]

/-- With no event pending the engine steps (R17). -/
theorem engineNext_of_nil {s : State} (h : s.schedule = []) : s.engineNext [] := by
  simp [State.engineNext, nextEvent, h]

theorem engineNext_of_cons {s : State} {es : List Event} (h : s.schedule = .engine :: es) : s.engineNext es := by
  simp [State.engineNext, nextEvent, h]

/-- The next event is a host access, an engine step or the reset input (R17). -/
theorem next_cases (s : State) :
    (∃ a es, s.hostNext a es) ∨ (∃ es, s.engineNext es) ∨ (∃ es, s.resetNext es) := by
  cases h : s.schedule with
  | nil => exact Or.inr (Or.inl ⟨[], engineNext_of_nil h⟩)
  | cons e es =>
    cases e with
    | host a => exact Or.inl ⟨a, es, h⟩
    | engine => exact Or.inr (Or.inl ⟨es, engineNext_of_cons h⟩)
    | reset => exact Or.inr (Or.inr ⟨es, h⟩)

theorem hostNext_not_engineNext {s : State} {a : Access} {es fs : List Event} (h : s.hostNext a es) :
    ¬ s.engineNext fs := by
  have h' : s.schedule = .host a :: es := h
  simp [State.engineNext, nextEvent, h']

theorem resetNext_not_engineNext {s : State} {es fs : List Event} (h : s.resetNext es) : ¬ s.engineNext fs := by
  have h' : s.schedule = .reset :: es := h
  simp [State.engineNext, nextEvent, h']

theorem resetNext_not_hostNext {s : State} {a : Access} {es fs : List Event} (h : s.resetNext es) :
    ¬ s.hostNext a fs := by
  have h' : s.schedule = .reset :: es := h
  simp [State.hostNext, h']

/-- The inversion of a step that answers a next state. -/
theorem step_cases {s t : State} (h : step s = .next t) :
    s.cfg.wf = true ∧
      ((∃ a es, s.hostNext a es ∧ t = hostStep (s.withSchedule es) a)
      ∨ (∃ es, s.engineNext es ∧ engineStep (s.withSchedule es) = .next t)
      ∨ (∃ es, s.resetNext es ∧ t = (s.withSchedule es).resetStep)) := by
  cases hw : s.cfg.wf with
  | false => rw [step_refused hw] at h; cases h
  | true =>
    refine ⟨rfl, ?_⟩
    rcases next_cases s with ⟨a, es, hn⟩ | ⟨es, hn⟩ | ⟨es, hn⟩
    · rw [step_of_hostNext hw hn] at h
      exact Or.inl ⟨a, es, hn, (Host.Outcome.next.inj h).symm⟩
    · rw [step_of_engineNext hw hn] at h
      exact Or.inr (Or.inl ⟨es, hn, h⟩)
    · rw [step_of_resetNext hw hn] at h
      exact Or.inr (Or.inr ⟨es, hn, (Host.Outcome.next.inj h).symm⟩)

/-! ### The host step (R54, R170, R171) -/

/-- What a write of a register does in a state that is not busy, by register. -/
theorem hostStep_cases (s : State) (a : Access) :
    (a.admitted = false ∧ hostStep s a = { s with resp := some .busError })
    ∨ (a.admitted = true ∧ a.op = .read ∧ hostStep s a = { s with resp := some (.data (busRead s a.off.toNat)) })
    ∨ (∃ v, a.admitted = true ∧ a.op = .write v ∧
        ((regAt s.cfg a.off.toNat).writable = false ∧ hostStep s a = { s with resp := some .written }
        ∨ (regAt s.cfg a.off.toNat).writable = true ∧ s.busy = true
            ∧ hostStep s a = { s with busyErr := true, resp := some .written }
        ∨ (regAt s.cfg a.off.toNat).writable = true ∧ s.busy = false
            ∧ hostStep s a = { idleWrite s (regAt s.cfg a.off.toNat) v with resp := some .written })) := by
  cases hadm : a.admitted with
  | false => exact Or.inl ⟨rfl, by simp [hostStep, hadm]⟩
  | true =>
    refine Or.inr ?_
    cases hop : a.op with
    | read => exact Or.inl ⟨rfl, rfl, by simp [hostStep, hadm, hop]⟩
    | write v =>
      refine Or.inr ⟨v, rfl, rfl, ?_⟩
      cases hwr : (regAt s.cfg a.off.toNat).writable with
      | false => exact Or.inl ⟨rfl, by simp [hostStep, hadm, hop, busWrite, hwr]⟩
      | true =>
        cases hb : s.busy with
        | true => exact Or.inr (Or.inl ⟨rfl, rfl, by simp [hostStep, hadm, hop, busWrite, hwr, hb]⟩)
        | false => exact Or.inr (Or.inr ⟨rfl, rfl, by simp [hostStep, hadm, hop, busWrite, hwr, hb]⟩)

/-- An admitted access is 32 bits wide and aligned (R54). -/
theorem admitted_iff (a : Access) : a.admitted = true ↔ a.width = .w32 ∧ a.off.toNat % 4 = 0 := by
  simp [Access.admitted]

theorem busy_iff (s : State) : s.busy = true ↔ s.phase ≠ .idle := by simp [State.busy]

theorem busy_false_iff (s : State) : s.busy = false ↔ s.phase = .idle := by simp [State.busy]

/-- A BUF word of the register map is implemented (R71). -/
theorem regAt_bufWord {c : Config} {off k : Nat} (h : regAt c off = .bufWord k) :
    0x040 ≤ off ∧ k = (off - 0x040) / 4 ∧ k < 2 * (c.nmax + 1) := by
  unfold regAt at h
  split_ifs at h with h0 h1 h2 h3 h4 h5 h6
  cases h
  exact ⟨h6.1, rfl, h6.2⟩

/-- A KEK word of the register map is one of eight (R72). -/
theorem regAt_kekWord {c : Config} {off m : Nat} (h : regAt c off = .kekWord m) :
    0x020 ≤ off ∧ off ≤ 0x03C ∧ m = (off - 0x020) / 4 ∧ m < 8 := by
  unfold regAt at h
  split_ifs at h with h0 h1 h2 h3 h4 h5 h6
  cases h
  exact ⟨h5.1, h5.2, rfl, by omega⟩

theorem regAt_cmd {c : Config} {off : Nat} (h : regAt c off = .cmd) : off = 0x000 := by
  unfold regAt at h
  split_ifs at h
  assumption

theorem regAt_len {c : Config} {off : Nat} (h : regAt c off = .len) : off = 0x008 := by
  unfold regAt at h
  split_ifs at h
  assumption

theorem regAt_keklen {c : Config} {off : Nat} (h : regAt c off = .keklen) : off = 0x00C := by
  unfold regAt at h
  split_ifs at h
  assumption

/-! ### The commands at DECODE (R102) -/

theorem execWrap_cases (s : State) :
    (wrapLenOK s.cfg s.len = false ∧ execWrap s = .next (s.fail .invalidKeyLength))
    ∨ (wrapLenOK s.cfg s.len = true ∧ s.kekLenOK = false ∧ execWrap s = .next (s.fail .invalidKekLength))
    ∨ (wrapLenOK s.cfg s.len = true ∧ s.kekLenOK = true ∧ execWrap s =
        .next { s with buf := s.buf.setBlk 0 iv, n := wrapCount s.len, j := 0, i := 0, phase := .wrapLoop }) := by
  cases h1 : wrapLenOK s.cfg s.len <;> cases h2 : s.kekLenOK <;> simp [execWrap, h1, h2]

theorem execUnwrap_cases (s : State) :
    (unwrapLenOK s.cfg s.len = false ∧ execUnwrap s = .next (s.fail .invalidWrappedKeyLength))
    ∨ (unwrapLenOK s.cfg s.len = true ∧ s.kekLenOK = false ∧ execUnwrap s = .next (s.fail .invalidKekLength))
    ∨ (unwrapLenOK s.cfg s.len = true ∧ s.kekLenOK = true ∧ execUnwrap s =
        .next { s with n := unwrapCount s.len, j := 5, i := unwrapCount s.len - 1, phase := .unwrapLoop }) := by
  cases h1 : unwrapLenOK s.cfg s.len <;> cases h2 : s.kekLenOK <;> simp [execUnwrap, h1, h2]

theorem execEncBlock_cases (s : State) :
    (s.cfg.adapter = .disabled ∧ execEncBlock s = .next (s.fail .illegalCommand))
    ∨ (s.cfg.adapter = .enabled ∧ s.kekLenOK = false ∧ execEncBlock s = .next (s.fail .invalidKekLength))
    ∨ (s.cfg.adapter = .enabled ∧ s.kekLenOK = true ∧ execEncBlock s = .next
        ({ s with buf := s.buf.setCipherBlock (Aes.aes256Enc s.kekBytes s.buf.cipherBlock) } : State).succeed) := by
  cases h1 : s.cfg.adapter <;> cases h2 : s.kekLenOK <;> simp [execEncBlock, Instr.wf, h1, h2]

theorem execDecBlock_cases (s : State) :
    (s.cfg.adapter = .disabled ∧ execDecBlock s = .next (s.fail .illegalCommand))
    ∨ (s.cfg.adapter = .enabled ∧ s.kekLenOK = false ∧ execDecBlock s = .next (s.fail .invalidKekLength))
    ∨ (s.cfg.adapter = .enabled ∧ s.kekLenOK = true
        ∧ blockDecrypt s.cfg s.pcache s.kekBytes s.buf.cipherBlock = none ∧ execDecBlock s = .fault .paddingError)
    ∨ (∃ x pc, s.cfg.adapter = .enabled ∧ s.kekLenOK = true
        ∧ blockDecrypt s.cfg s.pcache s.kekBytes s.buf.cipherBlock = some (x, pc)
        ∧ execDecBlock s = .next ({ s with buf := s.buf.setCipherBlock x, pcache := pc } : State).succeed) := by
  cases h1 : s.cfg.adapter <;> cases h2 : s.kekLenOK <;> simp [execDecBlock, Instr.wf, h1, h2]
  rcases hd : blockDecrypt s.cfg s.pcache s.kekBytes s.buf.cipherBlock with _ | ⟨x, pc⟩ <;> simp

/-- A word that decodes to a command is that command's encoding (R73, R77). -/
theorem eq_encode_of_decode {w : Word} {i : Instr} (h : decode w = .instr i) : w = encode i := by
  have hw : w = rsvdField w ++ opField w := by
    have e := BitVec.extractLsb'_append_extractLsb'_eq_extractLsb' (w := 32) (x := w) (start₁ := 0) (len₁ := 4)
      (start₂ := 4) (len₂ := 28) rfl
    exact (BitVec.extractLsb'_eq_self (x := w)).symm.trans e.symm
  unfold decode at h
  split_ifs at h with h0
  rw [hw, h0]
  revert h
  generalize opField w = op
  cases i <;> revert op <;> decide

/-- The engine step of DECODE runs the latched command, or fails (R101). -/
theorem engineStep_decode {s : State} (h : s.phase = .decode) :
    (∃ i, s.cmdLatch = encode i ∧ decode s.cmdLatch = .instr i ∧ engineStep s = exec i s)
    ∨ ((∀ i, decode s.cmdLatch ≠ .instr i) ∧ engineStep s = .next (s.fail .illegalCommand)) := by
  rcases hd : decode s.cmdLatch with i | _ | op
  · exact Or.inl ⟨i, eq_encode_of_decode hd, rfl, by simp [engineStep, h, decodeStep, hd]⟩
  · exact Or.inr ⟨by simp, by simp [engineStep, h, decodeStep, hd, illegalCommand]⟩
  · exact Or.inr ⟨by simp, by simp [engineStep, h, decodeStep, hd, illegalCommand]⟩

@[simp] theorem exec_wrap (s : State) : exec .wrap s = execWrap s := rfl
@[simp] theorem exec_unwrap (s : State) : exec .unwrap s = execUnwrap s := rfl
@[simp] theorem exec_encBlock (s : State) : exec .encBlock s = execEncBlock s := rfl
@[simp] theorem exec_decBlock (s : State) : exec .decBlock s = execDecBlock s := rfl
@[simp] theorem exec_zeroize (s : State) : exec .zeroize s = .next s.eraseKeys.succeed := rfl

/-- R78: a word is legal when it decodes to a command that the configuration admits. -/
theorem legal_iff (c : Config) (w : Word) : legal c w = true ↔ ∃ i, decode w = .instr i ∧ i.wf c = true := by
  unfold legal
  split <;> simp_all

/-- R161: the engine step of DECODE fails on every word that is not legal. -/
theorem engineStep_illegal {s : State} (hp : s.phase = .decode) (hl : legal s.cfg s.cmdLatch = false) :
    engineStep s = .next (s.fail .illegalCommand) := by
  rcases engineStep_decode hp with ⟨i, -, hd, he⟩ | ⟨-, he⟩
  · have hi : i.wf s.cfg = false := by
      by_contra hc
      have := (legal_iff s.cfg s.cmdLatch).mpr ⟨i, hd, by simpa using hc⟩
      simp_all
    rw [he]
    cases i <;> simp only [Instr.wf, Bool.true_eq_false] at hi
    · simp [execEncBlock, Instr.wf, hi]
    · simp [execDecBlock, Instr.wf, hi]
  · exact he

theorem engineStep_idle {s : State} (h : s.phase = .idle) : engineStep s = .next s := by simp [engineStep, h]

theorem engineStep_wrapLoop {s : State} (h : s.phase = .wrapLoop) : engineStep s = .next (wrapLoopStep s) := by
  simp [engineStep, h]

theorem engineStep_unwrapLoop {s : State} (h : s.phase = .unwrapLoop) : engineStep s = unwrapLoopStep s := by
  simp [engineStep, h]

theorem engineStep_unwrapCheck {s : State} (h : s.phase = .unwrapCheck) :
    engineStep s = .next (unwrapCheckStep s) := by
  simp [engineStep, h]

/-! ### The loop steps (R104, R105) -/

theorem wrapAdvance_cases (s : State) :
    (s.i + 1 < s.n ∧ wrapAdvance s = { s with i := s.i + 1 })
    ∨ (¬ s.i + 1 < s.n ∧ s.j < 5 ∧ wrapAdvance s = { s with j := s.j + 1, i := 0 })
    ∨ (¬ s.i + 1 < s.n ∧ ¬ s.j < 5 ∧ wrapAdvance s = s.succeed) := by
  by_cases h1 : s.i + 1 < s.n <;> by_cases h2 : s.j < 5 <;> simp [wrapAdvance, h1, h2]

theorem unwrapAdvance_cases (s : State) :
    (0 < s.i ∧ unwrapAdvance s = { s with i := s.i - 1 })
    ∨ (s.i = 0 ∧ 0 < s.j ∧ unwrapAdvance s = { s with j := s.j - 1, i := s.n - 1 })
    ∨ (s.i = 0 ∧ s.j = 0 ∧ unwrapAdvance s = { s with phase := .unwrapCheck }) := by
  rcases Nat.eq_zero_or_pos s.i with h1 | h1 <;> rcases Nat.eq_zero_or_pos s.j with h2 | h2 <;>
    simp [unwrapAdvance, h1, h2]

theorem unwrapCheckStep_cases (s : State) :
    (s.buf.blk 0 = iv ∧ unwrapCheckStep s = s.succeed)
    ∨ (s.buf.blk 0 ≠ iv ∧ unwrapCheckStep s = s.fail .integrityCheckFailed) := by
  by_cases h : s.buf.blk 0 = iv <;> simp [unwrapCheckStep, h]

/-- The inversion of an UNWRAP_LOOP step: the cipher output is stored and the indexes advance. -/
theorem unwrapLoopStep_cases (s : State) :
    (blockDecrypt s.cfg s.pcache s.kekBytes (unwrapInput s) = none ∧ unwrapLoopStep s = .fault .paddingError)
    ∨ ∃ b pc, blockDecrypt s.cfg s.pcache s.kekBytes (unwrapInput s) = some (b, pc)
        ∧ unwrapLoopStep s = .next (unwrapAdvance (unwrapStoreB { s with pcache := pc } b)) := by
  rcases hd : blockDecrypt s.cfg s.pcache s.kekBytes (unwrapInput s) with _ | ⟨b, pc⟩ <;>
    simp [unwrapLoopStep, hd]

/-! ### Runs -/

theorem runSteps_zero (s : State) : runSteps 0 s = .next s := rfl

theorem runSteps_succ_of_next {s t : State} (h : step s = .next t) (k : Nat) : runSteps (k + 1) s = runSteps k t := by
  have h' : Sys2Proof.core.step s = Host.Outcome.next t := h
  show Host.Core.run Sys2Proof.core (k + 1) s = Host.Core.run Sys2Proof.core k t
  simp only [Host.Core.run, h']

/-- A run of `a + b` steps is a run of `a` steps and then one of `b`. -/
theorem runSteps_add {s t : State} {a : Nat} (h : runSteps a s = .next t) (b : Nat) :
    runSteps (a + b) s = runSteps b t := by
  induction a generalizing s with
  | zero =>
    rw [runSteps_zero] at h
    cases h
    rw [Nat.zero_add]
  | succ a ih =>
    rcases hs : step s with u | r | r
    · rw [runSteps_succ_of_next hs] at h
      rw [show a + 1 + b = a + b + 1 by omega, runSteps_succ_of_next hs]
      exact ih h
    · have h' : Sys2Proof.core.step s = Host.Outcome.fault r := hs
      have : Host.Core.run Sys2Proof.core (a + 1) s = Host.Outcome.next t := h
      simp only [Host.Core.run, h'] at this
      cases this
    · have h' : Sys2Proof.core.step s = Host.Outcome.refused r := hs
      have : Host.Core.run Sys2Proof.core (a + 1) s = Host.Outcome.next t := h
      simp only [Host.Core.run, h'] at this
      cases this

end Sys2Proof.Machine
end

