-- ==== Sys2Proof/Laws/Engine.lean ====
section
/-! SUPPORT. Everything an engine step can do, said once as a list of effects, and the inversion of an engine step into it
(R101 to R108, R122 to R129, R143, R144, R160, R161). -/

namespace Sys2Proof.Machine

open Sys2Proof.Machine.Aes

/-- `EngineEffect s t`: an engine step of `s` that answers a next state answers `t`, for the reason the constructor names. -/
inductive EngineEffect (s : State) : State → Prop
  | idle : s.phase = .idle → EngineEffect s s
  | illegal : s.phase = .decode → legal s.cfg s.cmdLatch = false → EngineEffect s (s.fail .illegalCommand)
  | wrapLength : s.phase = .decode → s.cmdLatch = encode .wrap → wrapLenOK s.cfg s.len = false →
      EngineEffect s (s.fail .invalidKeyLength)
  | unwrapLength : s.phase = .decode → s.cmdLatch = encode .unwrap → unwrapLenOK s.cfg s.len = false →
      EngineEffect s (s.fail .invalidWrappedKeyLength)
  | kekLength (i : Instr) : s.phase = .decode → s.cmdLatch = encode i → i ≠ .zeroize → i.wf s.cfg = true →
      (i = .wrap → wrapLenOK s.cfg s.len = true) → (i = .unwrap → unwrapLenOK s.cfg s.len = true) →
      s.kekLenOK = false → EngineEffect s (s.fail .invalidKekLength)
  | wrapSetup : s.phase = .decode → s.cmdLatch = encode .wrap → wrapLenOK s.cfg s.len = true → s.kekLenOK = true →
      EngineEffect s { s with buf := s.buf.setBlk 0 iv, n := wrapCount s.len, j := 0, i := 0, phase := .wrapLoop }
  | unwrapSetup : s.phase = .decode → s.cmdLatch = encode .unwrap → unwrapLenOK s.cfg s.len = true →
      s.kekLenOK = true →
      EngineEffect s { s with n := unwrapCount s.len, j := 5, i := unwrapCount s.len - 1, phase := .unwrapLoop }
  | encBlock : s.phase = .decode → s.cmdLatch = encode .encBlock → s.cfg.adapter = .enabled → s.kekLenOK = true →
      EngineEffect s
        ({ s with buf := s.buf.setCipherBlock (aes256Enc s.kekBytes s.buf.cipherBlock) } : State).succeed
  | decBlock (x : CipherBlock) (pc : PCache) : s.phase = .decode → s.cmdLatch = encode .decBlock →
      s.cfg.adapter = .enabled → s.kekLenOK = true →
      blockDecrypt s.cfg s.pcache s.kekBytes s.buf.cipherBlock = some (x, pc) →
      EngineEffect s ({ s with buf := s.buf.setCipherBlock x, pcache := pc } : State).succeed
  | zeroize : s.phase = .decode → s.cmdLatch = encode .zeroize → EngineEffect s s.eraseKeys.succeed
  | wrapNextBlock (b : CipherBlock) : s.phase = .wrapLoop → s.i + 1 < s.n →
      b = aes256Enc s.kekBytes (joinBlocks (s.buf.blk 0) (s.buf.blk (1 + s.i))) →
      EngineEffect s { wrapStoreB s b with i := s.i + 1 }
  | wrapNextRound (b : CipherBlock) : s.phase = .wrapLoop → ¬ s.i + 1 < s.n → s.j < 5 →
      b = aes256Enc s.kekBytes (joinBlocks (s.buf.blk 0) (s.buf.blk (1 + s.i))) →
      EngineEffect s { wrapStoreB s b with j := s.j + 1, i := 0 }
  | wrapEnd (b : CipherBlock) : s.phase = .wrapLoop → ¬ s.i + 1 < s.n → ¬ s.j < 5 →
      b = aes256Enc s.kekBytes (joinBlocks (s.buf.blk 0) (s.buf.blk (1 + s.i))) →
      EngineEffect s (wrapStoreB s b).succeed
  | unwrapNextBlock (b : CipherBlock) (pc : PCache) : s.phase = .unwrapLoop →
      blockDecrypt s.cfg s.pcache s.kekBytes (unwrapInput s) = some (b, pc) → 0 < s.i →
      EngineEffect s { unwrapStoreB { s with pcache := pc } b with i := s.i - 1 }
  | unwrapNextRound (b : CipherBlock) (pc : PCache) : s.phase = .unwrapLoop →
      blockDecrypt s.cfg s.pcache s.kekBytes (unwrapInput s) = some (b, pc) → s.i = 0 → 0 < s.j →
      EngineEffect s { unwrapStoreB { s with pcache := pc } b with j := s.j - 1, i := s.n - 1 }
  | unwrapEnd (b : CipherBlock) (pc : PCache) : s.phase = .unwrapLoop →
      blockDecrypt s.cfg s.pcache s.kekBytes (unwrapInput s) = some (b, pc) → s.i = 0 → s.j = 0 →
      EngineEffect s { unwrapStoreB { s with pcache := pc } b with phase := .unwrapCheck }
  | checkPassed : s.phase = .unwrapCheck → s.buf.blk 0 = iv → EngineEffect s s.succeed
  | checkFailed : s.phase = .unwrapCheck → s.buf.blk 0 ≠ iv → EngineEffect s (s.fail .integrityCheckFailed)

/-- The inversion of an engine step. -/
theorem engineEffect_of_engineStep {s t : State} (h : engineStep s = .next t) : EngineEffect s t := by
  cases hp : s.phase with
  | idle => rw [engineStep_idle hp] at h; cases h; exact .idle hp
  | wrapLoop =>
    rw [engineStep_wrapLoop hp] at h; cases h
    simp only [wrapLoopStep, blockEncrypt_eq]
    generalize hb : aes256Enc _ _ = b
    replace hb := hb.symm
    rcases wrapAdvance_cases (wrapStoreB s b) with ⟨c1, e⟩ | ⟨c1, c2, e⟩ | ⟨c1, c2, e⟩ <;> rw [e]
    · exact .wrapNextBlock b hp c1 hb
    · exact .wrapNextRound b hp c1 c2 hb
    · exact .wrapEnd b hp c1 c2 hb
  | unwrapLoop =>
    rw [engineStep_unwrapLoop hp] at h
    rcases unwrapLoopStep_cases s with ⟨_, e⟩ | ⟨b, pc, hd, e⟩ <;> rw [e] at h <;> cases h
    rcases unwrapAdvance_cases (unwrapStoreB { s with pcache := pc } b) with ⟨c1, e⟩ | ⟨c1, c2, e⟩ | ⟨c1, c2, e⟩ <;> rw [e]
    · exact .unwrapNextBlock b pc hp hd c1
    · exact .unwrapNextRound b pc hp hd c1 c2
    · exact .unwrapEnd b pc hp hd c1 c2
  | unwrapCheck =>
    rw [engineStep_unwrapCheck hp] at h; cases h
    rcases unwrapCheckStep_cases s with ⟨c, e⟩ | ⟨c, e⟩ <;> rw [e]
    · exact .checkPassed hp c
    · exact .checkFailed hp c
  | decode =>
    cases hl : legal s.cfg s.cmdLatch with
    | false => rw [engineStep_illegal hp hl] at h; cases h; exact .illegal hp hl
    | true =>
      obtain ⟨i, hd, hi⟩ := (legal_iff _ _).mp hl
      rcases engineStep_decode hp with ⟨i', h1, h2, h3⟩ | ⟨hne, _⟩
      swap
      · exact absurd hd (hne i)
      rw [hd] at h2; cases h2
      rw [h3] at h
      cases i
      · rcases execWrap_cases s with ⟨c1, e⟩ | ⟨c1, c2, e⟩ | ⟨c1, c2, e⟩ <;> rw [exec_wrap, e] at h <;> cases h
        · exact .wrapLength hp h1 c1
        · exact .kekLength _ hp h1 (by decide) hi (fun _ => c1) (by simp) c2
        · exact .wrapSetup hp h1 c1 c2
      · rcases execUnwrap_cases s with ⟨c1, e⟩ | ⟨c1, c2, e⟩ | ⟨c1, c2, e⟩ <;> rw [exec_unwrap, e] at h <;> cases h
        · exact .unwrapLength hp h1 c1
        · exact .kekLength _ hp h1 (by decide) hi (by simp) (fun _ => c1) c2
        · exact .unwrapSetup hp h1 c1 c2
      · rcases execEncBlock_cases s with ⟨c1, e⟩ | ⟨c1, c2, e⟩ | ⟨c1, c2, e⟩ <;> rw [exec_encBlock, e] at h <;> cases h
        · simp [Instr.wf, c1] at hi
        · exact .kekLength _ hp h1 (by decide) hi (by simp) (by simp) c2
        · exact .encBlock hp h1 c1 c2
      · rcases execDecBlock_cases s with ⟨c1, e⟩ | ⟨c1, c2, e⟩ | ⟨c1, c2, _, e⟩ | ⟨x, pc, c1, c2, c3, e⟩ <;> rw [exec_decBlock, e] at h <;> cases h
        · simp [Instr.wf, c1] at hi
        · exact .kekLength _ hp h1 (by decide) hi (by simp) (by simp) c2
        · exact .decBlock x pc hp h1 c1 c2 c3
      · rw [exec_zeroize] at h; cases h
        exact .zeroize hp h1

end Sys2Proof.Machine
end

