-- ==== Sys2Proof/Laws/HostProgram.lean ====
section
/-! SUPPORT. What one read and one write of a host program do, and the bytes of the words read (R82, R83). -/

namespace Sys2Proof.Machine

/-- `RD off` answers what the bus reads at `off` and changes nothing but the port's response (R82, R170). -/
theorem readWord_eq {s : State} (hw : s.cfg.wf = true) {off : BitVec 9} (h : off.toNat % 4 = 0) :
    readWord off s
      = some ({ s with resp := some (.data (busRead s off.toNat)) }, busRead s off.toNat) := by
  have e : step (s.withSchedule (rd off :: s.schedule)) = .next { s with resp := some (.data (busRead s off.toNat)) } := by
    rw [step_of_hostNext (s := s.withSchedule (rd off :: s.schedule)) hw (a := ⟨off, .w32, .read⟩) (es := s.schedule) rfl,
      hostStep_read _ h]
    rfl
  simp only [readWord, e, readResult]

/-- A pending `WR off, v` is written to the bus (R82, R171). -/
theorem step_wr {s : State} (hw : s.cfg.wf = true) {off : BitVec 9} (h : off.toNat % 4 = 0) {v : Word} {es : List Event}
    (hs : s.schedule = wr off v :: es) :
    step s = .next { busWrite (s.withSchedule es) off.toNat v with resp := some .written } := by
  rw [step_of_hostNext (s := s) hw (a := ⟨off, .w32, .write v⟩) (es := es) hs, hostStep_write _ h]

@[simp] theorem bytesOfWords_nil : bytesOfWords [] = [] := rfl

@[simp] theorem bytesOfWords_cons (w : Word) (ws : List Word) :
    bytesOfWords (w :: ws) = bytesOf 4 w.toNat ++ bytesOfWords ws := rfl

/-- The offset of a BUF word that lies in the window (R71). -/
theorem offBUF_toNat {k : Nat} (h : k < 64) : (offBUF k).toNat = 0x040 + 4 * k := by
  simp only [offBUF, BitVec.toNat_ofNat]
  omega

/-- An implemented BUF word (R71). -/
theorem regAt_offBUF {c : Config} {k : Nat} (h : k < 64) (hk : k < 2 * (c.nmax + 1)) :
    regAt c (offBUF k).toNat = .bufWord k := by
  rw [offBUF_toNat h]
  unfold regAt
  split_ifs <;> first | omega | (congr 1; omega)

end Sys2Proof.Machine
end

