-- ==== Sys2Proof/Laws/PerInstr.lean ====
section
/-! SUPPORT. Facts stated of every command as syntax, one lemma per constructor. -/

namespace Sys2Proof.Laws.EncodingShape

/-- A command's word has RSVD zero, the command's OP, and exactly one row of the opcode table matches it, its own
(R73, R77, R84). -/
def Statement (i : Instr) : Prop :=
  rsvdField (encode i) = 0 ∧ opField (encode i) = i.op ∧
    (opcodeTable.filter (fun r => r.matches (encode i))).map OpcodeRow.instr = [i]

theorem wrap : Statement .wrap := by unfold Statement; decide
theorem unwrap : Statement .unwrap := by unfold Statement; decide
theorem encBlock : Statement .encBlock := by unfold Statement; decide
theorem decBlock : Statement .decBlock := by unfold Statement; decide
theorem zeroize : Statement .zeroize := by unfold Statement; decide

end Sys2Proof.Laws.EncodingShape
end

