-- ==== Sys2Proof/Tests/Slice0.lean ====
section
/-! SUPPORT. The model's own tests. Expected values are those of spec/95_test_vectors.md or of the rule each test names,
written out by hand. The last part shows, for each statement of Certificates/Slice0/Obligations.lean that has hypotheses,
states and operands that meet them together (witness_<statement>). -/

namespace Sys2Proof.Tests

open Sys2Proof Sys2Proof.Machine Sys2Proof.Machine.Aes

/-! ### Small states -/

/-- A configuration with chosen platform parameters, otherwise the default of R8. -/
def stdCfg : Config := ⟨4, .library, .enabled, .raw, .off, 0x40000000, .ignored⟩

/-- The same machine behind a padded provider with PAD_CACHE = ON. -/
def padCfg : Config := { stdCfg with provider := .padded, padCache := .on }

/-- The same machine with LENGTH_POLICY = GENERAL. -/
def genCfg : Config := { stdCfg with policy := .general }

/-- K1 of spec/95_test_vectors.md. -/
def k1 : Key := 0x000102030405060708090A0B0C0D0E0F101112131415161718191A1B1C1D1E1F#256

/-- A byte array holding a byte string from an index on. -/
def bytesAt (a k v : Nat) : Memory := Memory.writeBytes [] a (bytesOf k v)

/-- An idle state with K1 loaded, LEN = 32 and the key data P256 in blocks 1 to 4 (the state of P1 before its CMD write). -/
def loaded (c : Config) : State :=
  { State.resetOf c with
    kek := bytesAt 0 32 k1.toNat, keklen := 32, len := 32,
    buf := bytesAt 8 32 0x00112233445566778899AABBCCDDEEFF000102030405060708090A0B0C0D0E0F }

/-- The same with another LEN, KEKLEN and BUF, and a command word accepted. -/
def accepted (c : Config) (w len keklen : Word) (buf : Memory) : State :=
  { loaded c with cmdLatch := w, len := len, keklen := keklen, buf := buf, phase := .decode }

/-- The state of KW-1 before its step 1. -/
def wrapAt1 (c : Config) : State :=
  { accepted c 1 32 32
      (bytesAt 0 40 0xA6A6A6A6A6A6A6A600112233445566778899AABBCCDDEEFF000102030405060708090A0B0C0D0E0F) with
    phase := .wrapLoop, n := 4, j := 0, i := 0 }

/-- C256 of spec/95_test_vectors.md in BUF. -/
def c256 : Memory := bytesAt 0 40 0x28C9F404C4B810F4CBCCB35CFB87F8263F5786E2D80ED326CBC7F0E71A99F43BFB988B9B7A02DD21

/-- The state of KW-2 before its step 1. -/
def unwrapAt1 (c : Config) : State :=
  { accepted c 2 40 32 c256 with phase := .unwrapLoop, n := 4, j := 5, i := 3 }

/-- A running UNWRAP at its check, with the given accumulator and P256 behind it. -/
def checkAt (a : Nat) : State :=
  { accepted stdCfg 2 40 32
      (bytesAt 0 40 (a * 2 ^ 256 + 0x00112233445566778899AABBCCDDEEFF000102030405060708090A0B0C0D0E0F)) with
    phase := .unwrapCheck, n := 4, j := 0, i := 0 }

/-- The outcome is a next state with a property. -/
def nextHas (o : Host.Outcome State Fault Refusal) (p : State → Bool) : Bool :=
  match o with
  | .next t => p t
  | .fault _ => false
  | .refused _ => false

/-- The outcome is a refusal for the given reason. -/
def refuses (o : Host.Outcome State Fault Refusal) (r : Refusal) : Bool :=
  match o with
  | .next _ => false
  | .fault _ => false
  | .refused r' => decide (r' = r)

/-- The bytes of BUF with an index below a bound are all zero. -/
def zeroBelow (m : Memory) (bound : Nat) : Bool := (List.range bound).all (fun a => decide (m.read a = 0))

/-! ### Well-formedness (R9, R78) -/

theorem test_wf_default : Config.default.wf = true := by decide
theorem test_wf_refuses_nmax_1 : Config.wf { genCfg with nmax := 1 } = false := by decide
theorem test_wf_refuses_nmax_32 : Config.wf { genCfg with nmax := 32 } = false := by decide
theorem test_wf_refuses_library_nmax_3 : Config.wf { stdCfg with nmax := 3 } = false := by decide
theorem test_wf_refuses_cache_without_padding : Config.wf { stdCfg with padCache := .on } = false := by decide
theorem test_wf_general_nmax_2 : Config.wf { genCfg with nmax := 2 } = true := by decide
theorem test_wf_general_nmax_31 : Config.wf { genCfg with nmax := 31 } = true := by decide
theorem test_step_refuses_ill_formed :
    refuses (step (State.resetOf { genCfg with nmax := 32 })) .illFormedConfig = true := by decide
theorem test_wf_refuses_adapter_commands :
    Instr.wf { stdCfg with adapter := .disabled } .encBlock = false
      ∧ Instr.wf { stdCfg with adapter := .disabled } .decBlock = false := by decide

/-! ### Decoding: words written out from R73 and R77 (28 zero bits, then OP) -/

theorem test_decode_wrap : decode 0b00000000000000000000000000000001#32 = .instr .wrap := by decide
theorem test_decode_unwrap : decode 0b00000000000000000000000000000010#32 = .instr .unwrap := by decide
theorem test_decode_encBlock : decode 0b00000000000000000000000000000011#32 = .instr .encBlock := by decide
theorem test_decode_decBlock : decode 0b00000000000000000000000000000100#32 = .instr .decBlock := by decide
theorem test_decode_zeroize : decode 0b00000000000000000000000000000101#32 = .instr .zeroize := by decide
/-- ER-10 and ER-11. -/
theorem test_decode_illegal : [0x00000011#32, 0x00000000#32, 0x00000006#32, 0x0000000F#32, 0x80000001#32].all
    (fun w => !legal stdCfg w) = true := by decide
theorem test_decodeTableWord : (List.range 8).map (decodeTableWord 32) =
    [none, some .wrap, some .unwrap, some .encBlock, some .decBlock, some .zeroize, none, none] := by decide

/-! ### The placed word is the next to run (R100, R101) -/

/-- After reset KEKLEN is 0, so ENC_BLOCK fails with INVALID_KEK_LENGTH: STATUS 0x00000032. -/
theorem test_withFetchWord_encBlock :
    nextHas (step (State.reset.withFetchWord 32 3)) (fun t => decide (t.statusWord = 0x00000032#32)) = true := by
  decide
/-- After reset LEN is 0, so WRAP fails with INVALID_KEY_LENGTH (R102): STATUS 0x00000012. -/
theorem test_withFetchWord_wrap :
    nextHas (step (State.reset.withFetchWord 32 1)) (fun t => decide (t.statusWord = 0x00000012#32)) = true := by
  decide
theorem test_withFetchWord_zeroize :
    nextHas (step (State.reset.withFetchWord 32 5)) (fun t => decide (t.statusWord = 0x00000002#32)) = true := by
  decide

/-! ### AES-256 -/

/-- R185: `S(0x53)` is A(0xCA), since 0xCA is the inverse of 0x53. -/
theorem test_sbox_from_inverse : ginv 0x53#8 = 0xCA#8 ∧ affine 0xCA#8 = 0xED#8 ∧ sbox 0x53#8 = 0xED#8 := by
  decide +kernel
/-- AES-2: w[8] and w[59] of K1. -/
theorem test_key_schedule :
    (keyExpansion k1)[8]? = some ⟨0xA5, 0x73, 0xC2, 0x9F⟩ ∧ (keyExpansion k1)[59]? = some ⟨0x6D, 0x68, 0xDE, 0x36⟩ := by
  decide +kernel
/-- AES-1 (FIPS-197 C.3). -/
theorem test_aes_enc : aes256Enc k1 0x00112233445566778899AABBCCDDEEFF#128 = 0x8EA2B7CA516745BFEAFC49904B496089#128 := by
  decide +kernel
/-- AES-3. -/
theorem test_aes_dec : aes256Dec 0 0 = 0x67671CE1FA91DDEB0F8FBBB366B531B4#128 := by decide +kernel
/-- AD-6: the provider's encrypt of one block, with the appended padding block. -/
theorem test_provider_encrypt : providerEcbEncrypt k1 0x00112233445566778899AABBCCDDEEFF#128 [] =
    (0x8EA2B7CA516745BFEAFC49904B496089#128, [0x9F3B7504926F8BD36E3118E903A4CD4A#128]) := by decide +kernel
/-- R151: a last byte of 0 or 17, or unequal padding bytes, is PADDING_ERROR. -/
theorem test_strip_padding :
    stripPadding [0x41, 0x00] = none ∧ stripPadding [0x41, 0x11] = none ∧ stripPadding [0x41, 0x03, 0x02] = none
      ∧ stripPadding [0x41, 0x02, 0x02] = some [0x41] := by decide +kernel

/-! ### WRAP -/

/-- ER-1: LEN = 31 and KEKLEN = 0 give code 1, and BUF is zeroed. -/
theorem test_wrap_length_error :
    nextHas (exec .wrap (accepted stdCfg 1 31 0 c256))
      (fun t => decide (t.statusWord = 0x00000012#32) && zeroBelow t.buf 40) = true := by decide +kernel
/-- KW-1, step 1: A and R[0] after it. -/
theorem test_wrap_first_step :
    nextHas (step (wrapAt1 stdCfg)) (fun t => decide (t.buf.blk 0 = 0x794314D454E3FDE0#64)
      && decide (t.buf.blk 1 = 0xF661BD9F31FBFA31#64) && decide (t.i = 1)) = true := by decide +kernel

/-! ### UNWRAP -/

/-- ER-7: KEKLEN = 16 gives code 3, even on a corrupt blob. -/
theorem test_unwrap_kek_error :
    nextHas (exec .unwrap (accepted stdCfg 2 40 16 (bytesAt 0 40 1)))
      (fun t => decide (t.statusWord = 0x00000032#32) && zeroBelow t.buf 40) = true := by decide +kernel
/-- KW-2, step 1 (j = 5, i = 3), under the padded provider with its cache: A and R[3] after it. -/
theorem test_unwrap_first_step :
    nextHas (step (unwrapAt1 padCfg)) (fun t => decide (t.buf.blk 0 = 0x0AEB82AE3146A90C#64)
      && decide (t.buf.blk 4 = 0x07DFE775B9687E73#64) && decide (t.i = 2) && t.pcache.valid) = true := by
  decide +kernel
/-- R129: an accumulator that differs from IV in its last bit fails. -/
theorem test_unwrap_check_fails :
    nextHas (step (checkAt 0xA6A6A6A6A6A6A6A7)) (fun t => decide (t.statusWord = 0x00000042#32) && zeroBelow t.buf 40)
      = true := by decide +kernel
/-- R130: with IV it succeeds and the key stays in block 1. -/
theorem test_unwrap_check_passes :
    nextHas (step (checkAt 0xA6A6A6A6A6A6A6A6)) (fun t => decide (t.statusWord = 0x00000002#32)
      && decide (t.buf.blk 1 = 0x0011223344556677#64)) = true := by decide +kernel

/-! ### ENC_BLOCK and DEC_BLOCK -/

/-- AD-1, with a byte behind the block that stays. -/
theorem test_encBlock :
    nextHas (exec .encBlock (accepted stdCfg 3 0 32 (bytesAt 0 17 0x00112233445566778899AABBCCDDEEFF77)))
      (fun t => decide (t.statusWord = 0x00000002#32) && decide (t.buf.read 16 = 0x77#8)
        && decide (t.buf.cipherBlock = 0x8EA2B7CA516745BFEAFC49904B496089#128)) = true := by decide +kernel
/-- AD-7: under ADAPTER_CMDS = DISABLED the word is illegal, code 5. -/
theorem test_encBlock_disabled :
    nextHas (exec .encBlock (accepted { stdCfg with adapter := .disabled } 3 0 33 c256))
      (fun t => decide (t.statusWord = 0x00000052#32) && zeroBelow t.buf 40) = true := by decide +kernel
/-- AD-2, under the padded provider without its cache. -/
theorem test_decBlock :
    nextHas (exec .decBlock
        (accepted { padCfg with padCache := .off } 4 0 32 (bytesAt 0 16 0x8EA2B7CA516745BFEAFC49904B496089)))
      (fun t => decide (t.statusWord = 0x00000002#32) && !t.pcache.valid
        && decide (t.buf.cipherBlock = 0x00112233445566778899AABBCCDDEEFF#128)) = true := by decide +kernel
/-- AD-7: KEKLEN = 0 gives code 3. -/
theorem test_decBlock_kek_error :
    nextHas (exec .decBlock (accepted stdCfg 4 0 0 c256))
      (fun t => decide (t.statusWord = 0x00000032#32) && zeroBelow t.buf 40) = true := by decide +kernel

/-! ### ZEROIZE and illegal words -/

/-- CT-1. -/
theorem test_zeroize :
    nextHas (exec .zeroize (accepted stdCfg 5 40 32 c256))
      (fun t => decide (t.statusWord = 0x00000002#32) && zeroBelow t.buf 40 && zeroBelow t.kek 32
        && decide (t.len = 0) && decide (t.keklen = 0)) = true := by decide +kernel
/-- ER-10: CMD = 0x00000011 gives code 5; LEN, KEKLEN and KEK stay. -/
theorem test_illegal_word :
    nextHas (step (accepted stdCfg 0x11 40 32 c256))
      (fun t => decide (t.statusWord = 0x00000052#32) && zeroBelow t.buf 40 && decide (t.len = 40)
        && decide (t.keklen = 32) && decide (t.kekBytes = k1)) = true := by decide +kernel

/-! ### Host accesses -/

/-- HA-1: PARAM of four configurations. -/
theorem test_param : paramWord stdCfg = 0x00000304#32 ∧ paramWord genCfg = 0x00000204#32
    ∧ paramWord { genCfg with nmax := 5 } = 0x00000205#32
    ∧ paramWord { stdCfg with adapter := .disabled } = 0x00000104#32 := by decide
/-- HA-3, HA-4: a KEK word reads zero; BUF word 10 is not implemented with NMAX = 4. -/
theorem test_read_zero : busRead (loaded stdCfg) 0x020 = 0 ∧ busRead (busWrite (loaded stdCfg) 0x068 0x12345678) 0x068 = 0 := by
  decide +kernel
/-- R52: BUF word 2 of P256 carries byte 8 in bits 31:24. -/
theorem test_read_lanes : busRead (loaded stdCfg) 0x048 = 0x00112233#32 := by decide +kernel
/-- HA-5: a misaligned read and a 16-bit write get a bus error. -/
theorem test_bus_error :
    (hostStep (loaded stdCfg) ⟨0x042, .w32, .read⟩).resp = some .busError
      ∧ (hostStep (loaded stdCfg) ⟨0x040, .w16, .write 0⟩).resp = some .busError := by decide +kernel
/-- HA-6, HA-7: while a WRAP runs BUF reads zero, and a CMD write is dropped and sets BUSYERR. -/
theorem test_busy_access :
    busRead (wrapAt1 stdCfg) 0x040 = 0 ∧ (busWrite (wrapAt1 stdCfg) 0x000 5).statusWord = 0x00000101#32
      ∧ (busWrite (wrapAt1 stdCfg) 0x000 5).cmdLatch = 1 := by decide +kernel
/-- HA-8: reset while a WRAP runs. -/
theorem test_reset_abandons :
    nextHas (step { wrapAt1 stdCfg with schedule := [.reset] })
      (fun t => decide (t.statusWord = 0) && zeroBelow t.buf 40 && decide (t.keklen = 0)) = true := by decide +kernel
/-- R171: a KEK write invalidates PCACHE even when it writes the value that stands there. -/
theorem test_kek_write_invalidates :
    (busWrite { loaded padCfg with pcache := ⟨true, k1, 0⟩ } 0x020 0x00010203).pcache.valid = false := by decide +kernel
/-- R83: LDKEK is nine writes, the first of K1 being KEK0 = 0x00010203 and the last KEKLEN = 32. -/
theorem test_ldKek : (ldKek k1).length = 9 ∧ (ldKek k1).head? = some (wr 0x020 0x00010203)
    ∧ (ldKek k1).getLast? = some (wr 0x00C 32) := by decide +kernel

/-- R83, R242: RDBUF of blocks 1 and 2, where P256 of the state of P1 begins. -/
theorem test_readBuf : (readBuf 1 2 (loaded stdCfg)).map Prod.snd =
    some [0x00, 0x11, 0x22, 0x33, 0x44, 0x55, 0x66, 0x77, 0x88, 0x99, 0xAA, 0xBB, 0xCC, 0xDD, 0xEE, 0xFF] := by decide +kernel
/-- R161: RUN of the illegal word 0x00000011 gives s = 0x00000052. -/
theorem test_runCmd_illegal : (runCmd 2 0x00000011 (loaded stdCfg)).map Prod.snd = some 0x00000052#32 := by decide +kernel
/-- R160: RUN ZEROIZE gives s = 0x00000002. -/
theorem test_runCmd_zeroize : (runCmd 2 (encode .zeroize) (loaded stdCfg)).map Prod.snd = some 0x00000002#32 := by
  decide +kernel

/-! ### Witnesses: the hypotheses of each statement are met together -/

/-- The invariant, checked field by field, of a state whose PCACHE is invalid. -/
def invCheck (s : State) : Bool :=
  s.cfg.wf && s.buf.wf && s.buf.below s.cfg.bufBytes && s.kek.wf && s.kek.below 32
    && (decide (s.phase = .idle) || decide (s.phase = .decode)
      || (decide (2 ≤ s.n) && decide (s.n ≤ s.cfg.nmax) && decide (s.j ≤ 5) && decide (s.i < s.n)))
    && (!s.done || decide (s.phase = .idle)) && (decide (s.errcode = .noError) || s.done) && !s.pcache.valid
    && (decide (s.phase ≠ .wrapLoop) || (decide (s.cmdLatch = encode .wrap) && wrapLenOK s.cfg s.len && s.kekLenOK
      && decide (s.n = wrapCount s.len)))
    && (decide (s.phase ≠ .unwrapLoop ∧ s.phase ≠ .unwrapCheck) || (decide (s.cmdLatch = encode .unwrap)
      && unwrapLenOK s.cfg s.len && s.kekLenOK && decide (s.n = unwrapCount s.len)))

theorem inv_of_invCheck {s : State} (h : invCheck s = true) : Inv s := by
  simp only [invCheck, Bool.and_eq_true, Bool.or_eq_true, decide_eq_true_eq, Bool.not_eq_true'] at h
  obtain ⟨⟨⟨⟨⟨⟨⟨⟨⟨⟨h1, h2⟩, h3⟩, h4⟩, h5⟩, h6⟩, h7⟩, h8⟩, h9⟩, h10⟩, h11⟩ := h
  refine ⟨h1, h2, h3, h4, h5, fun hp => ?_, fun hd => ?_, fun he => ?_, fun hv => ?_, fun hv => ?_, fun hp => ?_,
    fun hp => ?_⟩
  · rcases h6 with (h6 | h6) | h6
    · rcases hp with hp | hp | hp <;> simp [h6] at hp
    · rcases hp with hp | hp | hp <;> simp [h6] at hp
    · exact ⟨⟨h6.1.1.1, h6.1.1.2⟩, h6.1.2, h6.2⟩
  · rcases h7 with h7 | h7
    · simp [hd] at h7
    · exact h7
  · rcases h8 with h8 | h8
    · exact absurd h8 he
    · exact h8
  · simp [hv] at h9
  · simp [hv] at h9
  · rcases h10 with h10 | h10
    · exact absurd hp h10
    · exact ⟨h10.1.1.1, h10.1.1.2, h10.1.2, h10.2⟩
  · rcases h11 with h11 | h11
    · rcases hp with hp | hp
      · exact absurd hp h11.1
      · exact absurd hp h11.2
    · exact ⟨h11.1.1.1, h11.1.1.2, h11.1.2, h11.2⟩

theorem sound_of_invalid {c : Config} {pc : PCache} (h : pc.valid = false) : pc.Sound c := fun hv => by simp [h] at hv

/-- The state with one host access to come. -/
def withAccess (s : State) (off : BitVec 9) (w : AccessWidth) (op : AccessOp) : State :=
  s.withSchedule [.host ⟨off, w, op⟩]

/-- The hypotheses of the statements about an admitted host access. -/
def meetsAccess (s : State) (off : BitVec 9) (op : AccessOp) : Prop :=
  s.cfg.wf = true ∧ s.hostNext ⟨off, .w32, op⟩ [] ∧ off.toNat % 4 = 0

/-- The hypotheses of the statements about an engine step in a phase. -/
def meetsEngine (s : State) (p : Phase) : Prop := s.cfg.wf = true ∧ s.engineNext [] ∧ s.phase = p

theorem witness_ResetStateHoldsResetValues : Instr.encBlock ≠ .zeroize ∧ Instr.encBlock.wf stdCfg = true
    ∧ Instr.wrap.wf stdCfg = true ∧ wrapLenOK stdCfg 32 = true ∧ unwrapLenOK stdCfg 40 = true := by decide

theorem witness_ResetStepErasesAndAbandons :
    ((wrapAt1 stdCfg).withSchedule [.reset]).cfg.wf = true ∧ ((wrapAt1 stdCfg).withSchedule [.reset]).resetNext [] :=
  ⟨rfl, rfl⟩

/-- Each of the three conditions of R9 fails alone, and the boundary values 2, 31 and LIBRARY with 4 are admitted. -/
theorem witness_IllFormedConfigurationIsRefused :
    ¬ (2 ≤ (1 : Nat)) ∧ ¬ ((32 : Nat) ≤ 31) ∧ ¬ (stdCfg.policy = .library → 4 ≤ (3 : Nat))
      ∧ ¬ ({ stdCfg with padCache := .on }.padCache = .on → stdCfg.provider = .padded)
      ∧ Config.wf { genCfg with nmax := 2 } = true ∧ Config.wf { genCfg with nmax := 31 } = true ∧ stdCfg.wf = true
      ∧ padCfg.wf = true := by decide

theorem witness_DecodedCommandIsExecuted :
    meetsEngine (accepted stdCfg 1 32 32 []) .decode ∧ decode (accepted stdCfg 1 32 32 []).cmdLatch = .instr .wrap
      ∧ State.reset.cfg.wf = true ∧ decodeTableWord 32 0x00000005 = some .zeroize :=
  ⟨⟨rfl, rfl, rfl⟩, by decide, by decide, by decide⟩

theorem witness_DecodeAgreesWithOpcodeTable : decode 0x00000004#32 = .instr .decBlock := by decide

/-- An illegal word about to be accepted and then decoded, and a disabled ENC_BLOCK. -/
theorem witness_LegalWordsAreExactlyFive :
    let s := (loaded stdCfg).withSchedule [.host ⟨0x000, .w32, .write 0x80000001⟩, .engine]
    s.cfg.wf = true ∧ s.phase = .idle ∧ legal s.cfg 0x80000001#32 = false
      ∧ legal { stdCfg with adapter := .disabled } 0x00000003#32 = false := by decide

theorem witness_IllegalWordFails :
    meetsEngine (accepted stdCfg 0x11 0 0 c256) .decode ∧ legal stdCfg 0x11 = false := ⟨⟨rfl, rfl, rfl⟩, by decide⟩

/-- A CMD write while idle, and one while a WRAP runs. -/
theorem witness_CmdWriteIsAccepted :
    meetsAccess (withAccess (loaded stdCfg) 0x000 .w32 (.write 1)) 0x000 (.write 1)
      ∧ (withAccess (loaded stdCfg) 0x000 .w32 (.write 1)).phase = .idle
      ∧ meetsAccess (withAccess (wrapAt1 stdCfg) 0x000 .w32 (.write 5)) 0x000 (.write 5)
      ∧ (withAccess (wrapAt1 stdCfg) 0x000 .w32 (.write 5)).phase ≠ .idle :=
  ⟨⟨rfl, rfl, rfl⟩, rfl, ⟨rfl, rfl, rfl⟩, by decide⟩

/-- Every clause at the ends of its range, NMAX = 4: CMD, LEN, KEKLEN, KEK0, KEK7, BUF0, BUF9 are writable, STATUS, PARAM,
0x01C, BUF10 and 0x1FC are not; and busy as well as idle. -/
theorem witness_HostWriteEffects :
    (∀ off ∈ ([0x000, 0x004, 0x008, 0x00C, 0x010, 0x01C, 0x020, 0x03C, 0x040, 0x064, 0x068, 0x1FC] : List (BitVec 9)),
      meetsAccess (withAccess (loaded stdCfg) off .w32 (.write 7)) off (.write 7)
        ∧ meetsAccess (withAccess (wrapAt1 stdCfg) off .w32 (.write 7)) off (.write 7))
      ∧ (loaded stdCfg).busy = false ∧ (wrapAt1 stdCfg).busy = true
      ∧ ([0x000, 0x008, 0x00C, 0x020, 0x03C, 0x040, 0x064] : List Nat).all (fun o => (regAt stdCfg o).writable) = true
      ∧ ([0x004, 0x010, 0x01C, 0x068, 0x1FC] : List Nat).all (fun o => !(regAt stdCfg o).writable) = true := by
  refine ⟨fun off h => ?_, by decide, by decide, by decide, by decide⟩
  simp only [List.mem_cons, List.not_mem_nil, or_false] at h
  rcases h with rfl | rfl | rfl | rfl | rfl | rfl | rfl | rfl | rfl | rfl | rfl | rfl <;>
    exact ⟨⟨rfl, rfl, rfl⟩, ⟨rfl, rfl, rfl⟩⟩

/-- The same offsets for reads. -/
theorem witness_HostReadReturns :
    ∀ off ∈ ([0x000, 0x004, 0x008, 0x00C, 0x010, 0x020, 0x040, 0x064, 0x068, 0x1FC] : List (BitVec 9)),
      meetsAccess (withAccess (loaded stdCfg) off .w32 .read) off .read
        ∧ meetsAccess (withAccess (wrapAt1 stdCfg) off .w32 .read) off .read := by
  intro off h
  simp only [List.mem_cons, List.not_mem_nil, or_false] at h
  rcases h with rfl | rfl | rfl | rfl | rfl | rfl | rfl | rfl | rfl | rfl <;>
    exact ⟨⟨rfl, rfl, rfl⟩, ⟨rfl, rfl, rfl⟩⟩

/-- HA-5, and the last byte of the window. -/
theorem witness_BusErrorHasNoEffect :
    (withAccess (loaded stdCfg) 0x042 .w32 .read).hostNext ⟨0x042, .w32, .read⟩ [] ∧ (0x042#9).toNat % 4 ≠ 0
      ∧ (withAccess (wrapAt1 stdCfg) 0x040 .w16 (.write 0)).hostNext ⟨0x040, .w16, .write 0⟩ []
      ∧ AccessWidth.w16 ≠ .w32 ∧ windowOffset stdCfg 0x400001FF = some 0x1FF ∧ windowOffset stdCfg 0x40000200 = none
      ∧ windowOffset stdCfg 0x3FFFFFFF = none :=
  ⟨rfl, by decide, rfl, by decide, by decide, by decide, by decide⟩

/-- BUF9 is the last implemented word with NMAX = 4, BUF10 the first that is not, and BUF63 the last of the window. -/
theorem witness_BufWordWriteThenRead :
    ∀ k ∈ [9, 10, 63], let s := (loaded stdCfg).withSchedule [wr (offBUF k) 7, rd (offBUF k)]
      s.cfg.wf = true ∧ s.phase = .idle ∧ k < 64 ∧ s.schedule = wr (offBUF k) 7 :: rd (offBUF k) :: [] := by decide

theorem witness_LdKekLoadsKey : let s := (State.resetOf stdCfg).withSchedule (ldKek k1)
    s.cfg.wf = true ∧ s.phase = .idle ∧ s.schedule = ldKek k1 ++ [] := ⟨rfl, rfl, by simp⟩

theorem witness_ParamWordFields : stdCfg.wf = true := by decide

/-- LIBRARY: 32; GENERAL with NMAX = 4: 16 and 32 at the ends. -/
theorem witness_LegalLengths : stdCfg.wf = true ∧ wrapLenOK stdCfg 32 = true ∧ genCfg.wf = true
    ∧ wrapLenOK genCfg 16 = true ∧ wrapLenOK genCfg 32 = true := by decide

/-- S-3: the counters 1 and 24 of n = 4, and 186 of n = 31. -/
theorem witness_StepCounterCoversOneToSixN : stepCounter 4 0 0 = 1 ∧ stepCounter 4 5 3 = 24 ∧ stepCounter 31 5 30 = 186 := by
  decide

/-- Each clause: a length error, a KEK length error, and valid operands. -/
theorem witness_WrapDecodeStep : wrapLenOK stdCfg 31 = false ∧ wrapLenOK stdCfg 32 = true ∧ (33#32 : Word) ≠ 32#32
    ∧ (loaded stdCfg).keklen = 32#32 := by decide

theorem witness_UnwrapDecodeStep : unwrapLenOK stdCfg 32 = false ∧ unwrapLenOK stdCfg 40 = true ∧ (16#32 : Word) ≠ 32#32
    ∧ (accepted stdCfg 2 40 32 c256).keklen = 32#32 := by decide

theorem witness_EncBlockEffect : { stdCfg with adapter := .disabled }.adapter = .disabled ∧ stdCfg.adapter = .enabled
    ∧ (accepted stdCfg 3 0 33 c256).keklen ≠ 32#32 ∧ (accepted stdCfg 3 0 32 c256).keklen = 32#32 := by decide

/-- With PCACHE invalid, and with PCACHE valid for the zero key. -/
theorem witness_DecBlockEffect : (accepted stdCfg 4 0 32 c256).pcache.Sound stdCfg
    ∧ PCache.Sound padCfg ⟨true, 0, aes256Enc 0 padBlock⟩ ∧ (accepted stdCfg 4 0 32 c256).keklen = 32#32 :=
  ⟨sound_of_invalid rfl, fun _ => ⟨rfl, rfl, rfl⟩, rfl⟩

/-- A step inside a round, the last of a round and the last of all. -/
theorem witness_WrapLoopStepEffect :
    meetsEngine (wrapAt1 stdCfg) .wrapLoop ∧ (wrapAt1 stdCfg).i + 1 < (wrapAt1 stdCfg).n
      ∧ meetsEngine { wrapAt1 stdCfg with i := 3 } .wrapLoop ∧ ¬ (3 + 1 < (wrapAt1 stdCfg).n) ∧ (wrapAt1 stdCfg).j < 5
      ∧ meetsEngine { wrapAt1 stdCfg with i := 3, j := 5 } .wrapLoop :=
  ⟨⟨rfl, rfl, rfl⟩, by decide, ⟨rfl, rfl, rfl⟩, by decide, by decide, ⟨rfl, rfl, rfl⟩⟩

theorem witness_UnwrapLoopStepEffect :
    meetsEngine (unwrapAt1 stdCfg) .unwrapLoop ∧ 0 < (unwrapAt1 stdCfg).i
      ∧ meetsEngine { unwrapAt1 stdCfg with i := 0 } .unwrapLoop ∧ 0 < (unwrapAt1 stdCfg).j
      ∧ meetsEngine { unwrapAt1 stdCfg with i := 0, j := 0 } .unwrapLoop ∧ (unwrapAt1 stdCfg).pcache.Sound stdCfg :=
  ⟨⟨rfl, rfl, rfl⟩, by decide, ⟨rfl, rfl, rfl⟩, by decide, ⟨rfl, rfl, rfl⟩, sound_of_invalid rfl⟩

theorem witness_UnwrapCheckEffect :
    meetsEngine (checkAt 0xA6A6A6A6A6A6A6A6) .unwrapCheck ∧ (checkAt 0xA6A6A6A6A6A6A6A6).buf.blk 0 = 0xA6A6A6A6A6A6A6A6#64
      ∧ meetsEngine (checkAt 0x26A6A6A6A6A6A6A6) .unwrapCheck
      ∧ (checkAt 0x26A6A6A6A6A6A6A6).buf.blk 0 ≠ 0xA6A6A6A6A6A6A6A6#64 :=
  ⟨⟨rfl, rfl, rfl⟩, by decide +kernel, ⟨rfl, rfl, rfl⟩, by decide +kernel⟩

theorem witness_SboxIsAffineOfInverse : (0x01#8 : Byte) ≠ 0x00#8 := by decide

theorem witness_PaddedProviderEqualsRaw :
    PCache.Sound padCfg ⟨true, 0, aes256Enc 0 padBlock⟩ ∧ PCache.Sound stdCfg ⟨false, 0, 0⟩ :=
  ⟨fun _ => ⟨rfl, rfl, rfl⟩, sound_of_invalid rfl⟩

/-- A RAW machine and a PADDED one with a warm PCACHE. -/
theorem witness_ProviderIsUnobservable :
    (unwrapAt1 stdCfg).cfg.wf = true
      ∧ Config.wf { (unwrapAt1 stdCfg).cfg with provider := .padded, padCache := .on } = true
      ∧ (unwrapAt1 stdCfg).pcache.Sound (unwrapAt1 stdCfg).cfg
      ∧ PCache.Sound { (unwrapAt1 stdCfg).cfg with provider := .padded, padCache := .on } ⟨true, 0, aes256Enc 0 padBlock⟩ :=
  ⟨rfl, rfl, sound_of_invalid rfl, fun _ => ⟨rfl, rfl, rfl⟩⟩

/-- The clauses for RAW, for PADDED without a cache, and for a hit. -/
theorem witness_AdapterWorkCounts :
    stdCfg.provider = .raw ∧ { padCfg with padCache := .off }.provider = .padded
      ∧ { padCfg with padCache := .off }.padCache = .off ∧ PCache.hit padCfg ⟨true, 0, 0⟩ 0 = true := by decide

/-- Each error of DECODE, and the check: the states exist and step. -/
theorem witness_ErrorPriority :
    (∀ s ∈ [accepted stdCfg 0x11 31 0 c256, accepted stdCfg 1 31 0 c256, accepted stdCfg 2 32 0 c256,
        accepted stdCfg 3 0 33 c256, accepted stdCfg 5 0 0 c256],
      Inv s ∧ s.engineNext [] ∧ nextHas (step s) (fun _ => true) = true ∧ s.phase = .decode)
    ∧ Inv (checkAt 0xA6A6A6A6A6A6A6A7) ∧ (checkAt 0xA6A6A6A6A6A6A6A7).engineNext []
    ∧ nextHas (step (checkAt 0xA6A6A6A6A6A6A6A7)) (fun t => decide (t.errcode = .integrityCheckFailed)) = true := by
  refine ⟨fun s h => ?_, inv_of_invCheck (by decide +kernel), rfl, by decide +kernel⟩
  simp only [List.mem_cons, List.not_mem_nil, or_false] at h
  rcases h with rfl | rfl | rfl | rfl | rfl <;>
    exact ⟨inv_of_invCheck (by decide +kernel), rfl, by decide +kernel, rfl⟩

theorem witness_FailedCommandLeavesNothing :
    Inv (accepted stdCfg 0x11 0 0 c256) ∧ (accepted stdCfg 0x11 0 0 c256).busy = true
      ∧ nextHas (step (accepted stdCfg 0x11 0 0 c256)) (fun t => !t.busy && decide (t.errcode ≠ .noError)) = true :=
  ⟨inv_of_invCheck (by decide +kernel), by decide, by decide +kernel⟩

/-- A step that sets BUSY, one that clears it and sets DONE and ERRCODE, one that clears DONE, ERRCODE and BUSYERR, one that
sets BUSYERR, and a reset. -/
theorem witness_FlagsChangeOnlyAsStated :
    let failed : State := { loaded stdCfg with done := true, errcode := .illegalCommand, busyErr := true }
    (Inv (withAccess failed 0x000 .w32 (.write 1))
      ∧ nextHas (step (withAccess failed 0x000 .w32 (.write 1)))
        (fun t => t.busy && !t.done && !t.busyErr && decide (t.errcode = .noError)) = true)
    ∧ (Inv (accepted stdCfg 0x11 0 0 c256)
      ∧ nextHas (step (accepted stdCfg 0x11 0 0 c256)) (fun t => !t.busy && t.done && decide (t.errcode ≠ .noError)) = true)
    ∧ (Inv (withAccess (wrapAt1 stdCfg) 0x000 .w32 (.write 1))
      ∧ nextHas (step (withAccess (wrapAt1 stdCfg) 0x000 .w32 (.write 1))) (fun t => t.busyErr) = true)
    ∧ (Inv (failed.withSchedule [.reset])
      ∧ nextHas (step (failed.withSchedule [.reset])) (fun t => !t.done && !t.busyErr) = true) :=
  ⟨⟨inv_of_invCheck (by decide +kernel), by decide +kernel⟩, ⟨inv_of_invCheck (by decide +kernel), by decide +kernel⟩,
    ⟨inv_of_invCheck (by decide +kernel), by decide +kernel⟩, ⟨inv_of_invCheck (by decide +kernel), by decide +kernel⟩⟩

/-- Steps that change KEK, LEN, KEKLEN, BUF and CMDLATCH. -/
theorem witness_OperandsChangeOnlyByTheirWriters :
    nextHas (step (withAccess (loaded stdCfg) 0x03C .w32 (.write 7)))
        (fun t => decide (t.kek ≠ (loaded stdCfg).kek)) = true
      ∧ nextHas (step (withAccess (loaded stdCfg) 0x008 .w32 (.write 7))) (fun t => decide (t.len ≠ 32)) = true
      ∧ nextHas (step (withAccess (loaded stdCfg) 0x00C .w32 (.write 7))) (fun t => decide (t.keklen ≠ 32)) = true
      ∧ nextHas (step (withAccess (loaded stdCfg) 0x064 .w32 (.write 7)))
        (fun t => decide (t.buf ≠ (loaded stdCfg).buf)) = true
      ∧ nextHas (step (withAccess (loaded stdCfg) 0x000 .w32 (.write 7))) (fun t => decide (t.cmdLatch ≠ 0)) = true
      ∧ nextHas (step (accepted stdCfg 5 32 32 c256)) (fun t => decide (t.kek ≠ (loaded stdCfg).kek)) = true := by
  decide +kernel

theorem witness_StatusShowsBusyOrDone :
    Inv (withAccess (loaded stdCfg) 0x000 .w32 (.write 1))
      ∧ (withAccess (loaded stdCfg) 0x000 .w32 (.write 1)).acceptNext 1
      ∧ (¬ ∃ es, (withAccess (loaded stdCfg) 0x000 .w32 (.write 1)).resetNext es)
      ∧ nextHas (step (withAccess (loaded stdCfg) 0x000 .w32 (.write 1))) (fun _ => true) = true :=
  ⟨inv_of_invCheck (by decide +kernel), ⟨rfl, [], rfl⟩, (by rintro ⟨es, h⟩; cases h), by decide +kernel⟩

theorem witness_InvariantHoldsAtReset : stdCfg.wf = true ∧ padCfg.wf = true := by decide

/-- The invariant holds in every phase, and with a valid PCACHE. -/
theorem witness_InvariantKeptByEveryStep :
    Inv (loaded stdCfg) ∧ Inv (accepted stdCfg 1 32 32 c256) ∧ Inv (wrapAt1 stdCfg) ∧ Inv (unwrapAt1 stdCfg)
      ∧ Inv (checkAt 0xA6A6A6A6A6A6A6A6) ∧ Inv { State.resetOf padCfg with pcache := ⟨true, 0, aes256Enc 0 padBlock⟩ } :=
  ⟨inv_of_invCheck (by decide +kernel), inv_of_invCheck (by decide +kernel), inv_of_invCheck (by decide +kernel),
    inv_of_invCheck (by decide +kernel), inv_of_invCheck (by decide +kernel),
    { inv_of_invCheck (s := State.resetOf padCfg) (by decide +kernel) with
      pcacheSound := fun _ => ⟨rfl, rfl, rfl⟩
      pcacheKey := fun _ => rfl }⟩

theorem witness_EveryStepAnswersNext : Inv (loaded stdCfg) := inv_of_invCheck (by decide +kernel)

theorem witness_WrapRunComputesKeyWrap : let s := accepted stdCfg 1 32 32 c256
    s.cfg.wf = true ∧ s.schedule = [] ∧ s.phase = .decode ∧ s.cmdLatch = 0x00000001#32 ∧ wrapLenOK s.cfg s.len = true
      ∧ s.keklen = 32#32 := ⟨rfl, rfl, rfl, rfl, by decide, rfl⟩

/-- LIBRARY with n = 4 and GENERAL with the smallest n, 2. -/
theorem witness_UnwrapRunComputesKeyUnwrap :
    ∀ c ∈ [(stdCfg, 40#32), (genCfg, 24#32)], let s := accepted c.1 2 c.2 32 c256
      s.cfg.wf = true ∧ s.schedule = [] ∧ s.phase = .decode ∧ s.cmdLatch = 0x00000002#32
        ∧ unwrapLenOK s.cfg s.len = true ∧ s.keklen = 32#32 ∧ s.pcache.Sound s.cfg := by
  intro c h
  simp only [List.mem_cons, List.not_mem_nil, or_false] at h
  rcases h with rfl | rfl <;> exact ⟨rfl, rfl, rfl, rfl, by decide, rfl, sound_of_invalid rfl⟩

theorem witness_UnwrapUndoesWrap :
    let s := (loaded stdCfg).withSchedule ([wrCmd .wrap] ++ List.replicate (1 + 6 * 4) .engine
      ++ [wr offLEN (32#32 + 8#32), wrCmd .unwrap] ++ List.replicate (1 + 6 * 4 + 1) .engine)
    Inv s ∧ s.phase = .idle ∧ wrapLenOK s.cfg s.len = true ∧ s.keklen = 32#32 ∧ s.len.toNat / 8 = 4 :=
  ⟨{ inv_of_invCheck (s := loaded stdCfg) (by decide +kernel) with }, rfl, by decide, rfl, by decide⟩

theorem witness_AcceptedCommandCompletes :
    Inv (accepted stdCfg 1 32 32 c256) ∧ (accepted stdCfg 1 32 32 c256).schedule = []
      ∧ (accepted stdCfg 1 32 32 c256).busy = true := ⟨inv_of_invCheck (by decide +kernel), rfl, by decide⟩

theorem witness_PollTerminates : Inv (wrapAt1 stdCfg) ∧ (wrapAt1 stdCfg).schedule = [] :=
  ⟨inv_of_invCheck (by decide +kernel), rfl⟩

theorem witness_BusyReadsRevealNothing : (wrapAt1 stdCfg).busy = true ∧ Phase.unwrapLoop ≠ .idle := by decide

theorem witness_ControlFlowIgnoresSecrets :
    (unwrapAt1 padCfg).cfg.wf = true ∧ (unwrapAt1 padCfg).pcache.Sound (unwrapAt1 padCfg).cfg
      ∧ PCache.Sound (unwrapAt1 padCfg).cfg ⟨true, 0, aes256Enc 0 padBlock⟩ :=
  ⟨rfl, sound_of_invalid rfl, fun _ => ⟨rfl, rfl, rfl⟩⟩

/-- An UNWRAP of a blob under K1, and the same with another PCACHE. (That two such runs both fail: KW-5 to KW-9 of the spec;
`test_unwrap_check_fails` shows the failing check.) -/
theorem witness_IntegrityFailuresIndistinguishable : let s := accepted stdCfg 2 40 32 (bytesAt 0 40 1)
    s.cfg.wf = true ∧ s.schedule = [] ∧ s.phase = .decode ∧ s.cmdLatch = 0x00000002#32
      ∧ unwrapLenOK s.cfg s.len = true ∧ s.keklen = 32#32 ∧ s.pcache.Sound s.cfg
      ∧ PCache.Sound s.cfg ⟨false, 0, 0⟩ :=
  ⟨rfl, rfl, rfl, rfl, by decide, rfl, sound_of_invalid rfl, sound_of_invalid rfl⟩

theorem witness_LdBufStoresString : let xs := bytesOf 16 0x00112233445566778899AABBCCDDEEFF
    let s := (State.resetOf stdCfg).withSchedule (ldBuf 3 xs)
    s.cfg.wf = true ∧ s.phase = .idle ∧ xs.length = 8 * 2 ∧ 3 + 2 ≤ s.cfg.nmax + 1 ∧ s.schedule = ldBuf 3 xs ++ [] := by
  decide

/-- The last block of BUF, in an idle and in a busy state. -/
theorem witness_RdBufGivesString : (loaded stdCfg).cfg.wf = true ∧ 4 + 1 ≤ (loaded stdCfg).cfg.nmax + 1
    ∧ (loaded stdCfg).busy = false ∧ (wrapAt1 stdCfg).cfg.wf = true ∧ (wrapAt1 stdCfg).busy = true := by decide

theorem witness_RunEndsWithDone : Inv (loaded stdCfg) ∧ (loaded stdCfg).schedule = [] ∧ (loaded stdCfg).phase = .idle
    ∧ legal (loaded stdCfg).cfg 0x00000011 = false :=
  ⟨inv_of_invCheck (by decide +kernel), rfl, rfl, by decide⟩

end Sys2Proof.Tests
end

section
/-! SUPPORT. The inverse cipher undoes the cipher (R140, R190, R191). -/

namespace Sys2Proof.Machine.Aes

/-- An inverse round undoes a round, seen through the ShiftRows and SubBytes of the next one. -/
theorem decRound_encRound (ws : List Column) (r : Nat) (s : Matrix) :
    decRound ws r (shiftRows (subBytes (encRound ws r s))) = shiftRows (subBytes s) := by
  simp [decRound, encRound]

theorem decRounds_encRounds (ws : List Column) (m : Nat) (s : Matrix) :
    decRounds ws m (shiftRows (subBytes (encRounds ws m s))) = shiftRows (subBytes s) := by
  induction m with
  | zero => rfl
  | succ m ih => rw [encRounds, decRounds, decRound_encRound, ih]

/-- R140: decrypting an encrypted block gives the block. -/
theorem aes256Dec_aes256Enc (k : Key) (x : CipherBlock) : aes256Dec k (aes256Enc k x) = x := by
  simp [aes256Dec, aes256Enc, decRounds_encRounds]

end Sys2Proof.Machine.Aes
end

section
/-! SUPPORT. With a sound PCACHE, BlockDecrypt is `AES256_Dec` under either provider and leaves PCACHE sound (R142, R152,
R153). -/

namespace Sys2Proof.Machine

open Sys2Proof.Machine.Aes

/-- R33, R152: from a sound PCACHE or by an encrypt, the padding ciphertext is the same. -/
theorem paddingCiphertext_of_sound {c : Config} {pc : PCache} (h : pc.Sound c) (k : Key) :
    paddingCiphertext c pc k = aes256Enc k padBlock := by
  unfold paddingCiphertext
  split
  · rename_i hit
    simp only [PCache.hit, Bool.and_eq_true, decide_eq_true_eq] at hit
    obtain ⟨⟨-, hvalid⟩, rfl⟩ := hit
    obtain ⟨-, -, hvalue⟩ := h hvalid
    exact hvalue
  · exact blockEncrypt_eq c k padBlock

/-- R153: the provider decrypts a block followed by the padding ciphertext without a padding error. -/
theorem providerEcbDecrypt_paddingCiphertext (k : Key) (y : CipherBlock) :
    providerEcbDecrypt k y [aes256Enc k padBlock] = some (bytesOf 16 (aes256Dec k y).toNat) := by
  simp [providerEcbDecrypt, providerPlainBytes, aes256Dec_aes256Enc, stripPadding_padBlock]

/-- R142, R153: with a sound PCACHE, BlockDecrypt always has a value, the one of `AES256_Dec`. -/
theorem blockDecrypt_of_sound {c : Config} {pc : PCache} (h : pc.Sound c) (k : Key) (y : CipherBlock) :
    ∃ pc', blockDecrypt c pc k y = some (aes256Dec k y, pc') := by
  cases hp : c.provider with
  | raw => exact ⟨pc, blockDecrypt_raw hp pc k y⟩
  | padded =>
    have hdec : BitVec.ofNat 128 (be (bytesOf 16 (aes256Dec k y).toNat)) = aes256Dec k y := ofNat_be_bytesOf 16 _
    exact ⟨pc.update c k, by
      simp [blockDecrypt, hp, paddingCiphertext_of_sound h, providerEcbDecrypt_paddingCiphertext, hdec]⟩

theorem PCache.Sound.update {c : Config} {pc : PCache} (h : pc.Sound c) (hp : c.provider = .padded) (k : Key) :
    (pc.update c k).Sound c := by
  unfold PCache.update
  split_ifs with hit hon
  · exact h
  · exact fun _ => ⟨hp, hon, blockEncrypt_eq c k padBlock⟩
  · exact h

/-- R33: a BlockDecrypt leaves a sound PCACHE sound. -/
theorem PCache.Sound.blockDecrypt {c : Config} {pc pc' : PCache} {k : Key} {y x : CipherBlock} (h : pc.Sound c)
    (hd : blockDecrypt c pc k y = some (x, pc')) : pc'.Sound c := by
  rcases blockDecrypt_pcache hd with rfl | ⟨hp, rfl⟩
  · exact h
  · exact h.update hp k

end Sys2Proof.Machine
end

section
/-! SUPPORT. Well-formed configurations and the legal lengths as arithmetic (R9, R120, R126), and the step counter along
the loops (R104, R105, R121). -/

namespace Sys2Proof

/-- R9, as the rule writes it. -/
theorem Config.wf_iff (c : Config) :
    c.wf = true ↔ (2 ≤ c.nmax ∧ c.nmax ≤ 31) ∧ (c.policy = .library → 4 ≤ c.nmax)
      ∧ (c.padCache = .on → c.provider = .padded) := by
  cases hpol : c.policy <;> cases hpad : c.padCache <;> simp [Config.wf, hpol, hpad, and_assoc]

end Sys2Proof

namespace Sys2Proof.Machine

/-- R120: a legal WRAP has 2 to NMAX registers. -/
theorem wrapCount_range {c : Config} (hc : c.wf = true) {len : Word} (h : wrapLenOK c len = true) :
    2 ≤ wrapCount len ∧ wrapCount len ≤ c.nmax := by
  obtain ⟨-, hlib, -⟩ := (Config.wf_iff c).mp hc
  unfold wrapLenOK at h
  unfold wrapCount
  split at h <;> rename_i hpol <;> simp only [Bool.and_eq_true, decide_eq_true_eq] at h
  · have := hlib hpol
    omega
  · omega

/-- R126: a legal UNWRAP has 2 to NMAX registers. -/
theorem unwrapCount_range {c : Config} (hc : c.wf = true) {len : Word} (h : unwrapLenOK c len = true) :
    2 ≤ unwrapCount len ∧ unwrapCount len ≤ c.nmax := by
  obtain ⟨-, hlib, -⟩ := (Config.wf_iff c).mp hc
  unfold unwrapLenOK at h
  unfold unwrapCount
  split at h <;> rename_i hpol <;> simp only [Bool.and_eq_true, decide_eq_true_eq] at h
  · have := hlib hpol
    omega
  · omega

/-- R121: in six rounds of n steps the counter does not pass 6·n. -/
theorem stepCounter_le {n j i : Nat} (hj : j ≤ 5) (hi : i < n) : stepCounter n j i ≤ 6 * n := by
  have : n * j ≤ n * 5 := Nat.mul_le_mul_left n hj
  unfold stepCounter
  omega

/-- R104: the next block of a round has the next counter. -/
theorem stepCounter_succ (n j i : Nat) : stepCounter n j (i + 1) = stepCounter n j i + 1 := rfl

/-- R104: the first block of the next round has the counter after that of the last block. -/
theorem stepCounter_succ_zero (n j : Nat) (hn : 0 < n) : stepCounter n (j + 1) 0 = stepCounter n j (n - 1) + 1 := by
  have : n * (j + 1) = n * j + n := Nat.mul_succ n j
  unfold stepCounter
  omega

end Sys2Proof.Machine
end

section
/-! O3. Exactly the ill-formed configurations are refused (R9): no meaning answers a refusal. -/

namespace Sys2Proof.Machine

theorem exec_not_refused (i : Instr) (s : State) (r : Refusal) : exec i s ≠ .refused r := by
  cases i with
  | wrap => rcases execWrap_cases s with ⟨_, e⟩ | ⟨_, _, e⟩ | ⟨_, _, e⟩ <;> simp [e]
  | unwrap => rcases execUnwrap_cases s with ⟨_, e⟩ | ⟨_, _, e⟩ | ⟨_, _, e⟩ <;> simp [e]
  | encBlock => rcases execEncBlock_cases s with ⟨_, e⟩ | ⟨_, _, e⟩ | ⟨_, _, e⟩ <;> simp [e]
  | decBlock =>
    rcases execDecBlock_cases s with ⟨_, e⟩ | ⟨_, _, e⟩ | ⟨_, _, _, e⟩ | ⟨_, _, _, _, _, e⟩ <;> simp [e]
  | zeroize => simp

theorem engineStep_not_refused (s : State) (r : Refusal) : engineStep s ≠ .refused r := by
  cases hp : s.phase with
  | idle => simp [engineStep_idle hp]
  | decode =>
    rcases engineStep_decode hp with ⟨i, -, -, e⟩ | ⟨-, e⟩
    · rw [e]
      exact exec_not_refused i s r
    · simp [e]
  | wrapLoop => simp [engineStep_wrapLoop hp]
  | unwrapLoop => rcases unwrapLoopStep_cases s with ⟨_, e⟩ | ⟨_, _, _, e⟩ <;> simp [engineStep_unwrapLoop hp, e]
  | unwrapCheck => simp [engineStep_unwrapCheck hp]

/-- R9: with a well-formed configuration no event's step is refused. -/
theorem step_not_refused {s : State} (hw : s.cfg.wf = true) (r : Refusal) : step s ≠ .refused r := by
  rcases next_cases s with ⟨a, es, h⟩ | ⟨es, h⟩ | ⟨es, h⟩
  · simp [step_of_hostNext hw h]
  · rw [step_of_engineNext hw h]
    exact engineStep_not_refused _ r
  · simp [step_of_resetNext hw h]

/-- Settles O3: the well-formedness test is R9's condition, and only that test refuses. -/
theorem illFormedConfigurationIsRefused : Obligations.IllFormedConfigurationIsRefused := by
  unfold Obligations.IllFormedConfigurationIsRefused
  intro s ok
  have hok : s.cfg.wf = true ↔ ok := Config.wf_iff s.cfg
  refine ⟨fun hn => step_refused ?_, fun h => step_not_refused (hok.mpr h)⟩
  rwa [← hok, Bool.not_eq_true] at hn

end Sys2Proof.Machine
end

section
/-! O43. An accepted command completes (R17, R109): every engine step of a busy state lowers the number of steps left, which
is at most 1 + 6·31 + 1, and the step that ends the command sets DONE. -/

namespace Sys2Proof.Machine

/-! ### One lemma per field that storing a cipher output keeps (R123, R128) -/

@[simp] theorem wrapStoreB_cfg (s : State) (b : CipherBlock) : (wrapStoreB s b).cfg = s.cfg := rfl
@[simp] theorem wrapStoreB_phase (s : State) (b : CipherBlock) : (wrapStoreB s b).phase = s.phase := rfl
@[simp] theorem wrapStoreB_n (s : State) (b : CipherBlock) : (wrapStoreB s b).n = s.n := rfl
@[simp] theorem wrapStoreB_j (s : State) (b : CipherBlock) : (wrapStoreB s b).j = s.j := rfl
@[simp] theorem wrapStoreB_i (s : State) (b : CipherBlock) : (wrapStoreB s b).i = s.i := rfl
@[simp] theorem wrapStoreB_pcache (s : State) (b : CipherBlock) : (wrapStoreB s b).pcache = s.pcache := rfl
@[simp] theorem wrapStoreB_schedule (s : State) (b : CipherBlock) : (wrapStoreB s b).schedule = s.schedule := rfl
@[simp] theorem unwrapStoreB_cfg (s : State) (b : CipherBlock) : (unwrapStoreB s b).cfg = s.cfg := rfl
@[simp] theorem unwrapStoreB_phase (s : State) (b : CipherBlock) : (unwrapStoreB s b).phase = s.phase := rfl
@[simp] theorem unwrapStoreB_n (s : State) (b : CipherBlock) : (unwrapStoreB s b).n = s.n := rfl
@[simp] theorem unwrapStoreB_j (s : State) (b : CipherBlock) : (unwrapStoreB s b).j = s.j := rfl
@[simp] theorem unwrapStoreB_i (s : State) (b : CipherBlock) : (unwrapStoreB s b).i = s.i := rfl
@[simp] theorem unwrapStoreB_pcache (s : State) (b : CipherBlock) : (unwrapStoreB s b).pcache = s.pcache := rfl
@[simp] theorem unwrapStoreB_schedule (s : State) (b : CipherBlock) : (unwrapStoreB s b).schedule = s.schedule := rfl

/-! ### What engine steps keep -/

/-- With a sound PCACHE, no engine step stops with a fault (R153). -/
theorem engineStep_next_of_sound {s : State} (h : s.pcache.Sound s.cfg) : ∃ t, engineStep s = .next t := by
  cases hp : s.phase with
  | idle => exact ⟨_, engineStep_idle hp⟩
  | decode =>
    rcases engineStep_decode hp with ⟨i, -, -, e⟩ | ⟨-, e⟩
    · rw [e]
      cases i with
      | wrap => rcases execWrap_cases s with ⟨_, e⟩ | ⟨_, _, e⟩ | ⟨_, _, e⟩ <;> exact ⟨_, e⟩
      | unwrap => rcases execUnwrap_cases s with ⟨_, e⟩ | ⟨_, _, e⟩ | ⟨_, _, e⟩ <;> exact ⟨_, e⟩
      | encBlock => rcases execEncBlock_cases s with ⟨_, e⟩ | ⟨_, _, e⟩ | ⟨_, _, e⟩ <;> exact ⟨_, e⟩
      | decBlock =>
        obtain ⟨pc, hd⟩ := blockDecrypt_of_sound h s.kekBytes s.buf.cipherBlock
        rcases execDecBlock_cases s with ⟨_, e⟩ | ⟨_, _, e⟩ | ⟨_, _, hnone, _⟩ | ⟨_, _, _, _, _, e⟩
        · exact ⟨_, e⟩
        · exact ⟨_, e⟩
        · rw [hd] at hnone
          cases hnone
        · exact ⟨_, e⟩
      | zeroize => exact ⟨_, exec_zeroize s⟩
    · exact ⟨_, e⟩
  | wrapLoop => exact ⟨_, engineStep_wrapLoop hp⟩
  | unwrapLoop =>
    obtain ⟨pc, hd⟩ := blockDecrypt_of_sound h s.kekBytes (unwrapInput s)
    rcases unwrapLoopStep_cases s with ⟨hnone, _⟩ | ⟨_, _, _, e⟩
    · rw [hd] at hnone
      cases hnone
    · exact ⟨_, (engineStep_unwrapLoop hp).trans e⟩
  | unwrapCheck => exact ⟨_, engineStep_unwrapCheck hp⟩

theorem EngineEffect.cfg_eq {s t : State} (h : EngineEffect s t) : t.cfg = s.cfg := by
  cases h <;> simp

theorem EngineEffect.schedule_eq {s t : State} (h : EngineEffect s t) : t.schedule = s.schedule := by
  cases h <;> simp

/-- R33: an engine step keeps PCACHE, invalidates it, or takes over what a BlockDecrypt left. -/
theorem EngineEffect.pcacheSound {s t : State} (h : EngineEffect s t) (hs : s.pcache.Sound s.cfg) :
    t.pcache.Sound t.cfg := by
  rw [h.cfg_eq]
  cases h with
  | decBlock _ _ _ _ _ _ hd => exact hs.blockDecrypt hd
  | unwrapNextBlock _ _ _ hd => exact hs.blockDecrypt hd
  | unwrapNextRound _ _ _ hd => exact hs.blockDecrypt hd
  | unwrapEnd _ _ _ hd => exact hs.blockDecrypt hd
  | zeroize => simp [PCache.Sound]
  | _ => simpa using hs

/-- R107, R108: the engine step that ends a command sets DONE. -/
theorem EngineEffect.done_of_idle {s t : State} (h : EngineEffect s t) (hb : s.phase ≠ .idle) (ht : t.phase = .idle) :
    t.done = true := by
  cases h <;> simp_all

/-! ### The loop indexes and the steps left -/

/-- R32 (b): while a loop runs, its indexes lie within its register count, and that within NMAX. -/
def State.IndexesInRange (s : State) : Prop :=
  s.phase.inLoop → (2 ≤ s.n ∧ s.n ≤ s.cfg.nmax) ∧ s.j ≤ 5 ∧ s.i < s.n

/-- A bound on the engine steps until the running command completes (R109). WRAP counts t(j, i) up to 6·n, UNWRAP counts it
down to 1 and then checks (R104 to R106, R121). -/
def State.stepsLeft (s : State) : Nat :=
  match s.phase with
  | .idle => 0
  | .decode => 1 + 6 * 31 + 1
  | .wrapLoop => 6 * s.n + 1 - stepCounter s.n s.j s.i
  | .unwrapLoop => stepCounter s.n s.j s.i + 1
  | .unwrapCheck => 1

@[simp] theorem Phase.idle_not_inLoop : ¬ Phase.inLoop .idle := by simp [Phase.inLoop]
@[simp] theorem Phase.wrapLoop_inLoop : Phase.inLoop .wrapLoop := Or.inl rfl
@[simp] theorem Phase.unwrapLoop_inLoop : Phase.inLoop .unwrapLoop := Or.inr (Or.inl rfl)
@[simp] theorem Phase.unwrapCheck_inLoop : Phase.inLoop .unwrapCheck := Or.inr (Or.inr rfl)

theorem State.indexesInRange_of_idle {s : State} (h : s.phase = .idle) : s.IndexesInRange := by
  simp [State.IndexesInRange, h]

/-- Setting up a loop puts its indexes in range, and the advances of R104 and R105 keep them there. -/
theorem EngineEffect.indexesInRange {s t : State} (h : EngineEffect s t) (hc : s.cfg.wf = true)
    (hs : s.IndexesInRange) : t.IndexesInRange := by
  cases h with
  | wrapSetup _ _ hl =>
    have hn := wrapCount_range hc hl
    exact fun _ => ⟨hn, by simp, by simp only; omega⟩
  | unwrapSetup _ _ hl =>
    have hn := unwrapCount_range hc hl
    exact fun _ => ⟨hn, by simp, by simp only; omega⟩
  | wrapNextBlock _ hp hi =>
    obtain ⟨hn, hj, -⟩ := hs (by simp [hp])
    exact fun _ => ⟨hn, hj, hi⟩
  | wrapNextRound _ hp _ hj =>
    obtain ⟨hn, -, -⟩ := hs (by simp [hp])
    exact fun _ => ⟨hn, by simp only; omega, by simp only [wrapStoreB_n]; omega⟩
  | unwrapNextBlock _ _ hp _ hi =>
    obtain ⟨hn, hj, hi⟩ := hs (by simp [hp])
    exact fun _ => ⟨hn, hj, by simp only [unwrapStoreB_n]; omega⟩
  | unwrapNextRound _ _ hp =>
    obtain ⟨hn, hj, -⟩ := hs (by simp [hp])
    exact fun _ => ⟨hn, by simp only; omega, by simp only [unwrapStoreB_n]; omega⟩
  | unwrapEnd _ _ hp =>
    obtain ⟨hn, hj, hi⟩ := hs (by simp [hp])
    exact fun _ => ⟨hn, hj, hi⟩
  | idle => exact hs
  | _ => exact State.indexesInRange_of_idle (by simp)

theorem State.stepsLeft_idle {s : State} (h : s.phase = .idle) : s.stepsLeft = 0 := by simp [State.stepsLeft, h]

theorem State.stepsLeft_pos {s : State} (h : s.phase ≠ .idle) (hs : s.IndexesInRange) : 0 < s.stepsLeft := by
  cases hp : s.phase with
  | idle => exact absurd hp h
  | wrapLoop =>
    obtain ⟨-, hj, hi⟩ := hs (by simp [hp])
    have := stepCounter_le hj hi
    simp only [State.stepsLeft, hp]
    omega
  | _ => simp [State.stepsLeft, hp]

theorem State.stepsLeft_le {s : State} (hc : s.cfg.wf = true) (hs : s.IndexesInRange) :
    s.stepsLeft ≤ 1 + 6 * 31 + 1 := by
  obtain ⟨⟨-, hmax⟩, -⟩ := (Config.wf_iff s.cfg).mp hc
  cases hp : s.phase with
  | wrapLoop =>
    obtain ⟨⟨-, hn⟩, -⟩ := hs (by simp [hp])
    simp only [State.stepsLeft, hp]
    omega
  | unwrapLoop =>
    obtain ⟨⟨-, hn⟩, hj, hi⟩ := hs (by simp [hp])
    have := stepCounter_le hj hi
    simp only [State.stepsLeft, hp]
    omega
  | _ => simp [State.stepsLeft, hp]

/-- Every engine step of a busy state brings the command nearer to its end. -/
theorem EngineEffect.stepsLeft_lt {s t : State} (h : EngineEffect s t) (hb : s.phase ≠ .idle) (hc : s.cfg.wf = true)
    (hs : s.IndexesInRange) : t.stepsLeft < s.stepsLeft := by
  obtain ⟨⟨-, hmax⟩, -⟩ := (Config.wf_iff s.cfg).mp hc
  cases h with
  | idle hp => exact absurd hp hb
  | wrapSetup hp _ hl =>
    have hn := wrapCount_range hc hl
    simp only [State.stepsLeft, hp, stepCounter]
    omega
  | unwrapSetup hp _ hl =>
    have hn := unwrapCount_range hc hl
    have := stepCounter_le (n := unwrapCount s.len) (j := 5) (i := unwrapCount s.len - 1) le_rfl (by omega)
    simp only [State.stepsLeft, hp]
    omega
  | wrapNextBlock _ hp hi =>
    obtain ⟨-, hj, -⟩ := hs (by simp [hp])
    have := stepCounter_le hj hi
    simp only [stepCounter_succ] at this
    simp only [State.stepsLeft, hp, wrapStoreB_phase, wrapStoreB_n, wrapStoreB_j, stepCounter_succ]
    omega
  | wrapNextRound _ hp hi hj =>
    obtain ⟨hn, -, hi'⟩ := hs (by simp [hp])
    have hlast : s.i = s.n - 1 := by omega
    have := stepCounter_le (n := s.n) (j := s.j + 1) (i := 0) (by omega) (by omega)
    have hnext := stepCounter_succ_zero s.n s.j (by omega)
    simp only [State.stepsLeft, hp, wrapStoreB_phase, wrapStoreB_n, hlast]
    omega
  | unwrapNextBlock _ _ hp _ hi =>
    have hprev := stepCounter_succ s.n s.j (s.i - 1)
    rw [Nat.sub_add_cancel hi] at hprev
    simp only [State.stepsLeft, hp, unwrapStoreB_phase, unwrapStoreB_n, unwrapStoreB_j]
    omega
  | unwrapNextRound _ _ hp _ hi hj =>
    obtain ⟨hn, -⟩ := hs (by simp [hp])
    have hprev := stepCounter_succ_zero s.n (s.j - 1) (by omega)
    rw [Nat.sub_add_cancel hj] at hprev
    simp only [State.stepsLeft, hp, unwrapStoreB_phase, unwrapStoreB_n, hi]
    omega
  | unwrapEnd _ _ hp =>
    simp only [State.stepsLeft, hp, stepCounter]
    omega
  | _ => exact (State.stepsLeft_idle (by simp)).trans_lt (State.stepsLeft_pos hb hs)

/-! ### The run to completion -/

/-- What a run of engine steps to completion needs of a state, and keeps. -/
structure State.CanComplete (s : State) : Prop where
  cfgWf : s.cfg.wf = true
  noEvents : s.schedule = []
  pcacheSound : s.pcache.Sound s.cfg
  indexes : s.IndexesInRange

theorem State.withSchedule_self (s : State) : s.withSchedule s.schedule = s := rfl

/-- From a busy state the next step is an engine step that comes nearer to completion, or completes with DONE. -/
theorem State.CanComplete.step {s : State} (h : s.CanComplete) (hb : s.phase ≠ .idle) :
    ∃ t, Machine.step s = .next t ∧ t.CanComplete ∧ t.stepsLeft < s.stepsLeft ∧ (t.phase = .idle → t.done = true) := by
  obtain ⟨t, ht⟩ := engineStep_next_of_sound h.pcacheSound
  have he := engineEffect_of_engineStep ht
  refine ⟨t, ?_, ⟨?_, ?_, he.pcacheSound h.pcacheSound, he.indexesInRange h.cfgWf h.indexes⟩,
    he.stepsLeft_lt hb h.cfgWf h.indexes, he.done_of_idle hb⟩
  · rw [step_of_engineNext h.cfgWf (engineNext_of_nil h.noEvents), ← h.noEvents, s.withSchedule_self, ht]
  · rw [he.cfg_eq, h.cfgWf]
  · rw [he.schedule_eq, h.noEvents]

/-- R109: a busy state completes within its steps left. -/
theorem State.CanComplete.completes {m : Nat} : ∀ {s : State}, s.CanComplete → s.phase ≠ .idle → s.stepsLeft ≤ m →
    ∃ k t, k ≤ m ∧ runSteps k s = .next t ∧ t.phase = .idle ∧ t.done = true := by
  induction m with
  | zero =>
    intro s h hb hm
    have := State.stepsLeft_pos hb h.indexes
    omega
  | succ m ih =>
    intro s h hb hm
    obtain ⟨u, hu, hcan, hlt, hdone⟩ := h.step hb
    by_cases hidle : u.phase = .idle
    · exact ⟨1, u, by omega, by rw [runSteps_succ_of_next hu, runSteps_zero], hidle, hdone hidle⟩
    · obtain ⟨k, t, hk, hrun, ht⟩ := ih hcan hidle (by omega)
      exact ⟨k + 1, t, by omega, by rw [runSteps_succ_of_next hu, hrun], ht⟩

/-- Settles O43, by induction on the number of engine steps left. -/
theorem acceptedCommandCompletes : Obligations.AcceptedCommandCompletes := by
  unfold Obligations.AcceptedCommandCompletes
  intro s hinv hsched hbusy
  have hcan : s.CanComplete := ⟨hinv.cfgWf, hsched, hinv.pcacheSound, hinv.loopIndex⟩
  exact hcan.completes ((busy_iff s).mp hbusy) (State.stepsLeft_le hinv.cfgWf hinv.loopIndex)

end Sys2Proof.Machine
end

section
/-! SUPPORT. Everything a host access can do, said once as a list of effects, and the inversion of a host step into it (R54,
R100, R170, R171). -/

namespace Sys2Proof.Machine

/-- `HostEffect s a t`: the access `a` leads from `s` to `t`, for the reason the constructor names. -/
inductive HostEffect (s : State) : Access → State → Prop
  | answered (a : Access) (r : BusResponse) : HostEffect s a { s with resp := some r }
  | dropped (off : BitVec 9) (v : Word) : s.phase ≠ .idle → (regAt s.cfg off.toNat).writable = true →
      HostEffect s ⟨off, .w32, .write v⟩ { s with busyErr := true, resp := some .written }
  | accepted (v : Word) : s.phase = .idle →
      HostEffect s ⟨0x000, .w32, .write v⟩ { s.acceptCmd v with resp := some .written }
  | lenWrite (v : Word) : s.phase = .idle →
      HostEffect s ⟨0x008, .w32, .write v⟩ { s with len := v, resp := some .written }
  | keklenWrite (v : Word) : s.phase = .idle →
      HostEffect s ⟨0x00C, .w32, .write v⟩ { s with keklen := v, resp := some .written }
  | kekWrite (off : BitVec 9) (m : Nat) (v : Word) : s.phase = .idle → off.toNat = 0x020 + 4 * m → m < 8 →
      HostEffect s ⟨off, .w32, .write v⟩
        { ({ s with kek := s.kek.setWord m v } : State).invalidatePCache with resp := some .written }
  | bufWrite (off : BitVec 9) (k : Nat) (v : Word) : s.phase = .idle → off.toNat = 0x040 + 4 * k →
      k < 2 * (s.cfg.nmax + 1) →
      HostEffect s ⟨off, .w32, .write v⟩ { s with buf := s.buf.setWord k v, resp := some .written }

/-- An admitted write to a writable register while idle (R171), by the register at its offset (R70). -/
theorem hostEffect_idleWrite {s : State} {off : BitVec 9} (v : Word) (hp : s.phase = .idle) (ha : off.toNat % 4 = 0)
    (hw : (regAt s.cfg off.toNat).writable = true) :
    HostEffect s ⟨off, .w32, .write v⟩ { idleWrite s (regAt s.cfg off.toNat) v with resp := some .written } := by
  rcases regAt_cases s.cfg off.toNat ha with ⟨ho, hr⟩ | ⟨-, hr⟩ | ⟨ho, hr⟩ | ⟨ho, hr⟩ | ⟨-, hr⟩ | ⟨m, ho, hm, hr⟩ |
    ⟨k, ho, hk, hr⟩ | ⟨-, -, -, -, -, -, -, hr⟩ <;> rw [hr] at hw ⊢
  · obtain rfl : off = 0x000 := BitVec.eq_of_toNat_eq ho
    exact .accepted v hp
  · cases hw
  · obtain rfl : off = 0x008 := BitVec.eq_of_toNat_eq ho
    exact .lenWrite v hp
  · obtain rfl : off = 0x00C := BitVec.eq_of_toNat_eq ho
    exact .keklenWrite v hp
  · cases hw
  · exact .kekWrite off m v hp ho hm
  · exact .bufWrite off k v hp ho hk
  · cases hw

/-- The inversion of a host step. -/
theorem hostEffect_hostStep (s : State) (a : Access) : HostEffect s a (hostStep s a) := by
  rcases hostStep_cases s a with ⟨-, e⟩ | ⟨-, -, e⟩ | ⟨v, hadm, hop, hwrite⟩
  · rw [e]
    exact .answered a _
  · rw [e]
    exact .answered a _
  · obtain ⟨hwidth, haligned⟩ := (admitted_iff a).mp hadm
    obtain ⟨off, width, op⟩ := a
    cases hwidth
    cases hop
    rcases hwrite with ⟨-, e⟩ | ⟨hw, hb, e⟩ | ⟨hw, hb, e⟩ <;> rw [e]
    · exact .answered _ _
    · exact .dropped off v ((busy_iff s).mp hb) hw
    · exact hostEffect_idleWrite v ((busy_false_iff s).mp hb) haligned hw

/-- The inversion of a step into the effects of its event (R17). -/
theorem step_effect {s t : State} (h : step s = .next t) :
    s.cfg.wf = true ∧
      ((∃ a es, s.hostNext a es ∧ HostEffect (s.withSchedule es) a t)
      ∨ (∃ es, s.engineNext es ∧ EngineEffect (s.withSchedule es) t)
      ∨ (∃ es, s.resetNext es ∧ t = (s.withSchedule es).resetStep)) := by
  obtain ⟨hw, ⟨a, es, hn, rfl⟩ | ⟨es, hn, he⟩ | hreset⟩ := step_cases h
  · exact ⟨hw, .inl ⟨a, es, hn, hostEffect_hostStep _ a⟩⟩
  · exact ⟨hw, .inr (.inl ⟨es, hn, engineEffect_of_engineStep he⟩)⟩
  · exact ⟨hw, .inr (.inr hreset)⟩

/-! ### One lemma per field that storing a cipher output keeps (R123, R128) -/

@[simp] theorem wrapStoreB_buf (s : State) (b : CipherBlock) : (wrapStoreB s b).buf
    = (s.buf.setBlk 0 (xorCounter (msb64 b) (stepCounter s.n s.j s.i))).setBlk (1 + s.i) (lsb64 b) := rfl
@[simp] theorem wrapStoreB_kek (s : State) (b : CipherBlock) : (wrapStoreB s b).kek = s.kek := rfl
@[simp] theorem wrapStoreB_len (s : State) (b : CipherBlock) : (wrapStoreB s b).len = s.len := rfl
@[simp] theorem wrapStoreB_keklen (s : State) (b : CipherBlock) : (wrapStoreB s b).keklen = s.keklen := rfl
@[simp] theorem wrapStoreB_done (s : State) (b : CipherBlock) : (wrapStoreB s b).done = s.done := rfl
@[simp] theorem wrapStoreB_errcode (s : State) (b : CipherBlock) : (wrapStoreB s b).errcode = s.errcode := rfl
@[simp] theorem wrapStoreB_busyErr (s : State) (b : CipherBlock) : (wrapStoreB s b).busyErr = s.busyErr := rfl
@[simp] theorem wrapStoreB_cmdLatch (s : State) (b : CipherBlock) : (wrapStoreB s b).cmdLatch = s.cmdLatch := rfl
@[simp] theorem unwrapStoreB_buf (s : State) (b : CipherBlock) :
    (unwrapStoreB s b).buf = (s.buf.setBlk 0 (msb64 b)).setBlk (1 + s.i) (lsb64 b) := rfl
@[simp] theorem unwrapStoreB_kek (s : State) (b : CipherBlock) : (unwrapStoreB s b).kek = s.kek := rfl
@[simp] theorem unwrapStoreB_len (s : State) (b : CipherBlock) : (unwrapStoreB s b).len = s.len := rfl
@[simp] theorem unwrapStoreB_keklen (s : State) (b : CipherBlock) : (unwrapStoreB s b).keklen = s.keklen := rfl
@[simp] theorem unwrapStoreB_done (s : State) (b : CipherBlock) : (unwrapStoreB s b).done = s.done := rfl
@[simp] theorem unwrapStoreB_errcode (s : State) (b : CipherBlock) : (unwrapStoreB s b).errcode = s.errcode := rfl
@[simp] theorem unwrapStoreB_busyErr (s : State) (b : CipherBlock) : (unwrapStoreB s b).busyErr = s.busyErr := rfl
@[simp] theorem unwrapStoreB_cmdLatch (s : State) (b : CipherBlock) : (unwrapStoreB s b).cmdLatch = s.cmdLatch := rfl

theorem State.kekBytes_congr {s t : State} (h : t.kek = s.kek) : t.kekBytes = s.kekBytes := by
  simp only [State.kekBytes, h]

/-- R25: the check of every command that uses the KEK. -/
theorem State.kekLenOK_iff (s : State) : s.kekLenOK = true ↔ s.keklen = 32#32 := by simp [State.kekLenOK]

/-! ### What an engine step keeps, and what only one of them changes -/

theorem EngineEffect.cmdLatch_eq {s t : State} (h : EngineEffect s t) : t.cmdLatch = s.cmdLatch := by
  cases h <;> simp

theorem EngineEffect.busyErr_eq {s t : State} (h : EngineEffect s t) : t.busyErr = s.busyErr := by
  cases h <;> simp

/-- R160: of the engine steps only that of ZEROIZE changes KEK, LEN or KEKLEN. -/
theorem EngineEffect.keeps_keys_or_zeroizes {s t : State} (h : EngineEffect s t) :
    (t.kek = s.kek ∧ t.len = s.len ∧ t.keklen = s.keklen)
    ∨ (s.phase = .decode ∧ s.cmdLatch = encode .zeroize ∧ t = s.eraseKeys.succeed) := by
  cases h with
  | zeroize hp hc => exact .inr ⟨hp, hc, rfl⟩
  | _ => exact .inl (by simp)

/-- R33: an engine step keeps PCACHE, takes over what a BlockDecrypt under KEK left, or invalidates it. -/
theorem EngineEffect.pcache_cases {s t : State} (h : EngineEffect s t) :
    t.pcache = s.pcache ∨ (∃ y x, blockDecrypt s.cfg s.pcache s.kekBytes y = some (x, t.pcache))
    ∨ t.pcache.valid = false := by
  cases h with
  | decBlock _ _ _ _ _ _ hd => exact .inr (.inl ⟨_, _, hd⟩)
  | unwrapNextBlock _ _ _ hd | unwrapNextRound _ _ _ hd | unwrapEnd _ _ _ hd => exact .inr (.inl ⟨_, _, hd⟩)
  | zeroize => exact .inr (.inr rfl)
  | _ => exact .inl (by simp)

/-- R107, R108: an engine step completes the command, or leaves DONE, ERRCODE and BUSY alone. -/
theorem EngineEffect.completes_or_keeps_flags {s t : State} (h : EngineEffect s t) :
    (s.phase ≠ .idle ∧ t.phase = .idle ∧ t.done = true)
    ∨ (t.done = s.done ∧ t.errcode = s.errcode ∧ (t.phase = .idle ↔ s.phase = .idle)) := by
  cases h with
  | idle => exact .inr (by simp)
  | wrapSetup hp | unwrapSetup hp | wrapNextBlock _ hp | wrapNextRound _ hp | unwrapNextBlock _ _ hp
  | unwrapNextRound _ _ hp | unwrapEnd _ _ hp => exact .inr (by simp [hp])
  | illegal hp | wrapLength hp | unwrapLength hp | kekLength _ hp | encBlock hp | decBlock _ _ hp | zeroize hp
  | wrapEnd _ hp | checkPassed hp | checkFailed hp => exact .inl (by simp [hp])

end Sys2Proof.Machine
end

section
/-! O37, O38. The invariant holds at reset, and every step keeps it (R32, R33): one lemma per component that an engine step
can touch, and one case per host access. -/

namespace Sys2Proof.Machine

/-! ### Byte arrays of a given size (R21, R24) -/

/-- A byte array in canonical form that lists no byte at or beyond `size`. -/
def Memory.Fits (m : Memory) (size : Nat) : Prop := m.wf = true ∧ m.below size = true

theorem Memory.fits_zeros (size : Nat) : Memory.zeros.Fits size := ⟨rfl, rfl⟩

theorem Memory.Fits.setBlk {m : Memory} {size b : Nat} (h : m.Fits size) (hb : 8 * b + 8 ≤ size) (v : Semiblock) :
    (m.setBlk b v).Fits size := ⟨wf_setBlk h.1 b v, below_setBlk h.2 hb v⟩

theorem Memory.Fits.setCipherBlock {m : Memory} {size : Nat} (h : m.Fits size) (hb : 16 ≤ size) (x : CipherBlock) :
    (m.setCipherBlock x).Fits size := ⟨wf_setCipherBlock h.1 x, below_setCipherBlock h.2 hb x⟩

theorem Memory.Fits.setWord {m : Memory} {size k : Nat} (h : m.Fits size) (hk : 4 * k + 4 ≤ size) (v : Word) :
    (m.setWord k v).Fits size := ⟨wf_setWord h.1 k v, below_setWord h.2 hk v⟩

/-- Blocks 0 and 1 + i of BUF, the two that a loop step stores to (R123, R128). -/
theorem Memory.Fits.setBlk_setBlk {m : Memory} {c : Config} {i : Nat} (h : m.Fits c.bufBytes) (hi : i < c.nmax)
    (a r : Semiblock) : ((m.setBlk 0 a).setBlk (1 + i) r).Fits c.bufBytes := by
  unfold Config.bufBytes at h ⊢
  exact (h.setBlk (by omega) a).setBlk (by omega) r

/-- R33, R152: a BlockDecrypt makes PCACHE valid for the key it used only. -/
theorem blockDecrypt_key {c : Config} {pc pc' : PCache} {k : Key} {y x : CipherBlock}
    (hd : blockDecrypt c pc k y = some (x, pc')) (hkey : pc.valid = true → pc.key = k) (hv : pc'.valid = true) :
    pc'.key = k := by
  rcases blockDecrypt_pcache hd with rfl | ⟨-, rfl⟩
  · exact hkey hv
  · unfold PCache.update at hv ⊢
    split_ifs at hv ⊢
    · exact hkey hv
    · rfl
    · exact hkey hv

/-! ### The components an engine step can touch -/

section
variable {s t : State} (hinv : Inv s) (he : EngineEffect s t)
include hinv

theorem Inv.bufFits : s.buf.Fits s.cfg.bufBytes := ⟨hinv.bufWf, hinv.bufBound⟩

theorem Inv.kekFits : s.kek.Fits 32 := ⟨hinv.kekWf, hinv.kekBound⟩

/-- R32 (b): the block a loop step works on exists. -/
theorem Inv.index_lt_nmax (hp : s.phase.inLoop) : s.i < s.cfg.nmax := by
  obtain ⟨⟨-, hn⟩, -, hi⟩ := hinv.loopIndex hp
  omega

include he

/-- R21: an engine step stores to existing blocks of BUF only. -/
theorem EngineEffect.bufFits : t.buf.Fits t.cfg.bufBytes := by
  rw [he.cfg_eq]
  have hfit := hinv.bufFits
  have h16 : 16 ≤ s.cfg.bufBytes := by
    obtain ⟨⟨hmin, -⟩, -⟩ := (Config.wf_iff s.cfg).mp hinv.cfgWf
    unfold Config.bufBytes
    omega
  cases he with
  | wrapSetup =>
    simp only
    exact hfit.setBlk (by omega) iv
  | encBlock | decBlock =>
    simp only [State.succeed_buf]
    exact hfit.setCipherBlock h16 _
  | wrapNextBlock _ hp | wrapNextRound _ hp | wrapEnd _ hp =>
    simp only [State.succeed_buf, wrapStoreB_buf]
    exact hfit.setBlk_setBlk (hinv.index_lt_nmax (by simp [hp])) _ _
  | unwrapNextBlock _ _ hp | unwrapNextRound _ _ hp | unwrapEnd _ _ hp =>
    simp only [unwrapStoreB_buf]
    exact hfit.setBlk_setBlk (hinv.index_lt_nmax (by simp [hp])) _ _
  | idle | unwrapSetup | checkPassed => exact hfit
  | illegal | wrapLength | unwrapLength | kekLength | zeroize | checkFailed => exact Memory.fits_zeros _

theorem EngineEffect.kekFits : t.kek.Fits 32 := by
  rcases he.keeps_keys_or_zeroizes with ⟨hk, -, -⟩ | ⟨-, -, rfl⟩
  · rw [hk]
    exact hinv.kekFits
  · exact Memory.fits_zeros 32

/-- R32 (c): DONE is set only together with the end of the command. -/
theorem EngineEffect.doneIdle (hd : t.done = true) : t.phase = .idle := by
  rcases he.completes_or_keeps_flags with ⟨-, hp, -⟩ | ⟨hdone, -, hphase⟩
  · exact hp
  · exact hphase.mpr (hinv.doneIdle (hdone ▸ hd))

/-- R32 (d): an error is recorded only together with DONE. -/
theorem EngineEffect.errDone (hc : t.errcode ≠ .noError) : t.done = true := by
  rcases he.completes_or_keeps_flags with ⟨-, -, hd⟩ | ⟨hdone, herr, -⟩
  · exact hd
  · rw [hdone]
    exact hinv.errDone (herr ▸ hc)

/-- R33: the key a valid PCACHE holds is the one in KEK. -/
theorem EngineEffect.pcacheKey (hv : t.pcache.valid = true) : t.pcache.key = t.kekBytes := by
  rcases he.keeps_keys_or_zeroizes with ⟨hk, -, -⟩ | ⟨-, -, rfl⟩
  · rw [State.kekBytes_congr hk]
    rcases he.pcache_cases with hpc | ⟨y, x, hd⟩ | hinvalid
    · rw [hpc] at hv ⊢
      exact hinv.pcacheKey hv
    · exact blockDecrypt_key hd hinv.pcacheKey hv
    · simp [hinvalid] at hv
  · simp at hv

/-- R64, R122: WRAP_LOOP is entered by a WRAP on checked operands, and its steps keep them. -/
theorem EngineEffect.wrapRunning (hp : t.phase = .wrapLoop) :
    t.cmdLatch = encode .wrap ∧ wrapLenOK t.cfg t.len = true ∧ t.kekLenOK = true ∧ t.n = wrapCount t.len := by
  cases he with
  | wrapSetup _ hc hl hk => exact ⟨hc, hl, hk, rfl⟩
  | wrapNextBlock _ hs | wrapNextRound _ hs => simpa [State.kekLenOK_iff] using hinv.wrapRunning hs
  | idle => exact hinv.wrapRunning hp
  | unwrapNextBlock _ _ hs | unwrapNextRound _ _ hs => simp [hs] at hp
  | _ => simp at hp

/-- R64, R127: the same of UNWRAP_LOOP and UNWRAP_CHECK. -/
theorem EngineEffect.unwrapRunning (hp : t.phase = .unwrapLoop ∨ t.phase = .unwrapCheck) :
    t.cmdLatch = encode .unwrap ∧ unwrapLenOK t.cfg t.len = true ∧ t.kekLenOK = true ∧ t.n = unwrapCount t.len := by
  cases he with
  | unwrapSetup _ hc hl hk => exact ⟨hc, hl, hk, rfl⟩
  | unwrapNextBlock _ _ hs | unwrapNextRound _ _ hs | unwrapEnd _ _ hs =>
    simpa [State.kekLenOK_iff] using hinv.unwrapRunning (.inl hs)
  | idle => exact hinv.unwrapRunning hp
  | wrapNextBlock _ hs | wrapNextRound _ hs => simp [hs] at hp
  | _ => simp at hp

/-- Every engine step keeps the invariant. -/
theorem EngineEffect.inv : Inv t where
  cfgWf := he.cfg_eq ▸ hinv.cfgWf
  bufWf := (he.bufFits hinv).1
  bufBound := (he.bufFits hinv).2
  kekWf := (he.kekFits hinv).1
  kekBound := (he.kekFits hinv).2
  loopIndex := he.indexesInRange hinv.cfgWf hinv.loopIndex
  doneIdle := he.doneIdle hinv
  errDone := he.errDone hinv
  pcacheSound := he.pcacheSound hinv.pcacheSound
  pcacheKey := he.pcacheKey hinv
  wrapRunning := he.wrapRunning hinv
  unwrapRunning := he.unwrapRunning hinv

end

/-! ### The other steps, and every step -/

/-- The pending events are no part of the invariant. -/
theorem Inv.withSchedule {s : State} (h : Inv s) (es : List Event) : Inv (s.withSchedule es) := { h with }

/-- The invariant of an idle state, where nothing is asked of the sequencer (R32). -/
theorem inv_of_idle {s : State} (hcfg : s.cfg.wf = true) (hp : s.phase = .idle) (hbuf : s.buf.Fits s.cfg.bufBytes)
    (hkek : s.kek.Fits 32) (herr : s.errcode ≠ .noError → s.done = true) (hsound : s.pcache.Sound s.cfg)
    (hkey : s.pcache.valid = true → s.pcache.key = s.kekBytes) : Inv s where
  cfgWf := hcfg
  bufWf := hbuf.1
  bufBound := hbuf.2
  kekWf := hkek.1
  kekBound := hkek.2
  loopIndex := by simp [hp]
  doneIdle := fun _ => hp
  errDone := herr
  pcacheSound := hsound
  pcacheKey := hkey
  wrapRunning := by simp [hp]
  unwrapRunning := by simp [hp]

theorem inv_resetOf {c : Config} (h : c.wf = true) : Inv (State.resetOf c) :=
  inv_of_idle h rfl (Memory.fits_zeros _) (Memory.fits_zeros _) (by simp [State.resetOf])
    (by simp [State.resetOf, PCache.Sound]) (by simp [State.resetOf])

/-- R100: acceptance clears DONE and ERRCODE, and DECODE asks nothing of the loop indexes. -/
theorem Inv.acceptCmd {s : State} (h : Inv s) (v : Word) : Inv (s.acceptCmd v) :=
  { h with
    loopIndex := by simp [Phase.inLoop]
    doneIdle := by simp
    errDone := by simp
    wrapRunning := by simp
    unwrapRunning := by simp }

/-- The port's answer and BUSYERR are no part of the invariant. -/
theorem Inv.answer {s : State} (h : Inv s) (b : Bool) (r : Option BusResponse) :
    Inv { s with busyErr := b, resp := r } := { h with }

/-- Every host access keeps the invariant: a write of KEK invalidates PCACHE (R33), a running command's operands are not
written (R64). -/
theorem HostEffect.inv {s t : State} {a : Access} (h : HostEffect s a t) (hinv : Inv s) : Inv t := by
  have hbuf := hinv.bufFits
  have hkek := hinv.kekFits
  cases h with
  | answered r => exact hinv.answer _ _
  | dropped => exact hinv.answer _ _
  | accepted v => exact (hinv.acceptCmd v).answer _ _
  | lenWrite v hp => exact inv_of_idle hinv.cfgWf hp hbuf hkek hinv.errDone hinv.pcacheSound hinv.pcacheKey
  | keklenWrite v hp => exact inv_of_idle hinv.cfgWf hp hbuf hkek hinv.errDone hinv.pcacheSound hinv.pcacheKey
  | kekWrite off m v hp _ hm =>
    exact inv_of_idle hinv.cfgWf hp hbuf (hkek.setWord (by omega) v) hinv.errDone (by simp [PCache.Sound]) (by simp)
  | bufWrite off k v hp _ hk =>
    exact inv_of_idle hinv.cfgWf hp (hbuf.setWord (by unfold Config.bufBytes; omega) v) hkek hinv.errDone
      hinv.pcacheSound hinv.pcacheKey

/-- Settles O37: the reset state is idle, with empty arrays, no error and an invalid PCACHE. -/
theorem invariantHoldsAtReset : Obligations.InvariantHoldsAtReset := by
  unfold Obligations.InvariantHoldsAtReset
  exact fun _ => inv_resetOf

/-- Settles O38, by the next event: a host access, an engine step or the reset input. -/
theorem invariantKeptByEveryStep : Obligations.InvariantKeptByEveryStep := by
  unfold Obligations.InvariantKeptByEveryStep
  intro s t hinv hstep
  obtain ⟨hcfg, ⟨a, es, -, he⟩ | ⟨es, -, he⟩ | ⟨es, -, rfl⟩⟩ := step_effect hstep
  · exact he.inv (hinv.withSchedule es)
  · exact he.inv (hinv.withSchedule es)
  · exact (inv_resetOf hcfg).withSchedule es

end Sys2Proof.Machine
end

section
/-! O34. Who can change the flags (R27): said once as the cases of a step, for BUSY, DONE and ERRCODE together and for
BUSYERR. -/

namespace Sys2Proof.Machine

/-- R100: a host access accepts a command word, or leaves BUSY, DONE and ERRCODE alone. -/
theorem HostEffect.accepts_or_keeps_flags {s t : State} {a : Access} (h : HostEffect s a t) :
    (s.phase = .idle ∧ t.phase ≠ .idle ∧ t.done = false ∧ ∃ v, a = ⟨0x000, .w32, .write v⟩)
    ∨ (t.phase = s.phase ∧ t.done = s.done ∧ t.errcode = s.errcode) := by
  cases h with
  | accepted v hp => exact .inl ⟨hp, by simp, rfl, v, rfl⟩
  | _ => exact .inr ⟨rfl, rfl, rfl⟩

/-- R100, R171: BUSYERR is kept but for an acceptance, which clears it, and a dropped write, which sets it. -/
theorem HostEffect.busyErr_cases {s t : State} {a : Access} (h : HostEffect s a t) :
    t.busyErr = s.busyErr
    ∨ (t.busyErr = false ∧ s.phase = .idle ∧ ∃ v, a = ⟨0x000, .w32, .write v⟩)
    ∨ (t.busyErr = true ∧ s.phase ≠ .idle
        ∧ ∃ off v, a = ⟨off, .w32, .write v⟩ ∧ (regAt s.cfg off.toNat).writable = true) := by
  cases h with
  | accepted v hp => exact .inr (.inl ⟨rfl, hp, v, rfl⟩)
  | dropped off v hp hw => exact .inr (.inr ⟨rfl, hp, off, v, rfl, hw⟩)
  | _ => exact .inl rfl

/-- R27: a step accepts a command word, completes a command, resets, or leaves BUSY, DONE and ERRCODE alone. -/
theorem step_flags_cases {s t : State} (h : step s = .next t) :
    ((∃ v, s.acceptNext v) ∧ s.phase = .idle ∧ t.phase ≠ .idle ∧ t.done = false)
    ∨ (s.phase ≠ .idle ∧ t.phase = .idle ∧ t.done = true ∧ ∃ es, s.engineNext es)
    ∨ ((∃ es, s.resetNext es) ∧ t.phase = .idle ∧ t.done = false)
    ∨ ((t.phase = .idle ↔ s.phase = .idle) ∧ t.done = s.done ∧ t.errcode = s.errcode) := by
  obtain ⟨-, ⟨a, es, hn, he⟩ | ⟨es, hn, he⟩ | ⟨es, hn, rfl⟩⟩ := step_effect h
  · rcases he.accepts_or_keeps_flags with ⟨hp, htp, htd, v, rfl⟩ | ⟨hp, hd, herr⟩
    · exact .inl ⟨⟨v, hp, es, hn⟩, hp, htp, htd⟩
    · exact .inr (.inr (.inr ⟨by simp [hp], hd, herr⟩))
  · rcases he.completes_or_keeps_flags with ⟨hp, htp, htd⟩ | ⟨hd, herr, hp⟩
    · exact .inr (.inl ⟨hp, htp, htd, es, hn⟩)
    · exact .inr (.inr (.inr ⟨hp, hd, herr⟩))
  · exact .inr (.inr (.inl ⟨⟨es, hn⟩, rfl, rfl⟩))

/-- R27, R204: acceptance and reset clear BUSYERR, and a dropped write sets it. -/
theorem step_busyErr_changes {s t : State} (h : step s = .next t) :
    (s.busyErr = true → t.busyErr = false → (∃ v, s.acceptNext v) ∨ ∃ es, s.resetNext es)
    ∧ (s.busyErr = false → t.busyErr = true → s.busy = true ∧ ∃ (off : BitVec 9) (v : Word) (es : List Event),
        s.hostNext ⟨off, .w32, .write v⟩ es ∧ (regAt s.cfg off.toNat).writable = true) := by
  obtain ⟨-, ⟨a, es, hn, he⟩ | ⟨es, -, he⟩ | ⟨es, hn, rfl⟩⟩ := step_effect h
  · rcases he.busyErr_cases with hb | ⟨hb, hp, v, rfl⟩ | ⟨hb, hp, off, v, rfl, hw⟩
    · simp_all
    · exact ⟨fun _ _ => .inl ⟨v, hp, es, hn⟩, by simp [hb]⟩
    · exact ⟨by simp [hb], fun _ _ => ⟨(busy_iff s).mpr hp, off, v, es, hn, hw⟩⟩
  · have := he.busyErr_eq
    simp_all
  · exact ⟨fun _ _ => .inr ⟨es, hn⟩, by simp⟩

/-- Settles O34, by the cases of a step. -/
theorem flagsChangeOnlyAsStated : Obligations.FlagsChangeOnlyAsStated := by
  unfold Obligations.FlagsChangeOnlyAsStated
  intro s t _ hstep accepted completed reset
  rcases step_flags_cases hstep with ⟨hacc, hp, htp, htd⟩ | ⟨hp, htp, htd, hn⟩ | ⟨hres, htp, htd⟩ | ⟨hp, hd, he⟩
  · have hacc : accepted := hacc
    refine ⟨?_, ?_, ?_, ?_, ?_, step_busyErr_changes hstep⟩ <;> simp [State.busy, hacc, hp, htd]
  · have hcompleted : completed := ⟨(busy_iff s).mpr hp, (busy_false_iff t).mpr htp, htd, hn⟩
    refine ⟨?_, ?_, ?_, ?_, ?_, step_busyErr_changes hstep⟩ <;> simp [State.busy, hcompleted, hp, htd]
  · have hres : reset := hres
    refine ⟨?_, ?_, ?_, ?_, ?_, step_busyErr_changes hstep⟩ <;> simp [State.busy, hres, htp, htd]
  · refine ⟨?_, ?_, ?_, ?_, ?_, step_busyErr_changes hstep⟩ <;> simp_all [State.busy]

end Sys2Proof.Machine
end

section
/-! O35. Who can change the configuration and the operands (R20, R28, R64). -/

namespace Sys2Proof.Machine

/-- The access is an admitted write to an offset from `lo` to `hi`, and no command runs. -/
def State.IdleWriteIn (s : State) (a : Access) (lo hi : Nat) : Prop :=
  s.phase = .idle ∧ ∃ (off : BitVec 9) (v : Word), a = ⟨off, .w32, .write v⟩ ∧ lo ≤ off.toNat ∧ off.toNat ≤ hi

section
variable {s t : State} {a : Access} (h : HostEffect s a t)
include h

theorem HostEffect.cfg_eq : t.cfg = s.cfg := by
  cases h <;> rfl

/-- R28: of the host accesses only an acceptance changes CMDLATCH, to the word written. -/
theorem HostEffect.accepted_of_cmdLatch_ne (hne : t.cmdLatch ≠ s.cmdLatch) :
    s.phase = .idle ∧ a = ⟨0x000, .w32, .write t.cmdLatch⟩ := by
  cases h with
  | accepted v hp => exact ⟨hp, rfl⟩
  | _ => exact absurd rfl hne

theorem HostEffect.idleWrite_of_kek_ne (hne : t.kek ≠ s.kek) : s.IdleWriteIn a 0x020 0x03C := by
  cases h with
  | kekWrite off m v hp ho hm => exact ⟨hp, off, v, rfl, by omega, by omega⟩
  | _ => exact absurd rfl hne

theorem HostEffect.idleWrite_of_len_ne (hne : t.len ≠ s.len) : s.IdleWriteIn a 0x008 0x008 := by
  cases h with
  | lenWrite v hp => exact ⟨hp, 0x008, v, rfl, le_rfl, le_rfl⟩
  | _ => exact absurd rfl hne

theorem HostEffect.idleWrite_of_keklen_ne (hne : t.keklen ≠ s.keklen) : s.IdleWriteIn a 0x00C 0x00C := by
  cases h with
  | keklenWrite v hp => exact ⟨hp, 0x00C, v, rfl, le_rfl, le_rfl⟩
  | _ => exact absurd rfl hne

/-- R71: the window of BUF ends at 0x13C in the largest configuration. -/
theorem HostEffect.idleWrite_of_buf_ne (hc : s.cfg.wf = true) (hne : t.buf ≠ s.buf) :
    s.IdleWriteIn a 0x040 0x13C := by
  obtain ⟨⟨-, hmax⟩, -⟩ := (Config.wf_iff s.cfg).mp hc
  cases h with
  | bufWrite off k v hp ho hk => exact ⟨hp, off, v, rfl, by omega, by omega⟩
  | _ => exact absurd rfl hne

end

/-- With the phase IDLE an engine step changes nothing (R17). -/
theorem EngineEffect.eq_of_idle {s t : State} (h : EngineEffect s t) (hp : s.phase = .idle) : t = s := by
  cases h with
  | idle => rfl
  | _ => simp_all

/-- Settles O35, by the next event. -/
theorem operandsChangeOnlyByTheirWriters : Obligations.OperandsChangeOnlyByTheirWriters := by
  unfold Obligations.OperandsChangeOnlyByTheirWriters
  intro s t hstep idleWrite zeroize reset
  obtain ⟨hcfg, ⟨a, es, hn, he⟩ | ⟨es, hn, he⟩ | ⟨es, hn, rfl⟩⟩ := step_effect hstep
  · have hwrite {lo hi : Nat} : (s.withSchedule es).IdleWriteIn a lo hi → idleWrite lo hi := by
      rintro ⟨hp, off, v, rfl, hlo, hhi⟩
      exact ⟨hp, off, v, es, hn, hlo, hhi⟩
    refine ⟨he.cfg_eq, fun hne => ?_, fun hne => .inl (hwrite (he.idleWrite_of_kek_ne hne)),
      fun hne => .inl (hwrite (he.idleWrite_of_len_ne hne)), fun hne => .inl (hwrite (he.idleWrite_of_keklen_ne hne)),
      fun hne => .inl (hwrite (he.idleWrite_of_buf_ne hcfg hne))⟩
    obtain ⟨hp, rfl⟩ := he.accepted_of_cmdLatch_ne hne
    exact .inl ⟨_, ⟨hp, es, hn⟩, rfl⟩
  · refine ⟨he.cfg_eq, fun hne => absurd he.cmdLatch_eq hne, ?_⟩
    have hbuf : t.buf ≠ s.buf → s.phase ≠ .idle := fun hne hp => hne (by rw [he.eq_of_idle hp]; rfl)
    have hengine : ∃ es, s.engineNext es := ⟨es, hn⟩
    rcases he.keeps_keys_or_zeroizes with ⟨hkek, hlen, hkeklen⟩ | ⟨hp, hc, -⟩
    · exact ⟨fun hne => absurd hkek hne, fun hne => absurd hlen hne, fun hne => absurd hkeklen hne,
        fun hne => .inr (.inl ⟨hbuf hne, hengine⟩)⟩
    · have hz : zeroize := ⟨hp, hc, hengine⟩
      exact ⟨fun _ => .inr (.inl hz), fun _ => .inr (.inl hz), fun _ => .inr (.inl hz),
        fun hne => .inr (.inl ⟨hbuf hne, hengine⟩)⟩
  · have hreset : reset := ⟨es, hn⟩
    exact ⟨rfl, fun _ => .inr hreset, fun _ => .inr (.inr hreset), fun _ => .inr (.inr hreset),
      fun _ => .inr (.inr hreset), fun _ => .inr (.inr hreset)⟩

end Sys2Proof.Machine
end

section
/-! O1, O45. The reset values (R36), and what a bus read depends on (R24, R34, R170). -/

namespace Sys2Proof.Machine

/-- R25, R102: a command that needs the KEK and passes the checks before that of KEKLEN fails when KEKLEN is not 32. -/
theorem exec_of_kekLenOK_false {i : Instr} {s : State} (hz : i ≠ .zeroize) (hwf : i.wf s.cfg = true)
    (hwrap : i = .wrap → wrapLenOK s.cfg s.len = true) (hunwrap : i = .unwrap → unwrapLenOK s.cfg s.len = true)
    (hk : s.kekLenOK = false) : exec i s = .next (s.fail .invalidKekLength) := by
  cases i with
  | wrap => simp [execWrap, hwrap, hk]
  | unwrap => simp [execUnwrap, hunwrap, hk]
  | encBlock => simp [execEncBlock, hwf, hk]
  | decBlock => simp [execDecBlock, hwf, hk]
  | zeroize => exact absurd rfl hz

theorem State.statusWord_resetOf (c : Config) : (State.resetOf c).statusWord = 0 := by
  simp [State.statusWord, State.busy, State.resetOf, flagBit, ErrCode.code]

/-- Settles O1: the components by their definition, the commands by the check of KEKLEN, which reset leaves zero. -/
theorem resetStateHoldsResetValues : Obligations.ResetStateHoldsResetValues := by
  unfold Obligations.ResetStateHoldsResetValues
  intro c s
  refine ⟨Memory.read_zeros, Memory.read_zeros, rfl, rfl, rfl, rfl, rfl, rfl, rfl, rfl, rfl, rfl, rfl,
    State.statusWord_resetOf c, rfl, ?_⟩
  intro i buf l hz hwf hwrap hunwrap
  exact ⟨_, exec_of_kekLenOK_false hz hwf hwrap hunwrap rfl, rfl⟩

/-- R74: STATUS shows BUSY, DONE, ERRCODE and BUSYERR, and nothing else. -/
theorem State.statusWord_congr {s t : State} (hbusy : t.busy = s.busy) (hdone : t.done = s.done)
    (herr : t.errcode = s.errcode) (hbusyErr : t.busyErr = s.busyErr) : t.statusWord = s.statusWord := by
  simp only [State.statusWord, hbusy, hdone, herr, hbusyErr]

/-- R170: a bus read depends on the configuration, BUSY, STATUS, LEN and KEKLEN, and while idle on BUF. -/
theorem busRead_congr {s t : State} (hbusy : t.busy = s.busy) (hcfg : t.cfg = s.cfg)
    (hstatus : t.statusWord = s.statusWord) (hlen : t.len = s.len) (hkeklen : t.keklen = s.keklen)
    (hbuf : s.busy = false → t.buf = s.buf) (off : Nat) : busRead t off = busRead s off := by
  unfold busRead
  rw [hcfg]
  cases hr : regAt s.cfg off with
  | bufWord k =>
    cases hb : s.busy with
    | true => simp [hbusy, hb]
    | false => simp [hbusy, hb, hbuf hb]
  | _ => simp only [hstatus, hlen, hkeklen]

/-- Settles O45: neither replacement touches what a bus read depends on. -/
theorem busyReadsRevealNothing : Obligations.BusyReadsRevealNothing := by
  unfold Obligations.BusyReadsRevealNothing
  refine ⟨fun s kek off => ?_, fun s kek buf pc p n j i off hb hp => ?_⟩
  · have hbusy : ({ s with kek := kek } : State).busy = s.busy := rfl
    exact busRead_congr hbusy rfl (State.statusWord_congr hbusy rfl rfl rfl) rfl rfl (fun _ => rfl) off
  · have hbusy : ({ s with kek := kek, buf := buf, pcache := pc, phase := p, n := n, j := j, i := i } : State).busy
        = s.busy := by
      rw [hb, busy_iff]
      exact hp
    exact busRead_congr hbusy rfl (State.statusWord_congr hbusy rfl rfl rfl) rfl rfl (by simp [hb]) off

end Sys2Proof.Machine
end

section
/-! O36. After acceptance STATUS shows exactly one of BUSY and DONE (R61): DONE and BUSY become opposite at acceptance, and
every step but reset keeps them so. -/

namespace Sys2Proof.Machine

/-- R74: bit 0 of STATUS is BUSY. -/
theorem State.statusWord_getLsbD_zero (s : State) : s.statusWord.getLsbD 0 = s.busy := by
  cases hb : s.busy <;> simp [State.statusWord, flagBit, hb]

/-- R74: bit 1 of STATUS is DONE. -/
theorem State.statusWord_getLsbD_one (s : State) : s.statusWord.getLsbD 1 = s.done := by
  cases hd : s.done <;> cases hb : s.busy <;> simp [State.statusWord, flagBit, hd, hb]

/-- R100: an admitted write to CMD while idle accepts the word. -/
theorem hostStep_cmd {s : State} (hp : s.phase = .idle) (v : Word) :
    hostStep s ⟨0x000, .w32, .write v⟩ = { s.acceptCmd v with resp := some .written } := by
  simp [hostStep_write, busWrite_cmd hp]

/-- R100: what the step leaves that accepts a command word. -/
theorem eq_acceptCmd_of_step {s t : State} {v : Word} (h : s.acceptNext v) (hstep : step s = .next t) :
    ∃ es, s.hostNext ⟨0x000, .w32, .write v⟩ es
      ∧ t = { (s.withSchedule es).acceptCmd v with resp := some .written } := by
  obtain ⟨hp, es, hn⟩ := h
  obtain ⟨hw, -⟩ := step_cases hstep
  refine ⟨es, hn, Host.Outcome.next.inj (hstep.symm.trans ?_)⟩
  rw [step_of_hostNext hw hn, hostStep_cmd (s := s.withSchedule es) hp]

/-- R32 (c): a running command has DONE = 0. -/
theorem Inv.done_of_busy {s : State} (h : Inv s) (hb : s.busy = true) : s.done = false := by
  cases hd : s.done with
  | false => rfl
  | true => exact absurd (h.doneIdle hd) ((busy_iff s).mp hb)

/-- R61: where BUSY or DONE is 1 and the invariant holds, DONE is the opposite of BUSY. -/
theorem Inv.done_eq_not_busy {s : State} (h : Inv s) (hbd : s.busy = true ∨ s.done = true) : s.done = !s.busy := by
  rcases hbd with hb | hd
  · rw [hb, h.done_of_busy hb]
    rfl
  · rw [hd, (busy_false_iff s).mpr (h.doneIdle hd)]
    rfl

/-- R61 (b): a step that is no reset keeps DONE the opposite of BUSY. -/
theorem done_eq_not_busy_of_step {s t : State} (h : step s = .next t) (hr : ¬ ∃ es, s.resetNext es)
    (hs : s.done = !s.busy) : t.done = !t.busy := by
  rcases step_flags_cases h with ⟨-, -, hp, hd⟩ | ⟨-, hp, hd, -⟩ | ⟨hreset, -⟩ | ⟨hp, hd, -⟩
  · simp [State.busy, hp, hd]
  · simp [State.busy, hp, hd]
  · exact absurd hreset hr
  · simpa [State.busy, hp, hd] using hs

/-- Settles O36: acceptance sets BUSY and clears DONE, and the other steps keep the two opposite. -/
theorem statusShowsBusyOrDone : Obligations.StatusShowsBusyOrDone := by
  unfold Obligations.StatusShowsBusyOrDone
  intro s t hinv hstep hreset hcause
  have hopposite : t.done = !t.busy := by
    rcases hcause with ⟨v, hv⟩ | hbd
    · obtain ⟨es, -, rfl⟩ := eq_acceptCmd_of_step hv hstep
      rfl
    · exact done_eq_not_busy_of_step hstep hreset (hinv.done_eq_not_busy hbd)
  rw [State.statusWord_getLsbD_zero, State.statusWord_getLsbD_one, hopposite]
  cases t.busy <;> decide

end Sys2Proof.Machine
end

section
/-! O12. Accesses that do not get through: bus errors, and bus addresses outside the window (R50, R54). -/

namespace Sys2Proof.Machine

/-- R50: the addresses that do not reach the block are those outside the 0x200 bytes at BASE. -/
theorem windowOffset_eq_none_iff (c : Config) (addr : Nat) :
    windowOffset c addr = none ↔ addr < c.base ∨ c.base + 0x200 ≤ addr := by
  simp only [windowOffset, ite_eq_right_iff, reduceCtorEq, imp_false]
  omega

/-- R50: the offset is the distance from BASE. -/
theorem base_add_windowOffset {c : Config} {addr : Nat} {off : BitVec 9} (h : windowOffset c addr = some off) :
    c.base + off.toNat = addr := by
  obtain ⟨hin, he⟩ := Option.ite_none_right_eq_some.mp h
  obtain rfl := Option.some.inj he
  rw [BitVec.toNat_ofNat]
  omega

/-- Settles O12: the step of a bus error by the access it names, the window by its bounds. -/
theorem busErrorHasNoEffect : Obligations.BusErrorHasNoEffect := by
  unfold Obligations.BusErrorHasNoEffect
  refine ⟨fun s a es hw hn herr => ?_, fun c addr => ⟨windowOffset_eq_none_iff c addr, fun _ => base_add_windowOffset⟩⟩
  rw [step_of_hostNext hw hn, hostStep_error _ herr]
  rfl

end Sys2Proof.Machine
end

section
/-! O5, O6, O7. Decoding against encoding and against the opcode table, and the legal words (R73, R77, R78, R84). -/

namespace Sys2Proof

/-- R84: the decoder reads the encoder's word back. -/
@[simp] theorem decode_encode (i : Instr) : decode (encode i) = .instr i := by
  cases i <;> decide

theorem decode_eq_instr_iff {w : Word} {i : Instr} : decode w = .instr i ↔ w = encode i :=
  ⟨Machine.eq_encode_of_decode, by rintro rfl; exact decode_encode i⟩

/-- R84: every row of the opcode table has the full mask, since RSVD must be zero. -/
theorem opcodeTable_mask : ∀ r ∈ opcodeTable, r.mask = 0xFFFFFFFF#32 := by decide

/-- R77, R84: the value of a row is its command's word. -/
theorem opcodeTable_val : ∀ r ∈ opcodeTable, r.val = encode r.instr := by decide

/-- R84: every command has a row. -/
theorem exists_opcodeTable_row (i : Instr) : ∃ r ∈ opcodeTable, r.instr = i := by
  cases i <;> decide

/-- R84: a word matches a row exactly when it is the word of the row's command. -/
theorem row_matches_iff {r : OpcodeRow} (hr : r ∈ opcodeTable) (w : Word) :
    w &&& r.mask = r.val ↔ w = encode r.instr := by
  have hall : w &&& 0xFFFFFFFF#32 = w := BitVec.and_allOnes
  rw [opcodeTable_mask r hr, opcodeTable_val r hr, hall]

/-- R84: to match some row of the table is to be the word of some command. -/
theorem exists_row_matches_iff (p : Instr → Prop) (w : Word) :
    (∃ r ∈ opcodeTable, w &&& r.mask = r.val ∧ p r.instr) ↔ ∃ i, w = encode i ∧ p i := by
  constructor
  · rintro ⟨r, hr, hw, hp⟩
    exact ⟨r.instr, (row_matches_iff hr w).mp hw, hp⟩
  · rintro ⟨i, hw, hp⟩
    obtain ⟨r, hr, rfl⟩ := exists_opcodeTable_row i
    exact ⟨r, hr, (row_matches_iff hr w).mpr hw, hp⟩

/-- R78, third condition: only ENC_BLOCK and DEC_BLOCK ask for ADAPTER_CMDS = ENABLED. -/
theorem Instr.wf_iff (c : Config) (i : Instr) :
    i.wf c = true ↔ (i = .encBlock ∨ i = .decBlock → c.adapter = .enabled) := by
  cases i <;> simp [Instr.wf]

/-- R78: the legal words are those of the commands that the configuration admits. -/
theorem legal_iff_encode (c : Config) (w : Word) : legal c w = true ↔ ∃ i, w = encode i ∧ i.wf c = true := by
  simp only [Machine.legal_iff, decode_eq_instr_iff]

/-- R73: a word is a command's exactly when its RSVD is zero and its OP is the command's. -/
theorem eq_encode_iff (w : Word) (i : Instr) : w = encode i ↔ rsvdField w = 0#28 ∧ opField w = i.op := by
  constructor
  · rintro rfl
    exact ⟨BitVec.extractLsb'_append_eq_left, BitVec.extractLsb'_append_eq_right⟩
  · rintro ⟨hr, ho⟩
    have hdec : decode w = decode (encode i) := by
      simp only [decode, hr, ho]
      cases i <;> rfl
    exact decode_eq_instr_iff.mp (hdec.trans (decode_encode i))

/-- R77: the values of OP that select a command. -/
theorem Instr.op_mem (i : Instr) : i.op ∈ ([0x1, 0x2, 0x3, 0x4, 0x5] : List (BitVec 4)) := by
  cases i <;> decide

/-- R77: the values of OP that select a command of the adapter. -/
theorem Instr.op_mem_adapter_iff (i : Instr) :
    i.op ∈ ([0x3, 0x4] : List (BitVec 4)) ↔ i = .encBlock ∨ i = .decBlock := by
  cases i <;> decide

/-- R78: the three conditions, on the fields of the word. -/
theorem legal_iff_fields (c : Config) (w : Word) :
    legal c w = true ↔ rsvdField w = 0#28 ∧ opField w ∈ ([0x1, 0x2, 0x3, 0x4, 0x5] : List (BitVec 4))
      ∧ (opField w ∈ ([0x3, 0x4] : List (BitVec 4)) → c.adapter = .enabled) := by
  simp only [legal_iff_encode, eq_encode_iff]
  constructor
  · rintro ⟨i, ⟨hr, ho⟩, hi⟩
    rw [ho]
    exact ⟨hr, i.op_mem, fun h => (Instr.wf_iff c i).mp hi (i.op_mem_adapter_iff.mp h)⟩
  · rintro ⟨hr, ho, ha⟩
    simp only [List.mem_cons, List.not_mem_nil, or_false] at ho
    rcases ho with ho | ho | ho | ho | ho
    · exact ⟨.wrap, ⟨hr, ho⟩, rfl⟩
    · exact ⟨.unwrap, ⟨hr, ho⟩, rfl⟩
    · exact ⟨.encBlock, ⟨hr, ho⟩, by simp [Instr.wf, ha, ho]⟩
    · exact ⟨.decBlock, ⟨hr, ho⟩, by simp [Instr.wf, ha, ho]⟩
    · exact ⟨.zeroize, ⟨hr, ho⟩, rfl⟩

/-- R78: the list of the legal words. -/
theorem legal_iff_word (c : Config) (w : Word) :
    legal c w = true ↔ w = 0x00000001#32 ∨ w = 0x00000002#32 ∨ w = 0x00000005#32
      ∨ c.adapter = .enabled ∧ (w = 0x00000003#32 ∨ w = 0x00000004#32) := by
  rw [legal_iff_encode]
  constructor
  · rintro ⟨i, rfl, hi⟩
    cases i <;> simp_all [Instr.wf, encode, Instr.op]
  · rintro (rfl | rfl | rfl | ⟨ha, rfl | rfl⟩)
    · exact ⟨.wrap, rfl, rfl⟩
    · exact ⟨.unwrap, rfl, rfl⟩
    · exact ⟨.zeroize, rfl, rfl⟩
    · exact ⟨.encBlock, rfl, by simp [Instr.wf, ha]⟩
    · exact ⟨.decBlock, rfl, by simp [Instr.wf, ha]⟩

/-- Settles O5: the words and the decoder are closed terms. -/
theorem knownWordsDecode : Obligations.KnownWordsDecode := by
  unfold Obligations.KnownWordsDecode
  decide

/-- Settles O6: a row matches exactly the word of its command, and that is the word that decodes to it. -/
theorem decodeAgreesWithOpcodeTable : Obligations.DecodeAgreesWithOpcodeTable := by
  unfold Obligations.DecodeAgreesWithOpcodeTable
  refine ⟨decode_encode, opcodeTable_mask, fun _ _ => decode_eq_instr_iff.mp, fun w i => ?_, fun c w => ?_⟩
  · have hrow := exists_row_matches_iff (· = i) w
    simp only [exists_eq_right] at hrow
    simp only [decode_eq_instr_iff, ← hrow, and_comm]
  · simp only [legal_iff_encode, Instr.wf_iff]
    exact (exists_row_matches_iff (fun i => i = .encBlock ∨ i = .decBlock → c.adapter = .enabled) w).symm

end Sys2Proof

namespace Sys2Proof.Machine

/-- R100: a CMD write that is next while idle is accepted. -/
theorem step_of_cmdWrite {s : State} {v : Word} {es : List Event} (hw : s.cfg.wf = true) (hp : s.phase = .idle)
    (hn : s.hostNext ⟨0x000, .w32, .write v⟩ es) :
    step s = .next { (s.withSchedule es).acceptCmd v with resp := some .written } := by
  rw [step_of_hostNext hw hn, hostStep_cmd (s := s.withSchedule es) hp]

/-- R161: an engine step of DECODE that is next fails on a word that is not legal. -/
theorem step_of_illegal {s : State} {es : List Event} (hw : s.cfg.wf = true) (hn : s.engineNext es)
    (hp : s.phase = .decode) (hl : legal s.cfg s.cmdLatch = false) :
    step s = .next ((s.withSchedule es).fail .illegalCommand) := by
  rw [step_of_engineNext hw hn]
  exact engineStep_illegal hp hl

/-- Settles O7: the word is accepted, and the engine step of DECODE then fails. -/
theorem legalWordsAreExactlyFive : Obligations.LegalWordsAreExactlyFive := by
  unfold Obligations.LegalWordsAreExactlyFive
  refine ⟨fun c w => ⟨legal_iff_fields c w, legal_iff_word c w⟩, fun s v es hw hp hs hl => ?_⟩
  exact ⟨_, _, step_of_cmdWrite hw hp hs, rfl, step_of_illegal hw rfl rfl hl, rfl, rfl, rfl⟩

end Sys2Proof.Machine
end

section
/-! O15, O16. The bits of STATUS and of PARAM (R74, R75): bit by bit, each word is its fields side by side. -/

namespace Sys2Proof.Machine

theorem flagBit_getLsbD (b : Bool) (k : Nat) : (flagBit b).getLsbD k = (b && decide (k = 0)) := by
  cases b <;> simp [flagBit, BitVec.getLsbD_one]

/-- A flag moved to bit `m` of a word is that bit. -/
theorem flagBit_shiftLeft_getLsbD (b : Bool) (m : Nat) {k : Nat} (hk : k < 32) :
    (flagBit b <<< m).getLsbD k = (b && decide (k = m)) := by
  have hm : ¬ k < m ∧ k - m = 0 ↔ k = m := by omega
  simp only [BitVec.getLsbD_shiftLeft, flagBit_getLsbD, hk, decide_true, Bool.true_and]
  rw [Bool.and_left_comm, ← decide_not, ← Bool.decide_and, decide_eq_decide.mpr hm]

/-- R74: every bit of STATUS. -/
theorem State.statusWord_getLsbD (s : State) {k : Nat} (hk : k < 32) : s.statusWord.getLsbD k
    = (s.busy && decide (k = 0) || s.done && decide (k = 1) || decide (4 ≤ k) && s.errcode.code.getLsbD (k - 4)
      || s.busyErr && decide (k = 8)) := by
  have hk4 : k - 4 < 32 := by omega
  simp only [State.statusWord, BitVec.getLsbD_or, flagBit_getLsbD, flagBit_shiftLeft_getLsbD _ _ hk,
    BitVec.getLsbD_shiftLeft, BitVec.getLsbD_setWidth, hk, hk4, decide_true, Bool.true_and, ← decide_not, Nat.not_lt]

/-- R75: every bit of PARAM. -/
theorem paramWord_getLsbD (c : Config) {k : Nat} (hk : k < 32) : (paramWord c).getLsbD k
    = ((BitVec.ofNat 8 c.nmax).getLsbD k || decide (c.policy = .library) && decide (k = 8)
      || decide (c.adapter = .enabled) && decide (k = 9)) := by
  simp only [paramWord, BitVec.getLsbD_or, flagBit_shiftLeft_getLsbD _ _ hk, BitVec.getLsbD_setWidth, hk,
    decide_true, Bool.true_and]

/-- R74: bits 3:2 and 31:9 of STATUS read zero. -/
theorem State.statusWord_reserved (s : State) {lo n : Nat} (hn : lo + n ≤ 32) (hlo : 2 ≤ lo ∧ lo + n ≤ 4 ∨ 9 ≤ lo) :
    s.statusWord.extractLsb' lo n = 0#n := by
  apply BitVec.eq_of_getLsbD_eq
  intro k hk
  have herr : (decide (4 ≤ lo + k) && s.errcode.code.getLsbD (lo + k - 4)) = false := by
    rcases hlo with ⟨-, h4⟩ | h9
    · simp [show ¬ 4 ≤ lo + k by omega]
    · simp [BitVec.getLsbD_of_ge s.errcode.code (lo + k - 4) (by omega)]
  have hne : lo ≠ 0 ∧ lo + k ≠ 1 ∧ lo + k ≠ 8 := by omega
  rw [BitVec.getLsbD_extractLsb', s.statusWord_getLsbD (by omega), herr]
  simp [hne]

/-- R74: bits 7:4 of STATUS are ERRCODE. -/
theorem State.statusWord_errcode (s : State) : s.statusWord.extractLsb' 4 4 = s.errcode.code := by
  apply BitVec.eq_of_getLsbD_eq
  intro k hk
  have hne : 4 + k ≠ 1 ∧ 4 + k ≠ 8 := by omega
  rw [BitVec.getLsbD_extractLsb', s.statusWord_getLsbD (by omega)]
  simp [hk, hne]

/-- R74: bit 8 of STATUS is BUSYERR. -/
theorem State.statusWord_busyErr (s : State) : s.statusWord.getLsbD 8 = s.busyErr := by
  rw [s.statusWord_getLsbD (by omega)]
  simp

/-- Settles O15, field by field. -/
theorem statusWordFields : Obligations.StatusWordFields := by
  unfold Obligations.StatusWordFields
  intro s w
  exact ⟨s.statusWord_getLsbD_zero, s.statusWord_getLsbD_one, s.statusWord_reserved (by omega) (by omega),
    s.statusWord_errcode, s.statusWord_busyErr, s.statusWord_reserved (by omega) (by omega)⟩

/-- R75: bits 7:0 of PARAM are NMAX. -/
theorem paramWord_nmax {c : Config} (h : c.wf = true) : ((paramWord c).extractLsb' 0 8).toNat = c.nmax := by
  obtain ⟨⟨-, hmax⟩, -⟩ := (Config.wf_iff c).mp h
  have hfield : (paramWord c).extractLsb' 0 8 = BitVec.ofNat 8 c.nmax := by
    apply BitVec.eq_of_getLsbD_eq
    intro k hk
    have hne : k ≠ 8 ∧ k ≠ 9 := by omega
    rw [BitVec.getLsbD_extractLsb', paramWord_getLsbD c (by omega)]
    simp [hk, hne]
  rw [hfield, BitVec.toNat_ofNat]
  omega

/-- R75: bit 8 of PARAM is LENGTH_POLICY. -/
theorem paramWord_policy (c : Config) : (paramWord c).getLsbD 8 = decide (c.policy = .library) := by
  rw [paramWord_getLsbD c (by omega)]
  simp

/-- R75: bit 9 of PARAM is ADAPTER_CMDS. -/
theorem paramWord_adapter (c : Config) : (paramWord c).getLsbD 9 = decide (c.adapter = .enabled) := by
  rw [paramWord_getLsbD c (by omega)]
  simp

/-- R75: bits 31:10 of PARAM read zero. -/
theorem paramWord_reserved (c : Config) : (paramWord c).extractLsb' 10 22 = 0#22 := by
  apply BitVec.eq_of_getLsbD_eq
  intro k hk
  have hnmax : (BitVec.ofNat 8 c.nmax).getLsbD (10 + k) = false := BitVec.getLsbD_of_ge _ _ (by omega)
  have hne : 10 + k ≠ 8 ∧ 10 + k ≠ 9 := by omega
  rw [BitVec.getLsbD_extractLsb', paramWord_getLsbD c (by omega), hnmax]
  simp [hne]

/-- Settles O16: the fields by their bits; PARAM reads no other parameter. -/
theorem paramWordFields : Obligations.ParamWordFields := by
  unfold Obligations.ParamWordFields
  have hdefault : paramWord Config.default = 0x00000304#32 := by decide
  exact ⟨fun c h => ⟨paramWord_nmax h, paramWord_policy c, paramWord_adapter c, paramWord_reserved c⟩, hdefault,
    fun _ _ _ => rfl⟩

end Sys2Proof.Machine
end
section
/-! O39, O44, O50. Steps and polling: no step stops (R80, R200), POLL ends because the engine step between two reads
brings the command nearer to its end (R17, R83, R109), and what the engine steps keep then holds at the end. -/

namespace Sys2Proof.Machine

/-- Settles O39, by the next event: only an engine step could stop, and PCACHE is sound. -/
theorem everyStepAnswersNext : Obligations.EveryStepAnswersNext := by
  unfold Obligations.EveryStepAnswersNext
  intro s hinv
  rcases next_cases s with ⟨a, es, hn⟩ | ⟨es, hn⟩ | ⟨es, hn⟩
  · exact ⟨_, step_of_hostNext hinv.cfgWf hn⟩
  · rw [step_of_engineNext hinv.cfgWf hn]
    exact engineStep_next_of_sound (s := s.withSchedule es) hinv.pcacheSound
  · exact ⟨_, step_of_resetNext hinv.cfgWf hn⟩

/-! ### POLL (R83) -/

/-- The state after a read that answered `w` (R170). -/
def State.answered (s : State) (w : Word) : State := { s with resp := some (.data w) }

theorem readWord_status {s : State} (hw : s.cfg.wf = true) :
    readWord offSTATUS s = some (s.answered s.statusWord, s.statusWord) :=
  readWord_eq hw (by decide)

/-- POLL ends with the read that finds the machine idle. -/
theorem poll_of_idle {s : State} (hw : s.cfg.wf = true) (hp : s.phase = .idle) (fuel : Nat) :
    poll (fuel + 1) s = some (s.answered s.statusWord, s.statusWord) := by
  simp only [poll, readWord_status hw, s.statusWord_getLsbD_zero, (busy_false_iff s).mpr hp,
    Bool.false_eq_true, if_false]

/-- While the machine is busy, POLL reads again after a step. -/
theorem poll_of_busy {s t : State} (hw : s.cfg.wf = true) (hb : s.phase ≠ .idle)
    (hs : step (s.answered s.statusWord) = .next t) (fuel : Nat) : poll (fuel + 1) s = poll fuel t := by
  simp only [poll, readWord_status hw, s.statusWord_getLsbD_zero, (busy_iff s).mpr hb, if_true, hs]

theorem State.CanComplete.answered {s : State} (h : s.CanComplete) (w : Word) : (s.answered w).CanComplete :=
  ⟨h.cfgWf, h.noEvents, h.pcacheSound, h.indexes⟩

/-- With no event pending the next step is the engine's (R17). -/
theorem State.CanComplete.step_eq {s : State} (h : s.CanComplete) : Machine.step s = engineStep s := by
  rw [step_of_engineNext h.cfgWf (engineNext_of_nil h.noEvents), ← h.noEvents, s.withSchedule_self]

/-- R17, R83: POLL ends with the machine idle, and with whatever reads of STATUS and engine steps of a busy machine
keep. -/
theorem State.CanComplete.poll_ends {P : State → Prop} (hread : ∀ s w, P s → P (s.answered w))
    (hengine : ∀ s t : State, s.phase ≠ .idle → engineStep s = .next t → P s → P t) {m : Nat} :
    ∀ {s : State}, s.CanComplete → s.stepsLeft ≤ m → P s →
      ∃ fuel t, poll fuel s = some (t, t.statusWord) ∧ t.phase = .idle ∧ P t := by
  induction m with
  | zero =>
    intro s h hm hP
    have hp : s.phase = .idle := by
      by_contra hb
      have := State.stepsLeft_pos hb h.indexes
      omega
    exact ⟨1, _, poll_of_idle h.cfgWf hp 0, hp, hread _ _ hP⟩
  | succ m ih =>
    intro s h hm hP
    by_cases hp : s.phase = .idle
    · exact ⟨1, _, poll_of_idle h.cfgWf hp 0, hp, hread _ _ hP⟩
    · have hans := h.answered s.statusWord
      obtain ⟨u, hu, hcan, hlt, -⟩ := hans.step hp
      have hlt' : u.stepsLeft < s.stepsLeft := hlt
      have hP' := hengine (s.answered _) u hp (hans.step_eq.symm.trans hu) (hread s s.statusWord hP)
      obtain ⟨fuel, t, ht⟩ := ih hcan (by omega) hP'
      exact ⟨fuel + 1, t, by rwa [poll_of_busy h.cfgWf hp hu]⟩

/-- With no event pending, the invariant lets the machine run to completion. -/
theorem Inv.canComplete {s : State} (h : Inv s) (hs : s.schedule = []) : s.CanComplete :=
  ⟨h.cfgWf, hs, h.pcacheSound, h.loopIndex⟩

/-- Settles O44, by the number of engine steps left. -/
theorem pollTerminates : Obligations.PollTerminates := by
  unfold Obligations.PollTerminates
  intro s hinv hs
  obtain ⟨fuel, t, hpoll, hp, -⟩ := (hinv.canComplete hs).poll_ends (P := fun _ => True)
    (fun _ _ h => h) (fun _ _ _ _ h => h) le_rfl trivial
  exact ⟨fuel, t, t.statusWord, hpoll, by rw [t.statusWord_getLsbD_zero, (busy_false_iff t).mpr hp], rfl, hp⟩

/-! ### RUN (R83) -/

/-- `s` is between the acceptance of the word `op` under configuration `c` and the end of its command: once idle it
shows DONE, and where `op` is not legal it is still to be decoded or has failed (R78, R108, R161). -/
structure State.RunsWord (c : Config) (op : Word) (s : State) : Prop where
  cfg : s.cfg = c
  latch : s.cmdLatch = op
  done : s.phase = .idle → s.done = true
  illegal : legal c op = false → s.phase = .decode ∨ s.phase = .idle ∧ s.errcode = .illegalCommand

theorem State.RunsWord.answered {c : Config} {op : Word} {s : State} (h : s.RunsWord c op) (w : Word) :
    (s.answered w).RunsWord c op := ⟨h.cfg, h.latch, h.done, h.illegal⟩

theorem State.RunsWord.engineStep {c : Config} {op : Word} {s t : State} (h : s.RunsWord c op) (hb : s.phase ≠ .idle)
    (ht : engineStep s = .next t) : t.RunsWord c op := by
  have he := engineEffect_of_engineStep ht
  refine ⟨he.cfg_eq.trans h.cfg, he.cmdLatch_eq.trans h.latch, he.done_of_idle hb, fun hl => ?_⟩
  rcases h.illegal hl with hp | ⟨hp, -⟩
  · rw [engineStep_illegal hp (by rwa [h.cfg, h.latch])] at ht
    cases ht
    exact .inr ⟨rfl, rfl⟩
  · exact absurd hp hb

/-- R82, R83, R100: RUN polls from the state that accepted its word. -/
theorem runCmd_of_idle {s : State} (hw : s.cfg.wf = true) (hp : s.phase = .idle) (fuel : Nat) (op : Word) :
    runCmd fuel op s = poll fuel { s.acceptCmd op with resp := some .written } := by
  have hstep := step_of_cmdWrite (s := s.withSchedule (wr offCMD op :: s.schedule)) hw hp rfl
  simp only [runCmd, hstep]
  rfl

/-- Settles O50: POLL ends, and engine steps keep that the word `op` is being run. -/
theorem runEndsWithDone : Obligations.RunEndsWithDone := by
  unfold Obligations.RunEndsWithDone
  intro s op hinv hs hp
  have hacc : Inv { s.acceptCmd op with resp := some .written } := (hinv.acceptCmd op).answer _ _
  obtain ⟨fuel, t, hpoll, htp, hrun⟩ := (hacc.canComplete hs).poll_ends (P := State.RunsWord s.cfg op)
    (fun _ w h => h.answered w) (fun _ _ hb ht h => h.engineStep hb ht) le_rfl ⟨rfl, rfl, by simp, fun _ => .inl rfl⟩
  refine ⟨fuel, t, t.statusWord, (runCmd_of_idle hinv.cfgWf hp fuel op).trans hpoll, rfl, ?_, ?_, htp, hrun.latch,
    fun hl => ?_⟩
  · rw [t.statusWord_getLsbD_zero, (busy_false_iff t).mpr htp]
  · rw [t.statusWord_getLsbD_one, hrun.done htp]
  · rcases hrun.illegal hl with hd | ⟨-, herr⟩
    · rw [htp] at hd
      cases hd
    · rw [t.statusWord_errcode, herr]
      rfl

end Sys2Proof.Machine
end

section
/-! O49. RDBUF (R71, R83, R172): every read answers a word of what the host sees of BUF. -/

namespace Sys2Proof.Machine

theorem Memory.readBytes_add (m : Memory) (a k l : Nat) :
    m.readBytes a (k + l) = m.readBytes a k ++ m.readBytes (a + k) l := by
  induction k generalizing a with
  | zero => simp [Memory.readBytes]
  | succ k ih =>
    have hk : k + 1 + l = k + l + 1 := by omega
    have ha : a + 1 + k = a + (k + 1) := by omega
    simp only [hk, Memory.readBytes, ih, ha, List.cons_append]

theorem Memory.readBytes_zeros (a k : Nat) : Memory.zeros.readBytes a k = List.replicate k 0x00#8 := by
  induction k generalizing a with
  | zero => rfl
  | succ k ih => simp [Memory.readBytes, ih, List.replicate_succ]

/-- R52: the bytes of the word over bytes 4k to 4k+3. -/
theorem Memory.bytesOf_word (m : Memory) (k : Nat) : bytesOf 4 (m.word k).toNat = m.readBytes (4 * k) 4 :=
  bytesOf_ofNat_be (k := 4) (m.readBytes_length (4 * k) 4)

/-- What the host sees of BUF: zeros while a command runs (R172 (f)). -/
def State.visibleBuf (s : State) : Memory := if s.busy then Memory.zeros else s.buf

theorem State.visibleBuf_of_busy {s : State} (h : s.busy = true) : s.visibleBuf = Memory.zeros := by
  simp [State.visibleBuf, h]

theorem State.visibleBuf_of_idle {s : State} (h : s.busy = false) : s.visibleBuf = s.buf := by
  simp [State.visibleBuf, h]

/-- R170, R172: a read of an implemented BUF word. -/
theorem busRead_offBUF {s : State} {k : Nat} (hw : s.cfg.wf = true) (hk : k < 2 * (s.cfg.nmax + 1)) :
    busRead s (offBUF k).toNat = s.visibleBuf.word k := by
  obtain ⟨⟨-, hmax⟩, -⟩ := (Config.wf_iff s.cfg).mp hw
  rw [busRead, regAt_offBUF (by omega) hk]
  cases hb : s.busy with
  | true => simp [State.visibleBuf_of_busy hb, Memory.word, Memory.readBytes_zeros, be]
  | false => simp [State.visibleBuf_of_idle hb]

theorem offBUF_aligned (k : Nat) : (offBUF k).toNat % 4 = 0 := by
  simp only [offBUF, BitVec.toNat_ofNat]
  omega

/-- R83: consecutive reads give the bytes the host sees, and change only the port's response. -/
theorem readBufWords_eq {k : Nat} : ∀ {q : Nat} {s : State}, s.cfg.wf = true → q + k ≤ 2 * (s.cfg.nmax + 1) →
    ∃ r ws, readBufWords q k s = some ({ s with resp := r }, ws)
      ∧ bytesOfWords ws = s.visibleBuf.readBytes (4 * q) (4 * k) := by
  induction k with
  | zero => exact fun _ _ => ⟨_, _, rfl, rfl⟩
  | succ k ih =>
    intro q s hw hk
    have hread := readWord_eq hw (offBUF_aligned q)
    rw [busRead_offBUF hw (by omega)] at hread
    obtain ⟨r, ws, hrest, hbytes⟩ := ih (q := q + 1) (s := { s with resp := some (.data (s.visibleBuf.word q)) }) hw
      (by simp only; omega)
    refine ⟨r, s.visibleBuf.word q :: ws, by simp only [readBufWords, hread, hrest], ?_⟩
    have hlen : 4 * (k + 1) = 4 + 4 * k := by omega
    rw [bytesOfWords_cons, hbytes, Memory.bytesOf_word, hlen, Memory.readBytes_add]
    rfl

/-- Settles O49: the bytes the host sees, which are those of BUF while idle and zeros while busy. -/
theorem rdBufGivesString : Obligations.RdBufGivesString := by
  unfold Obligations.RdBufGivesString
  intro s b m hw hfit
  obtain ⟨r, ws, hread, hbytes⟩ := readBufWords_eq (q := 2 * b) (k := 2 * m) hw (by omega)
  have hb : 4 * (2 * b) = 8 * b := by omega
  have hm : 4 * (2 * m) = 8 * m := by omega
  rw [hb, hm] at hbytes
  have hbuf : readBuf b m s = some ({ s with resp := r }, bytesOfWords ws) := by simp only [readBuf, hread]
  refine ⟨_, _, hbuf, rfl, fun hidle => ?_, fun hbusy => ?_⟩
  · rw [hbytes, State.visibleBuf_of_idle hidle]
  · rw [hbytes, State.visibleBuf_of_busy hbusy, Memory.readBytes_zeros]

end Sys2Proof.Machine
end

section
/-! O14, O48. LDKEK and LDBUF (R71, R72, R83): the writes of a byte string's words store the string. -/

namespace Sys2Proof.Machine

theorem Memory.writeBytes_append (xs ys : List Byte) :
    ∀ (m : Memory) (a : Nat), m.writeBytes a (xs ++ ys) = (m.writeBytes a xs).writeBytes (a + xs.length) ys := by
  induction xs with
  | nil => intros; rfl
  | cons x xs ih =>
    intro m a
    have ha : a + 1 + xs.length = a + (xs.length + 1) := by omega
    simp only [List.cons_append, Memory.writeBytes, ih, List.length_cons, ha]

/-- R83: the first word of a byte string is its first four bytes. -/
theorem wrWords_append_of_length_four {ys : List Byte} (h : ys.length = 4) (off : Nat → BitVec 9) (k : Nat)
    (xs : List Byte) :
    wrWords off k (ys ++ xs) = wr (off k) (BitVec.ofNat 32 (be ys)) :: wrWords off (k + 1) xs := by
  obtain ⟨b0, b1, b2, b3, rfl⟩ := List.length_eq_four.mp h
  rfl

/-! ### Strings stored word by word -/

/-- The port's response after the writes of a byte string's words. -/
def respAfter (r : Option BusResponse) (bs : List Byte) : Option BusResponse := if bs = [] then r else some .written

/-- The byte string `bs` stored in BUF from byte `a` on by the host (R71, R171). -/
def State.storeBuf (s : State) (a : Nat) (bs : List Byte) : State :=
  { s with buf := s.buf.writeBytes a bs, resp := respAfter s.resp bs }

/-- The byte string `bs` stored in KEK from byte `a` on by the host, each write invalidating PCACHE (R33, R72, R171). -/
def State.storeKek (s : State) (a : Nat) (bs : List Byte) : State :=
  { s with
    kek := s.kek.writeBytes a bs, pcache := { s.pcache with valid := s.pcache.valid && bs.isEmpty },
    resp := respAfter s.resp bs }

/-- Under configuration `c`, writes while idle to the words at offsets `off 0` to `off (bound - 1)` store byte strings
as `store` says. -/
structure WordsStore (c : Config) (off : Nat → BitVec 9) (bound : Nat) (store : State → Nat → List Byte → State) :
    Prop where
  nil (s : State) (a : Nat) : store s a [] = s
  append (s : State) (a : Nat) (xs ys : List Byte) : store (store s a xs) (a + xs.length) ys = store s a (xs ++ ys)
  withSchedule (s : State) (a : Nat) (xs : List Byte) (es : List Event) :
    store (s.withSchedule es) a xs = (store s a xs).withSchedule es
  cfg (s : State) (a : Nat) (xs : List Byte) : (store s a xs).cfg = s.cfg
  phase (s : State) (a : Nat) (xs : List Byte) : (store s a xs).phase = s.phase
  step_wr {s : State} {k : Nat} {v : Word} {es : List Event} : s.cfg = c → s.phase = .idle → k < bound →
    s.schedule = wr (off k) v :: es → step s = .next ((store s (4 * k) (bytesOf 4 v.toNat)).withSchedule es)

/-- R83: the writes of a string of `n` words store it. -/
theorem WordsStore.run {c : Config} {off : Nat → BitVec 9} {bound : Nat} {store : State → Nat → List Byte → State}
    (h : WordsStore c off bound store) (es : List Event) {n : Nat} :
    ∀ {s : State} {k : Nat} {xs : List Byte}, s.cfg = c → s.phase = .idle → xs.length = 4 * n → k + n ≤ bound →
      s.schedule = wrWords off k xs ++ es → runSteps n s = .next ((store s (4 * k) xs).withSchedule es) := by
  induction n with
  | zero =>
    intro s k xs _ _ hlen _ hs
    obtain rfl : xs = [] := List.eq_nil_of_length_eq_zero hlen
    have hes : s.schedule = es := hs
    rw [runSteps_zero, h.nil, ← hes, s.withSchedule_self]
  | succ n ih =>
    intro s k xs hcfg hp hlen hk hs
    have hfour : (xs.take 4).length = 4 := by rw [List.length_take]; omega
    have hrest : (xs.drop 4).length = 4 * n := by rw [List.length_drop]; omega
    have hbytes : bytesOf 4 (BitVec.ofNat 32 (be (xs.take 4))).toNat = xs.take 4 := bytesOf_ofNat_be (k := 4) hfour
    rw [← List.take_append_drop 4 xs, wrWords_append_of_length_four hfour] at hs
    have hstep := h.step_wr hcfg hp (by omega) hs
    rw [hbytes] at hstep
    have hrun := ih (s := (store s (4 * k) (xs.take 4)).withSchedule (wrWords off (k + 1) (xs.drop 4) ++ es))
      ((h.cfg ..).trans hcfg) ((h.phase ..).trans hp) hrest (by omega) rfl
    refine (runSteps_succ_of_next hstep n).trans (hrun.trans ?_)
    rw [h.withSchedule]
    have ha : 4 * (k + 1) = 4 * k + (xs.take 4).length := by omega
    rw [ha, h.append, List.take_append_drop]
    rfl

theorem respAfter_append (r : Option BusResponse) (xs ys : List Byte) :
    respAfter (respAfter r xs) ys = respAfter r (xs ++ ys) := by
  cases xs <;> cases ys <;> rfl

theorem respAfter_bytesOf (r : Option BusResponse) (k v : Nat) : respAfter r (bytesOf (k + 1) v) = some .written := by
  simp [respAfter, bytesOf]

/-- R171: a write to a writable register while idle. -/
theorem busWrite_idle {s : State} {off : Nat} {r : BusReg} (hp : s.phase = .idle) (hr : regAt s.cfg off = r)
    (hw : r.writable = true) (v : Word) : busWrite s off v = idleWrite s r v := by
  simp [busWrite, hr, hw, (busy_false_iff s).mpr hp]

/-- R171: the step of an aligned write to a writable register that is next while idle. -/
theorem step_wr_idle {s : State} {off : BitVec 9} {r : BusReg} {v : Word} {es : List Event} (hw : s.cfg.wf = true)
    (hp : s.phase = .idle) (ha : off.toNat % 4 = 0) (hr : regAt s.cfg off.toNat = r) (hwr : r.writable = true)
    (hs : s.schedule = wr off v :: es) :
    step s = .next { idleWrite (s.withSchedule es) r v with resp := some .written } := by
  rw [step_wr hw ha hs, busWrite_idle (s := s.withSchedule es) hp hr hwr]

theorem wordsStore_buf {c : Config} (hc : c.wf = true) : WordsStore c offBUF (2 * (c.nmax + 1)) State.storeBuf where
  nil _ _ := rfl
  append s a xs ys := by simp only [State.storeBuf, Memory.writeBytes_append, respAfter_append]
  withSchedule _ _ _ _ := rfl
  cfg _ _ _ := rfl
  phase _ _ _ := rfl
  step_wr := by
    rintro s k v es rfl hp hk hs
    obtain ⟨⟨-, hmax⟩, -⟩ := (Config.wf_iff s.cfg).mp hc
    rw [step_wr_idle hc hp (offBUF_aligned k) (regAt_offBUF (by omega) hk) rfl hs, State.storeBuf, respAfter_bytesOf]
    rfl

/-- The offset of a KEK word (R72). -/
theorem offKEK_toNat {m : Nat} (h : m < 8) : (offKEK m).toNat = 0x020 + 4 * m := by
  simp only [offKEK, BitVec.toNat_ofNat]
  omega

theorem regAt_offKEK (c : Config) {m : Nat} (h : m < 8) : regAt c (offKEK m).toNat = .kekWord m := by
  have hhigh : 0x020 + 4 * m ≤ 0x03C := by omega
  have hlow : 0x020 + 4 * m ≠ 0x004 ∧ 0x020 + 4 * m ≠ 0x008 ∧ 0x020 + 4 * m ≠ 0x00C ∧ 0x020 + 4 * m ≠ 0x010 := by omega
  simp [offKEK_toNat h, regAt, hhigh, hlow]

theorem wordsStore_kek {c : Config} (hc : c.wf = true) : WordsStore c offKEK 8 State.storeKek where
  nil s a := by simp [State.storeKek, Memory.writeBytes, respAfter]
  append s a xs ys := by
    have hempty : (xs ++ ys).isEmpty = (xs.isEmpty && ys.isEmpty) := by cases xs <;> rfl
    simp only [State.storeKek, Memory.writeBytes_append, respAfter_append, Bool.and_assoc, hempty]
  withSchedule _ _ _ _ := rfl
  cfg _ _ _ := rfl
  phase _ _ _ := rfl
  step_wr := by
    rintro s k v es rfl hp hk hs
    have ha : (offKEK k).toNat % 4 = 0 := by rw [offKEK_toNat hk]; omega
    have hne : (bytesOf 4 v.toNat).isEmpty = false := by simp [bytesOf]
    rw [step_wr_idle hc hp ha (regAt_offKEK s.cfg hk) rfl hs, State.storeKek, respAfter_bytesOf, hne, Bool.and_false]
    rfl

/-! ### The pseudo-operations -/

/-- Settles O48: LDBUF stores its string in BUF from byte 8b on. -/
theorem ldBufStoresString : Obligations.LdBufStoresString := by
  unfold Obligations.LdBufStoresString
  intro s b m xs es hw hp hlen hfit hs
  have hb : 4 * (2 * b) = 8 * b := by omega
  refine ⟨_, (wordsStore_buf hw).run es rfl hp (by omega) (by omega) hs, ?_, fun a ha => ?_, rfl⟩
  · rw [hb, ← hlen]
    exact Memory.readBytes_writeBytes_same xs s.buf (8 * b)
  · rw [hb]
    exact Memory.read_writeBytes_other xs s.buf (8 * b) a (by omega)

/-- R83: eight writes store the 32 bytes of a key, and the ninth sets KEKLEN. -/
theorem runSteps_ldKek_bytes {s : State} {bs : List Byte} {es : List Event} (hw : s.cfg.wf = true)
    (hp : s.phase = .idle) (hlen : bs.length = 32) (hs : s.schedule = wrWords offKEK 0 bs ++ wr offKEKLEN 32 :: es) :
    runSteps 9 s = .next { (s.storeKek 0 bs).withSchedule es with keklen := 32#32, resp := some .written } := by
  have hkey := (wordsStore_kek hw).run (n := 8) _ rfl hp hlen le_rfl hs
  have hkeklen : step ((s.storeKek 0 bs).withSchedule (wr offKEKLEN 32 :: es))
      = .next { (s.storeKek 0 bs).withSchedule es with keklen := 32#32, resp := some .written } :=
    step_wr_idle (s := (s.storeKek 0 bs).withSchedule _) (r := .keklen) hw hp rfl rfl rfl rfl
  exact (runSteps_add hkey 1).trans ((runSteps_succ_of_next hkeklen 0).trans (runSteps_zero _))

/-- Settles O14: KEK then holds the bytes of the key, and PCACHE is invalid. -/
theorem ldKekLoadsKey : Obligations.LdKekLoadsKey := by
  unfold Obligations.LdKekLoadsKey
  intro s key es hw hp hs
  have hlen : (bytesOf 32 key.toNat).length = 32 := bytesOf_length 32 _
  have hbytes : BitVec.ofNat 256 (be (bytesOf 32 key.toNat)) = key := ofNat_be_bytesOf 32 key
  rw [ldKek, List.append_assoc] at hs
  generalize bytesOf 32 key.toNat = bs at hs hlen hbytes
  have hempty : bs.isEmpty = false := by
    cases bs <;> simp_all
  refine ⟨_, runSteps_ldKek_bytes hw hp hlen hs, ?_, ?_⟩
  · have hread := Memory.readBytes_writeBytes_same bs s.kek 0
    rw [hlen] at hread
    rw [← hbytes, State.kekBytes]
    exact congrArg (fun xs => BitVec.ofNat 256 (be xs)) hread
  · simp [State.storeKek, State.withSchedule, hempty]

end Sys2Proof.Machine
end

section
/-! O24, O25, O26. The steps of the loops and the integrity check (R104 to R106, R123, R128, R129): a loop step stores
the two halves of a cipher output, then advances. -/

namespace Sys2Proof.Machine

open Sys2Proof.Machine.Aes

/-! ### The two blocks a loop step stores to -/

/-- R123, R128: after a loop step has stored to block 0 and to block 1 + i, they hold what was stored and no other byte
has changed. -/
theorem Memory.setBlk_setBlk_effect (m : Memory) (i : Nat) (a r : Semiblock) :
    ((m.setBlk 0 a).setBlk (1 + i) r).blk 0 = a ∧ ((m.setBlk 0 a).setBlk (1 + i) r).blk (1 + i) = r
      ∧ ∀ x, x / 8 ≠ 0 → x / 8 ≠ 1 + i → ((m.setBlk 0 a).setBlk (1 + i) r).read x = m.read x := by
  refine ⟨?_, blk_setBlk_same .., fun x h0 hi => ?_⟩
  · rw [blk_setBlk_other _ _ (by omega), blk_setBlk_same]
  · rw [read_setBlk_other _ _ hi, read_setBlk_other _ _ h0]

/-! ### The steps -/

/-- R104, R123, R141: the WRAP_LOOP step, with either provider. -/
theorem wrapLoopStep_eq (s : State) : wrapLoopStep s
    = wrapAdvance (wrapStoreB s (aes256Enc s.kekBytes (joinBlocks (s.buf.blk 0) (s.buf.blk (1 + s.i))))) := by
  rw [wrapLoopStep, blockEncrypt_eq]

/-- R105, R128, R153: the UNWRAP_LOOP step with a sound PCACHE, which it leaves sound. -/
theorem unwrapLoopStep_of_sound {s : State} (h : s.pcache.Sound s.cfg) :
    ∃ pc : PCache, pc.Sound s.cfg ∧ unwrapLoopStep s
      = .next (unwrapAdvance (unwrapStoreB { s with pcache := pc } (aes256Dec s.kekBytes (unwrapInput s)))) := by
  obtain ⟨pc, hd⟩ := blockDecrypt_of_sound h s.kekBytes (unwrapInput s)
  exact ⟨pc, h.blockDecrypt hd, by simp only [unwrapLoopStep, hd]⟩

/-- Settles O24, by the three cases of the advance; each keeps the two blocks stored. -/
theorem wrapLoopStepEffect : Obligations.WrapLoopStepEffect := by
  unfold Obligations.WrapLoopStepEffect
  intro s es hw hn hp b
  have hloop : wrapLoopStep (s.withSchedule es) = wrapAdvance (wrapStoreB (s.withSchedule es) b) := wrapLoopStep_eq _
  have hstep := (step_of_engineNext hw hn).trans (engineStep_wrapLoop (s := s.withSchedule es) hp)
  rw [hloop] at hstep
  obtain ⟨hacc, hreg, hrest⟩ :=
    s.buf.setBlk_setBlk_effect s.i (xorCounter (msb64 b) (stepCounter s.n s.j s.i)) (lsb64 b)
  rcases wrapAdvance_cases (wrapStoreB (s.withSchedule es) b) with ⟨hi, e⟩ | ⟨hi, hj, e⟩ | ⟨hi, hj, e⟩ <;>
    rw [e] at hstep
  · exact ⟨_, hstep, hacc, hreg, hrest, fun _ => rfl, fun h => absurd hi h, fun h => absurd hi h⟩
  · exact ⟨_, hstep, hacc, hreg, hrest, fun h => absurd h hi, fun _ _ => rfl, fun _ h => absurd hj h⟩
  · exact ⟨_, hstep, hacc, hreg, hrest, fun h => absurd h hi, fun _ h => absurd h hj, fun _ _ => rfl⟩

/-- Settles O25, by the three cases of the advance; a sound PCACHE gives the cipher output and stays sound. -/
theorem unwrapLoopStepEffect : Obligations.UnwrapLoopStepEffect := by
  unfold Obligations.UnwrapLoopStepEffect
  intro s es hw hn hp hs b
  obtain ⟨pc, hpc, hloop⟩ : ∃ pc : PCache, pc.Sound s.cfg ∧ unwrapLoopStep (s.withSchedule es)
      = .next (unwrapAdvance (unwrapStoreB { s with pcache := pc, schedule := es } b)) :=
    unwrapLoopStep_of_sound (s := s.withSchedule es) hs
  have hstep := (step_of_engineNext hw hn).trans ((engineStep_unwrapLoop (s := s.withSchedule es) hp).trans hloop)
  obtain ⟨hacc, hreg, hrest⟩ := s.buf.setBlk_setBlk_effect s.i (msb64 b) (lsb64 b)
  rcases unwrapAdvance_cases (unwrapStoreB { s with pcache := pc, schedule := es } b) with
    ⟨hi, e⟩ | ⟨hi, hj, e⟩ | ⟨hi, hj, e⟩ <;> rw [e] at hstep
  · exact ⟨_, hstep, hacc, hreg, hrest, hpc, fun _ => rfl, fun h => absurd h hi.ne', fun h => absurd h hi.ne'⟩
  · exact ⟨_, hstep, hacc, hreg, hrest, hpc, fun h => absurd hi h.ne', fun _ _ => rfl, fun _ h => absurd h hj.ne'⟩
  · exact ⟨_, hstep, hacc, hreg, hrest, hpc, fun h => absurd hi h.ne', fun _ h => absurd hj h.ne', fun _ _ => rfl⟩

/-- Settles O26, by the comparison of block 0 with IV. -/
theorem unwrapCheckEffect : Obligations.UnwrapCheckEffect := by
  unfold Obligations.UnwrapCheckEffect
  intro s es hw hn hp
  have hstep := (step_of_engineNext hw hn).trans (engineStep_unwrapCheck (s := s.withSchedule es) hp)
  rcases unwrapCheckStep_cases (s.withSchedule es) with ⟨heq, e⟩ | ⟨hne, e⟩ <;> rw [e] at hstep
  · exact ⟨_, hstep, fun h => absurd heq h, fun _ => rfl⟩
  · exact ⟨_, hstep, fun _ => ⟨Memory.read_zeros, rfl⟩, fun h => absurd h hne⟩

end Sys2Proof.Machine
end

section
/-! O32, O33. Which error a command reports (R102), and what a command that fails leaves (R107). -/

namespace Sys2Proof

/-- R77: two commands have different words. -/
@[simp] theorem encode_inj {i k : Instr} : encode i = encode k ↔ i = k := by
  rw [← decode_eq_instr_iff, decode_encode, Decoded.instr.injEq]

end Sys2Proof

namespace Sys2Proof.Machine

/-- R32 (c), (d): while a command runs, ERRCODE is NONE. -/
theorem Inv.errcode_of_busy {s : State} (h : Inv s) (hb : s.busy = true) : s.errcode = .noError := by
  by_contra hne
  have hd := h.errDone hne
  rw [h.done_of_busy hb] at hd
  cases hd

/-- R102: the error of the DECODE step, by the first check that fails. -/
theorem EngineEffect.errcode_of_decode {s t : State} (h : EngineEffect s t) (hp : s.phase = .decode)
    (herr : s.errcode = .noError) : t.errcode =
      if legal s.cfg s.cmdLatch = false then .illegalCommand
      else if s.cmdLatch = encode .wrap ∧ wrapLenOK s.cfg s.len = false then .invalidKeyLength
      else if s.cmdLatch = encode .unwrap ∧ unwrapLenOK s.cfg s.len = false then .invalidWrappedKeyLength
      else if s.cmdLatch ≠ encode .zeroize ∧ s.kekLenOK = false then .invalidKekLength
      else .noError := by
  have hlegal {i : Instr} (hc : s.cmdLatch = encode i) (hwf : i.wf s.cfg = true) : legal s.cfg (encode i) = true :=
    (legal_iff_encode _ _).mpr ⟨i, rfl, hwf⟩
  cases h with
  | illegal _ hl => simp [hl]
  | wrapLength _ hc hl => simp [hc, hlegal hc rfl, hl]
  | unwrapLength _ hc hl => simp [hc, hlegal hc rfl, hl]
  | kekLength i _ hc hz hwf hwrap hunwrap hk =>
    have hw : ¬ (i = .wrap ∧ wrapLenOK s.cfg s.len = false) := fun ⟨hi, hl⟩ => by simp [hwrap hi] at hl
    have hu : ¬ (i = .unwrap ∧ unwrapLenOK s.cfg s.len = false) := fun ⟨hi, hl⟩ => by simp [hunwrap hi] at hl
    simp [hc, hlegal hc hwf, hw, hu, hz, hk]
  | wrapSetup _ hc hl hk => simp [hc, hlegal hc rfl, hl, hk, herr]
  | unwrapSetup _ hc hl hk => simp [hc, hlegal hc rfl, hl, hk, herr]
  | encBlock _ hc ha hk => simp [hc, hlegal hc (by simp [Instr.wf, ha]), hk]
  | decBlock _ _ _ hc ha hk => simp [hc, hlegal hc (by simp [Instr.wf, ha]), hk]
  | zeroize _ hc => simp [hc, hlegal hc rfl]
  | idle h | wrapNextBlock _ h | wrapNextRound _ h | wrapEnd _ h | unwrapNextBlock _ _ h | unwrapNextRound _ _ h
  | unwrapEnd _ _ h | checkPassed h | checkFailed h => simp [hp] at h

/-- R106: only the integrity check reports its failure. -/
theorem EngineEffect.unwrapCheck_of_integrityCheckFailed {s t : State} (h : EngineEffect s t)
    (hs : s.errcode ≠ .integrityCheckFailed) (ht : t.errcode = .integrityCheckFailed) : s.phase = .unwrapCheck := by
  cases h with
  | checkFailed hp => exact hp
  | idle | wrapSetup | unwrapSetup | wrapNextBlock | wrapNextRound | unwrapNextBlock | unwrapNextRound | unwrapEnd =>
    exact absurd ht hs
  | illegal | wrapLength | unwrapLength | kekLength | encBlock | decBlock | zeroize | wrapEnd | checkPassed => cases ht

/-- Settles O32, by the effect of the engine step; a running command has recorded no error before. -/
theorem errorPriority : Obligations.ErrorPriority := by
  unfold Obligations.ErrorPriority
  intro s t es hinv hn hstep
  rw [step_of_engineNext hinv.cfgWf hn] at hstep
  have he := engineEffect_of_engineStep hstep
  refine ⟨fun hp => ?_, he.unwrapCheck_of_integrityCheckFailed⟩
  have herr : s.errcode = .noError := hinv.errcode_of_busy ((busy_iff s).mpr (by simp [hp]))
  have hkek : s.kekLenOK = false ↔ s.keklen ≠ 32#32 := by rw [← Bool.not_eq_true, s.kekLenOK_iff]
  simp only [← hkek]
  exact he.errcode_of_decode hp herr

/-- R107: the engine step that completes a command with an error is `Fail` of its code. -/
theorem EngineEffect.eq_fail {s t : State} (h : EngineEffect s t) (hb : s.phase ≠ .idle) (ht : t.phase = .idle)
    (herr : t.errcode ≠ .noError) : t = s.fail t.errcode := by
  cases h with
  | illegal | wrapLength | unwrapLength | kekLength | checkFailed => rfl
  | encBlock | decBlock | zeroize | wrapEnd | checkPassed => exact absurd rfl herr
  | idle hp => exact absurd hp hb
  | wrapNextBlock | wrapNextRound | unwrapNextBlock | unwrapNextRound => exact absurd ht hb
  | wrapSetup | unwrapSetup | unwrapEnd => cases ht

/-- R27, R107: only the engine step that fails ends a command with an error. -/
theorem step_eq_fail {s t : State} (h : step s = .next t) (hb : s.phase ≠ .idle) (ht : t.phase = .idle)
    (herr : t.errcode ≠ .noError) : ∃ es, t = (s.withSchedule es).fail t.errcode := by
  obtain ⟨-, ⟨a, es, -, he⟩ | ⟨es, -, he⟩ | ⟨es, -, rfl⟩⟩ := step_effect h
  · rcases he.accepts_or_keeps_flags with ⟨hp, -⟩ | ⟨hp, -⟩
    · exact absurd hp hb
    · exact absurd (hp.symm.trans ht) hb
  · exact ⟨es, he.eq_fail hb ht herr⟩
  · exact absurd rfl herr

/-- Settles O33: the step is `Fail`, which zeroes BUF and records the code. -/
theorem failedCommandLeavesNothing : Obligations.FailedCommandLeavesNothing := by
  unfold Obligations.FailedCommandLeavesNothing
  intro s t _ hstep hb ht herr
  obtain ⟨es, e⟩ := step_eq_fail hstep ((busy_iff s).mp hb) ((busy_false_iff t).mp ht) herr
  generalize t.errcode = code at e
  subst e
  exact ⟨Memory.read_zeros, rfl, rfl⟩

end Sys2Proof.Machine
end

section
/-! O4, O9. A command's word is accepted while idle (R100), and its DECODE step runs the command (R101). -/

namespace Sys2Proof

/-- R84: a table row's bits are read as the word they are, with the bits above `nbits` zero. -/
theorem decodeTableWord_eq_some_iff {nbits w : Nat} {i : Instr} :
    decodeTableWord nbits w = some i ↔ decode (BitVec.ofNat 32 (w % 2 ^ nbits)) = .instr i := by
  unfold decodeTableWord
  split <;> simp_all

end Sys2Proof

namespace Sys2Proof.Machine

/-- R101: the step in DECODE of a word that decodes to a command. -/
theorem step_of_decode {s : State} {es : List Event} {i : Instr} (hw : s.cfg.wf = true) (hn : s.engineNext es)
    (hp : s.phase = .decode) (hd : decode s.cmdLatch = .instr i) : step s = exec i (s.withSchedule es) := by
  rw [step_of_engineNext hw hn]
  rcases engineStep_decode (s := s.withSchedule es) hp with ⟨i', -, hd', e⟩ | ⟨hne, -⟩
  · cases hd.symm.trans hd'
    exact e
  · exact absurd hd (hne i)

/-- Settles O4: a placed word is latched, in DECODE, with an engine step next. -/
theorem decodedCommandIsExecuted : Obligations.DecodedCommandIsExecuted := by
  unfold Obligations.DecodedCommandIsExecuted
  refine ⟨fun s es i hw hn hp hd => step_of_decode hw hn hp hd, fun s nbits w i hw hd => ?_⟩
  have hn : (s.withFetchWord nbits w).engineNext s.schedule := engineNext_of_cons rfl
  exact step_of_decode (s := s.withFetchWord nbits w) hw hn rfl (decodeTableWord_eq_some_iff.mp hd)

/-- R100, R171: an admitted write to CMD while a command runs is dropped. -/
theorem hostStep_cmd_busy {s : State} (hb : s.phase ≠ .idle) (v : Word) :
    hostStep s ⟨0x000, .w32, .write v⟩ = { s with busyErr := true, resp := some .written } := by
  have hw : (regAt s.cfg 0x000).writable = true := rfl
  simp [hostStep_write, busWrite_busy ((busy_iff s).mpr hb) hw]

/-- Settles O9, by BUSY. -/
theorem cmdWriteIsAccepted : Obligations.CmdWriteIsAccepted := by
  unfold Obligations.CmdWriteIsAccepted
  refine fun s v es hw hn => ⟨fun hp => step_of_cmdWrite hw hp hn, fun hb => ?_⟩
  rw [step_of_hostNext hw hn, hostStep_cmd_busy (s := s.withSchedule es) hb]
  rfl

end Sys2Proof.Machine
end

section
/-! SUPPORT. The key wrap algorithm over lists (R123, R128): a round keeps the number of registers, and unwrapping undoes
wrapping for a cipher and its inverse (R132, R140). -/

namespace Sys2Proof.Rfc3394

open Sys2Proof.Machine

@[simp] theorem wrapRound_length (enc : CipherBlock → CipherBlock) (t : Nat) (a : Semiblock) (rs : List Semiblock) :
    (wrapRound enc t a rs).2.length = rs.length := by
  induction rs generalizing t a with
  | nil => rfl
  | cons r rs ih => simp [wrapRound, ih]

@[simp] theorem unwrapRound_length (dec : CipherBlock → CipherBlock) (t : Nat) (a : Semiblock) (rs : List Semiblock) :
    (unwrapRound dec t a rs).2.length = rs.length := by
  induction rs generalizing t with
  | nil => rfl
  | cons r rs ih => simp [unwrapRound, ih]

@[simp] theorem wrapRounds_length (enc : CipherBlock → CipherBlock) (n m : Nat) (p : Semiblock × List Semiblock) :
    (wrapRounds enc n m p).2.length = p.2.length := by
  induction m with
  | zero => rfl
  | succ m ih => simp [wrapRounds, ih]

@[simp] theorem unwrapRounds_length (dec : CipherBlock → CipherBlock) (n m : Nat) (p : Semiblock × List Semiblock) :
    (unwrapRounds dec n m p).2.length = p.2.length := by
  induction m generalizing p with
  | zero => rfl
  | succ m ih => simp [unwrapRounds, ih]

@[simp] theorem wrap_length (enc : CipherBlock → CipherBlock) (rs : List Semiblock) :
    (wrap enc rs).2.length = rs.length := wrapRounds_length ..

@[simp] theorem unwrap_length (dec : CipherBlock → CipherBlock) (a : Semiblock) (rs : List Semiblock) :
    (unwrap dec a rs).2.length = rs.length := unwrapRounds_length ..

section
variable {enc dec : CipherBlock → CipherBlock} (hinv : ∀ x, dec (enc x) = x)
include hinv

theorem unwrapStep_wrapStep (t : Nat) (a r : Semiblock) :
    unwrapStep dec t (wrapStep enc t a r).1 (wrapStep enc t a r).2 = (a, r) := by
  simp [unwrapStep, wrapStep, hinv]

theorem unwrapRound_wrapRound (t : Nat) (a : Semiblock) (rs : List Semiblock) :
    unwrapRound dec t (wrapRound enc t a rs).1 (wrapRound enc t a rs).2 = (a, rs) := by
  induction rs generalizing t a with
  | nil => rfl
  | cons r rs ih => simp only [wrapRound, unwrapRound, ih, unwrapStep_wrapStep hinv]

theorem unwrapRounds_wrapRounds (n m : Nat) (p : Semiblock × List Semiblock) :
    unwrapRounds dec n m (wrapRounds enc n m p) = p := by
  induction m with
  | zero => rfl
  | succ m ih => rw [wrapRounds, unwrapRounds, unwrapRound_wrapRound hinv, ih]

/-- R132: unwrapping a wrap gives IV and the registers back. -/
theorem unwrap_wrap (rs : List Semiblock) : unwrap dec (wrap enc rs).1 (wrap enc rs).2 = (iv, rs) := by
  rw [unwrap, wrap_length]
  exact unwrapRounds_wrapRounds hinv ..

end

end Sys2Proof.Rfc3394
end

section
/-! SUPPORT. The loop of WRAP and of UNWRAP on BUF alone (R123, R128): step c of the loop, c = n·j + i, uses register
c mod n and the counter c + 1 (R121). Six rounds of steps leave in block 0 and the registers what the algorithm over lists
gives. -/

namespace Sys2Proof.Machine

/-! ### What a stretch of the loop leaves in BUF -/

/-- R[i], ..., R[i+k-1] (R22). -/
def Memory.regsFrom (m : Memory) (i k : Nat) : List Semiblock := (List.range' i k).map (fun b => m.blk (1 + b))

/-- `m'` is `m` with the accumulator and the registers from R[lo] on replaced by `p`. -/
structure Memory.Stores (m : Memory) (lo : Nat) (p : Semiblock × List Semiblock) (m' : Memory) : Prop where
  acc : m'.blk 0 = p.1
  regs : m'.regsFrom lo p.2.length = p.2
  rest : ∀ x, x / 8 ≠ 0 → x / 8 < 1 + lo ∨ 1 + lo + p.2.length ≤ x / 8 → m'.read x = m.read x

theorem State.regs_eq (s : State) (n : Nat) : s.regs n = s.buf.regsFrom 0 n := by
  rw [State.regs, Memory.regsFrom, List.range_eq_range']

@[simp] theorem State.regs_length (s : State) (n : Nat) : (s.regs n).length = n := by simp [State.regs]

@[simp] theorem Memory.regsFrom_length (m : Memory) (i k : Nat) : (m.regsFrom i k).length = k := by
  simp [Memory.regsFrom]

theorem Memory.regsFrom_succ (m : Memory) (i k : Nat) :
    m.regsFrom i (k + 1) = m.blk (1 + i) :: m.regsFrom (i + 1) k := by
  simp [Memory.regsFrom, List.range'_succ]

theorem Memory.regsFrom_congr {m m' : Memory} {i k : Nat}
    (h : ∀ b, i ≤ b → b < i + k → m'.blk (1 + b) = m.blk (1 + b)) : m'.regsFrom i k = m.regsFrom i k :=
  List.map_congr_left fun b hb => h b (List.mem_range'_1.mp hb).1 (List.mem_range'_1.mp hb).2

theorem Memory.blk_eq_of_regsFrom {m m' : Memory} {i k : Nat} (h : m'.regsFrom i k = m.regsFrom i k) {b : Nat}
    (hlo : i ≤ b) (hhi : b < i + k) : m'.blk (1 + b) = m.blk (1 + b) :=
  List.map_inj_left.mp h b (List.mem_range'_1.mpr ⟨hlo, hhi⟩)

section
variable {m m₁ m₂ : Memory} {lo : Nat} {p q : Semiblock × List Semiblock} {a a' r : Semiblock} {rs : List Semiblock}

theorem Memory.Stores.blk (h : m.Stores lo p m₁) {b : Nat} (hb : b < lo ∨ lo + p.2.length ≤ b) :
    m₁.blk (1 + b) = m.blk (1 + b) :=
  Memory.blk_congr fun x hx => h.rest x (by omega) (by omega)

theorem Memory.stores_self (m : Memory) (lo k : Nat) : m.Stores lo (m.blk 0, m.regsFrom lo k) m :=
  ⟨rfl, by simp, fun _ _ _ => rfl⟩

theorem Memory.stores_setBlk_zero (m : Memory) (lo k : Nat) (a : Semiblock) :
    m.Stores lo (a, m.regsFrom lo k) (m.setBlk 0 a) where
  acc := m.blk_setBlk_same 0 a
  regs := by
    simp only [regsFrom_length]
    exact regsFrom_congr fun b _ _ => m.blk_setBlk_other a (by omega)
  rest _ h0 _ := m.read_setBlk_other a h0

theorem Memory.stores_setBlk_setBlk (m : Memory) (i : Nat) (p : Semiblock × Semiblock) :
    m.Stores i (p.1, [p.2]) ((m.setBlk 0 p.1).setBlk (1 + i) p.2) := by
  obtain ⟨hacc, hreg, hrest⟩ := m.setBlk_setBlk_effect i p.1 p.2
  refine ⟨hacc, by simp [regsFrom, hreg], fun x h0 hx => hrest x h0 ?_⟩
  simp only [List.length_singleton] at hx
  omega

/-- What is stored last over the same registers stands. -/
theorem Memory.Stores.trans (h₁ : m.Stores lo p m₁) (h₂ : m₁.Stores lo q m₂) (hlen : p.2.length = q.2.length) :
    m.Stores lo q m₂ :=
  ⟨h₂.acc, h₂.regs, fun x h0 hx => (h₂.rest x h0 hx).trans (h₁.rest x h0 (hlen ▸ hx))⟩

/-- Storing to R[lo] and then to the registers after it. -/
theorem Memory.Stores.ascending (h₁ : m.Stores lo (a', [r]) m₁) (h₂ : m₁.Stores (lo + 1) (a, rs) m₂) :
    m.Stores lo (a, r :: rs) m₂ where
  acc := h₂.acc
  regs := by
    have hr : m₁.blk (1 + lo) = r := by simpa [regsFrom] using h₁.regs
    rw [List.length_cons, regsFrom_succ, h₂.regs, h₂.blk (Or.inl (Nat.lt_succ_self lo)), hr]
  rest x h0 hx := by
    simp only [List.length_cons] at hx
    rw [h₂.rest x h0 (by simp only; omega), h₁.rest x h0 (by simp only [List.length_singleton]; omega)]

/-- Storing to the registers after R[lo] and then to it. -/
theorem Memory.Stores.descending (h₁ : m.Stores (lo + 1) (a', rs) m₁) (h₂ : m₁.Stores lo (a, [r]) m₂) :
    m.Stores lo (a, r :: rs) m₂ where
  acc := h₂.acc
  regs := by
    have hr : m₂.blk (1 + lo) = r := by simpa [regsFrom] using h₂.regs
    have hrs : m₂.regsFrom (lo + 1) rs.length = m₁.regsFrom (lo + 1) rs.length :=
      regsFrom_congr fun b hb _ => h₂.blk (Or.inr hb)
    rw [List.length_cons, regsFrom_succ, hr, hrs, h₁.regs]
  rest x h0 hx := by
    simp only [List.length_cons] at hx
    rw [h₂.rest x h0 (by simp only [List.length_singleton]; omega), h₁.rest x h0 (by simp only; omega)]

end

/-! ### WRAP -/

/-- R123: step c of the WRAP loop on BUF. -/
def Memory.wrapStore (enc : CipherBlock → CipherBlock) (n : Nat) (m : Memory) (c : Nat) : Memory :=
  let p := Rfc3394.wrapStep enc (c + 1) (m.blk 0) (m.blk (1 + c % n))
  (m.setBlk 0 p.1).setBlk (1 + c % n) p.2

section
variable (enc dec : CipherBlock → CipherBlock) {n : Nat}

/-- R104, R123: the steps of round j from register lo on are a round of the algorithm. -/
theorem Memory.wrapStore_round (j : Nat) {k : Nat} : ∀ {lo : Nat} (m : Memory), lo + k ≤ n →
    m.Stores lo (Rfc3394.wrapRound enc (n * j + lo + 1) (m.blk 0) (m.regsFrom lo k))
      ((List.range' (n * j + lo) k).foldl (Memory.wrapStore enc n) m) := by
  induction k with
  | zero => exact fun m _ => m.stores_self _ 0
  | succ k ih =>
    intro lo m hk
    have hlo : lo < n := by omega
    let p := Rfc3394.wrapStep enc (n * j + lo + 1) (m.blk 0) (m.blk (1 + lo))
    have hfirst : m.Stores lo (p.1, [p.2]) (m.wrapStore enc n (n * j + lo)) := by
      rw [Memory.wrapStore, Nat.mul_add_mod, Nat.mod_eq_of_lt hlo]
      exact m.stores_setBlk_setBlk lo p
    have hrest := ih (lo := lo + 1) (m.wrapStore enc n (n * j + lo)) (by omega)
    have hregs : (m.wrapStore enc n (n * j + lo)).regsFrom (lo + 1) k = m.regsFrom (lo + 1) k :=
      regsFrom_congr fun b hb _ => hfirst.blk (Or.inr hb)
    rw [hfirst.acc, hregs] at hrest
    rw [List.range'_succ, List.foldl_cons, regsFrom_succ]
    exact hfirst.ascending hrest

/-- R104, R123: the first `n * r` steps are `r` rounds. -/
theorem Memory.wrapStore_rounds (m : Memory) (r : Nat) :
    m.Stores 0 (Rfc3394.wrapRounds enc n r (m.blk 0, m.regsFrom 0 n))
      ((List.range' 0 (n * r)).foldl (Memory.wrapStore enc n) m) := by
  induction r with
  | zero => exact m.stores_self 0 n
  | succ r ih =>
    have hround := Memory.wrapStore_round enc r
      ((List.range' 0 (n * r)).foldl (Memory.wrapStore enc n) m) (Nat.zero_add n).le
    have hregs := ih.regs
    simp only [Rfc3394.wrapRounds_length, regsFrom_length] at hregs
    rw [ih.acc, hregs] at hround
    rw [Nat.mul_succ, ← List.range'_append_1, List.foldl_append, Nat.zero_add]
    exact ih.trans hround (by simp)

/-! ### UNWRAP -/

/-- R128: step c of the UNWRAP loop on BUF; the steps are taken from the highest c down. -/
def Memory.unwrapStore (n c : Nat) (m : Memory) : Memory :=
  let p := Rfc3394.unwrapStep dec (c + 1) (m.blk 0) (m.blk (1 + c % n))
  (m.setBlk 0 p.1).setBlk (1 + c % n) p.2

/-- R105, R128: the steps of round j down to register lo are a round of the algorithm. -/
theorem Memory.unwrapStore_round (m : Memory) (j : Nat) {k : Nat} : ∀ {lo : Nat}, lo + k ≤ n →
    m.Stores lo (Rfc3394.unwrapRound dec (n * j + lo + 1) (m.blk 0) (m.regsFrom lo k))
      ((List.range' (n * j + lo) k).foldr (Memory.unwrapStore dec n) m) := by
  induction k with
  | zero => exact fun _ => m.stores_self _ 0
  | succ k ih =>
    intro lo hk
    have hlo : lo < n := by omega
    have hrest := ih (lo := lo + 1) (by omega)
    rw [← Nat.add_assoc] at hrest
    rw [List.range'_succ, List.foldr_cons, regsFrom_succ, Rfc3394.unwrapRound]
    refine hrest.descending ?_
    rw [Memory.unwrapStore, Nat.mul_add_mod, Nat.mod_eq_of_lt hlo, hrest.blk (Or.inl (Nat.lt_succ_self lo)), hrest.acc]
    exact Memory.stores_setBlk_setBlk _ lo (Rfc3394.unwrapStep dec (n * j + lo + 1) _ (m.blk (1 + lo)))

/-- R105, R128: the last `n * r` steps are the last `r` rounds. -/
theorem Memory.unwrapStore_rounds {r : Nat} : ∀ m : Memory,
    m.Stores 0 (Rfc3394.unwrapRounds dec n r (m.blk 0, m.regsFrom 0 n))
      ((List.range' 0 (n * r)).foldr (Memory.unwrapStore dec n) m) := by
  induction r with
  | zero => exact fun m => m.stores_self 0 n
  | succ r ih =>
    intro m
    have hround := m.unwrapStore_round dec r (Nat.zero_add n).le
    simp only [Nat.add_zero] at hround
    have hrest := ih ((List.range' (n * r) n).foldr (Memory.unwrapStore dec n) m)
    have hregs := hround.regs
    simp only [Rfc3394.unwrapRound_length, regsFrom_length] at hregs
    rw [hround.acc, hregs] at hrest
    rw [Nat.mul_succ, ← List.range'_append_1, List.foldr_append, Nat.zero_add]
    exact hround.trans hrest (by simp)

end

end Sys2Proof.Machine
end

section
/-! SUPPORT. The step counter determines the indexes of the loop (R121). -/

namespace Sys2Proof.Machine

/-- R121: no two steps of the loop have the same counter. -/
theorem stepCounter_inj {n j i j' i' : Nat} (hi : i < n) (hi' : i' < n)
    (h : stepCounter n j i = stepCounter n j' i') : j = j' ∧ i = i' := by
  have hpos : 0 < n := Nat.zero_lt_of_lt hi
  have hc : n * j + i = n * j' + i' := Nat.succ.inj h
  obtain ⟨hdiv, hmod⟩ := (Nat.div_mod_unique hpos).mpr ⟨Nat.add_comm i (n * j), hi⟩
  obtain ⟨hdiv', hmod'⟩ := (Nat.div_mod_unique hpos).mpr ⟨(Nat.add_comm i' (n * j')).trans hc.symm, hi'⟩
  exact ⟨hdiv.symm.trans hdiv', hmod.symm.trans hmod'⟩

end Sys2Proof.Machine
end

section
/-! SUPPORT. Runs in which the engine alone steps (R17, R109): the schedule that allows one, and the run that is busy up to
its last step. -/

namespace Sys2Proof.Machine

/-- The next `k` steps of the schedule `l` are engine steps and `es` is pending after them (R17): they stand first in `l`,
or nothing is pending. -/
def EnginesFirst (k : Nat) (l es : List Event) : Prop :=
  l = List.replicate k .engine ++ es ∨ l = [] ∧ es = []

theorem EnginesFirst.split {a b : Nat} {l es : List Event} (h : EnginesFirst (a + b) l es) :
    ∃ fs, EnginesFirst a l fs ∧ EnginesFirst b fs es := by
  rcases h with rfl | ⟨rfl, rfl⟩
  · exact ⟨_, .inl (by rw [List.replicate_add, List.append_assoc]), .inl rfl⟩
  · exact ⟨[], .inr ⟨rfl, rfl⟩, .inr ⟨rfl, rfl⟩⟩

theorem EnginesFirst.eq_of_zero {l es : List Event} (h : EnginesFirst 0 l es) : l = es := by
  rcases h with rfl | ⟨rfl, rfl⟩ <;> rfl

theorem EnginesFirst.engineNext {s : State} {es : List Event} (h : EnginesFirst 1 s.schedule es) : s.engineNext es := by
  rcases h with h | ⟨h, rfl⟩
  · exact engineNext_of_cons h
  · exact engineNext_of_nil h

/-- A run of `k` steps from `s` to `t`, busy until the last of them. -/
structure BusyRun (k : Nat) (s t : State) : Prop where
  run : runSteps k s = .next t
  busy : ∀ m, m < k → ∃ u, runSteps m s = .next u ∧ u.busy = true

theorem BusyRun.refl (s : State) : BusyRun 0 s s := ⟨rfl, fun _ h => absurd h (Nat.not_lt_zero _)⟩

theorem BusyRun.single {s t : State} (hb : s.phase ≠ .idle) (h : step s = .next t) : BusyRun 1 s t where
  run := runSteps_succ_of_next h 0
  busy m hm := by
    obtain rfl : m = 0 := Nat.lt_one_iff.mp hm
    exact ⟨s, rfl, (busy_iff s).mpr hb⟩

theorem BusyRun.trans {a b : Nat} {s u t : State} (h₁ : BusyRun a s u) (h₂ : BusyRun b u t) :
    BusyRun (a + b) s t where
  run := (runSteps_add h₁.run b).trans h₂.run
  busy m hm := by
    rcases Nat.lt_or_ge m a with hlt | hge
    · exact h₁.busy m hlt
    · obtain ⟨c, rfl⟩ := Nat.exists_eq_add_of_le hge
      rw [runSteps_add h₁.run c]
      exact h₂.busy c (by omega)

end Sys2Proof.Machine
end

section
/-! O40. A WRAP run (R122 to R124, R109): the set-up, then 6·n loop steps, each of which stores to BUF as a step of the
algorithm does and advances (j, i). -/

namespace Sys2Proof.Machine

open Sys2Proof.Machine.Aes

/-- BUF after the first `c` loop steps of a WRAP. -/
def State.wrapped (s : State) (c : Nat) : Memory :=
  (List.range' 0 c).foldl (Memory.wrapStore (aes256Enc s.kekBytes) s.n) s.buf

theorem State.wrapped_succ (s : State) (c : Nat) :
    s.wrapped (c + 1) = (s.wrapped c).wrapStore (aes256Enc s.kekBytes) s.n c := by
  simp only [State.wrapped, List.range'_1_concat, List.foldl_concat, Nat.zero_add]

/-- R123: all loop steps of a WRAP are six rounds of the algorithm. -/
theorem State.wrapped_stores (s : State) : s.buf.Stores 0
    (Rfc3394.wrapRounds (aes256Enc s.kekBytes) s.n 6 (s.buf.blk 0, s.regs s.n)) (s.wrapped (6 * s.n)) := by
  rw [s.regs_eq, State.wrapped, Nat.mul_comm]
  exact s.buf.wrapStore_rounds _ 6

/-- The state after the first `c` loop steps of a WRAP, at `(j, i)` and with `es` pending. -/
def State.inWrap (s : State) (c j i : Nat) (es : List Event) : State :=
  { s with buf := s.wrapped c, j := j, i := i, schedule := es }

@[simp] theorem State.inWrap_phase (s : State) (c j i : Nat) (es : List Event) :
    (s.inWrap c j i es).phase = s.phase := rfl

theorem State.inWrap_zero (s : State) : s.inWrap 0 s.j s.i s.schedule = s := rfl

/-- R104, R123: the WRAP_LOOP step after `c` loop steps, `c = n·j + i`. -/
theorem step_inWrap {s : State} {j i c : Nat} {fs es : List Event} (hw : s.cfg.wf = true) (hp : s.phase = .wrapLoop)
    (hi : i < s.n) (hc : s.n * j + i = c) (hfs : EnginesFirst 1 fs es) :
    step (s.inWrap c j i fs) = .next (wrapAdvance (s.inWrap (c + 1) j i es)) := by
  have hn : (s.inWrap c j i fs).engineNext es := hfs.engineNext
  have hstore : s.wrapped (c + 1) = (s.wrapped c).wrapStore (aes256Enc s.kekBytes) s.n (s.n * j + i) := by
    rw [hc, s.wrapped_succ]
  rw [Memory.wrapStore, Nat.mul_add_mod, Nat.mod_eq_of_lt hi] at hstore
  rw [step_of_engineNext (s := s.inWrap c j i fs) hw hn,
    engineStep_wrapLoop (s := (s.inWrap c j i fs).withSchedule es) hp, wrapLoopStep_eq, State.inWrap, State.inWrap, hstore]
  rfl

/-- R104: the WRAP loop, before its last step. -/
theorem wrapLoop_run {s : State} (hw : s.cfg.wf = true) (hp : s.phase = .wrapLoop) (hn : 0 < s.n) (hj : s.j = 0)
    (hi : s.i = 0) {c : Nat} : c < 6 * s.n → ∀ {es}, EnginesFirst c s.schedule es →
      ∃ j i, i < s.n ∧ s.n * j + i = c ∧ BusyRun c s (s.inWrap c j i es) := by
  induction c with
  | zero =>
    intro _ es hes
    refine ⟨s.j, s.i, by omega, by rw [hj, hi]; rfl, ?_⟩
    rw [← hes.eq_of_zero, s.inWrap_zero]
    exact .refl s
  | succ c ih =>
    intro hc es hes
    obtain ⟨fs, hfs, hlast⟩ := hes.split
    obtain ⟨j, i, hin, hcount, hrun⟩ := ih (by omega) hfs
    have hstep := step_inWrap hw hp hin hcount hlast
    have hb : (s.inWrap c j i fs).phase ≠ .idle := by simp [hp]
    rcases wrapAdvance_cases (s.inWrap (c + 1) j i es) with ⟨h, e⟩ | ⟨h, -, e⟩ | ⟨h, h5, -⟩
    · exact ⟨j, i + 1, h, by omega, hrun.trans (.single hb (hstep.trans (congrArg _ e)))⟩
    · have hlastBlock : i + 1 = s.n := Nat.le_antisymm hin (Nat.not_lt.mp h)
      have hround : s.n * (j + 1) = s.n * j + s.n := Nat.mul_succ s.n j
      exact ⟨j + 1, 0, hn, by omega, hrun.trans (.single hb (hstep.trans (congrArg _ e)))⟩
    · have hlastBlock : i + 1 = s.n := Nat.le_antisymm hin (Nat.not_lt.mp h)
      have hlarge : s.n * 5 ≤ s.n * j := Nat.mul_le_mul_left s.n (Nat.not_lt.mp h5)
      omega

/-- R104, R108: the whole WRAP loop. -/
theorem wrapLoop_run_to_end {s : State} (hw : s.cfg.wf = true) (hp : s.phase = .wrapLoop) (hn : 0 < s.n) (hj : s.j = 0)
    (hi : s.i = 0) {es : List Event} (hes : EnginesFirst (6 * s.n) s.schedule es) :
    ∃ j i, BusyRun (6 * s.n) s (s.inWrap (6 * s.n) j i es).succeed := by
  obtain ⟨c, hc⟩ : ∃ c, 6 * s.n = c + 1 := ⟨6 * s.n - 1, by omega⟩
  rw [hc] at hes ⊢
  obtain ⟨fs, hfs, hlast⟩ := hes.split
  obtain ⟨j, i, hin, hcount, hrun⟩ := wrapLoop_run hw hp hn hj hi (by omega) hfs
  have hstep := step_inWrap hw hp hin hcount hlast
  have hb : (s.inWrap c j i fs).phase ≠ .idle := by simp [hp]
  obtain ⟨rfl, rfl⟩ : j = 5 ∧ i = s.n - 1 :=
    stepCounter_inj hin (Nat.sub_lt hn Nat.zero_lt_one) (by simp only [stepCounter]; omega)
  rcases wrapAdvance_cases (s.inWrap (c + 1) 5 (s.n - 1) es) with ⟨h, -⟩ | ⟨-, h, -⟩ | ⟨-, -, e⟩
  · have : s.n - 1 + 1 < s.n := h
    omega
  · exact absurd h (Nat.lt_irrefl 5)
  · exact ⟨5, s.n - 1, hrun.trans (.single hb (hstep.trans (congrArg _ e)))⟩

/-- A WRAP at DECODE whose operands pass both checks, with engine steps next up to its end (R109, R122). -/
structure State.WrapReady (s : State) (es : List Event) : Prop where
  cfgWf : s.cfg.wf = true
  phase : s.phase = .decode
  cmdLatch : s.cmdLatch = encode .wrap
  lenOK : wrapLenOK s.cfg s.len = true
  keklen : s.keklen = 32#32
  engines : EnginesFirst (1 + 6 * wrapCount s.len) s.schedule es

/-- R122: the state that the DECODE step of a WRAP leaves, but for BUF, which is `m`, and with `es` pending. -/
def State.wrapSetUp (s : State) (m : Memory) (es : List Event) : State :=
  { s with buf := m, n := wrapCount s.len, j := 0, i := 0, phase := .wrapLoop, schedule := es }

theorem State.WrapReady.step {s : State} {es fs : List Event} (h : s.WrapReady es) (hn : s.engineNext fs) :
    ∃ m, s.buf.Stores 0 (iv, s.regs (wrapCount s.len)) m ∧ Machine.step s = .next (s.wrapSetUp m fs) := by
  refine ⟨_, s.regs_eq _ ▸ s.buf.stores_setBlk_zero 0 _ iv, ?_⟩
  rw [step_of_decode (i := .wrap) h.cfgWf hn h.phase (by rw [h.cmdLatch, decode_encode]), exec_wrap]
  rcases execWrap_cases (s.withSchedule fs) with ⟨hl, -⟩ | ⟨-, hk, -⟩ | ⟨-, -, e⟩
  · cases h.lenOK.symm.trans hl
  · cases (s.kekLenOK_iff.mpr h.keklen).symm.trans hk
  · exact e

/-- R122, R123: the loop of a WRAP computes the algorithm on what the set-up left. -/
theorem State.wrapSetUp_stores {s : State} {m : Memory} (h : s.buf.Stores 0 (iv, s.regs (wrapCount s.len)) m)
    (es : List Event) : s.buf.Stores 0 (Rfc3394.wrap (aes256Enc s.kekBytes) (s.regs (wrapCount s.len)))
      ((s.wrapSetUp m es).wrapped (6 * wrapCount s.len)) := by
  have hrounds : m.Stores 0 (Rfc3394.wrapRounds (aes256Enc s.kekBytes) (wrapCount s.len) 6
      (m.blk 0, (s.wrapSetUp m es).regs (wrapCount s.len))) ((s.wrapSetUp m es).wrapped (6 * wrapCount s.len)) :=
    (s.wrapSetUp m es).wrapped_stores
  have hregs : (s.wrapSetUp m es).regs (wrapCount s.len) = s.regs (wrapCount s.len) := by
    have hm := h.regs
    rw [s.regs_length] at hm
    exact (State.regs_eq _ _).trans hm
  rw [h.acc, hregs] at hrounds
  rw [Rfc3394.wrap, s.regs_length]
  exact h.trans hrounds (by simp)

/-- R122 to R124, R109: a WRAP run, with `es` pending after it. -/
theorem State.WrapReady.run {s : State} {es : List Event} (h : s.WrapReady es) : ∃ m j i,
    s.buf.Stores 0 (Rfc3394.wrap (aes256Enc s.kekBytes) (s.regs (wrapCount s.len))) m
    ∧ BusyRun (1 + 6 * wrapCount s.len) s
      ({ s with buf := m, n := wrapCount s.len, j := j, i := i, schedule := es } : State).succeed := by
  obtain ⟨fs, hfirst, hloop⟩ := h.engines.split
  obtain ⟨m, hm, hstep⟩ := h.step hfirst.engineNext
  have hn : 0 < wrapCount s.len := lt_of_lt_of_le Nat.zero_lt_two (wrapCount_range h.cfgWf h.lenOK).1
  obtain ⟨j, i, hrun⟩ := wrapLoop_run_to_end (s := s.wrapSetUp m fs) h.cfgWf rfl hn rfl rfl hloop
  exact ⟨_, j, i, State.wrapSetUp_stores hm fs, .trans (.single (by simp [h.phase]) hstep) hrun⟩

/-- Settles O40: the run of a WRAP with nothing pending after it. -/
theorem wrapRunComputesKeyWrap : Obligations.WrapRunComputesKeyWrap := by
  unfold Obligations.WrapRunComputesKeyWrap
  intro s hw hsched hp hc hl hk n
  have hready : s.WrapReady [] := ⟨hw, hp, hc, hl, hk, .inr ⟨hsched, rfl⟩⟩
  obtain ⟨m, j, i, hm, hrun⟩ := hready.run
  have hregs := hm.regs
  have hrest := hm.rest
  rw [Rfc3394.wrap_length, s.regs_length] at hregs hrest
  refine ⟨hrun.busy, _, hrun.run, Prod.ext hm.acc ((State.regs_eq _ n).trans hregs), fun a ha => ?_, ?_⟩
  · exact hrest a (by omega) (by simp only [wrapCount]; omega)
  · simp only [State.succeed, hsched]

end Sys2Proof.Machine
end

section
/-! O41. An UNWRAP run (R127 to R131, R109): the set-up, 6·n loop steps from the highest counter down, each of which stores
to BUF as a step of the algorithm does, and the integrity check. -/

namespace Sys2Proof.Machine

open Sys2Proof.Machine.Aes

/-- BUF after the first `k` loop steps of an UNWRAP, the last of them at `c = n·j + i`. -/
def State.unwrapped (s : State) (c k : Nat) : Memory :=
  (List.range' c k).foldr (Memory.unwrapStore (aes256Dec s.kekBytes) s.n) s.buf

theorem State.unwrapped_succ (s : State) (c k : Nat) :
    s.unwrapped c (k + 1) = (s.unwrapped (c + 1) k).unwrapStore (aes256Dec s.kekBytes) s.n c := by
  simp only [State.unwrapped, List.range'_succ, List.foldr_cons]

/-- R128: all loop steps of an UNWRAP are six rounds of the algorithm. -/
theorem State.unwrapped_stores (s : State) : s.buf.Stores 0
    (Rfc3394.unwrap (aes256Dec s.kekBytes) (s.buf.blk 0) (s.regs s.n)) (s.unwrapped 0 (6 * s.n)) := by
  rw [Rfc3394.unwrap, s.regs_length, s.regs_eq, State.unwrapped, Nat.mul_comm]
  exact Memory.unwrapStore_rounds _ s.buf

/-- The state of an UNWRAP with BUF `m` and PCACHE `pc`, at `(j, i)` and with `es` pending. -/
def State.inUnwrap (s : State) (m : Memory) (pc : PCache) (j i : Nat) (es : List Event) : State :=
  { s with buf := m, pcache := pc, j := j, i := i, schedule := es }

@[simp] theorem State.inUnwrap_phase (s : State) (m : Memory) (pc : PCache) (j i : Nat) (es : List Event) :
    (s.inUnwrap m pc j i es).phase = s.phase := rfl

/-- R105, R128: the UNWRAP_LOOP step after `k` loop steps, at `c = n·j + i`. -/
theorem step_inUnwrap {s : State} {pc : PCache} {j i c k : Nat} {fs es : List Event} (hw : s.cfg.wf = true)
    (hp : s.phase = .unwrapLoop) (hpc : pc.Sound s.cfg) (hi : i < s.n) (hc : s.n * j + i = c)
    (hfs : EnginesFirst 1 fs es) :
    ∃ pc' : PCache, pc'.Sound s.cfg ∧ step (s.inUnwrap (s.unwrapped (c + 1) k) pc j i fs)
      = .next (unwrapAdvance (s.inUnwrap (s.unwrapped c (k + 1)) pc' j i es)) := by
  have hn : (s.inUnwrap (s.unwrapped (c + 1) k) pc j i fs).engineNext es := hfs.engineNext
  have hstore : s.unwrapped c (k + 1)
      = (s.unwrapped (c + 1) k).unwrapStore (aes256Dec s.kekBytes) s.n (s.n * j + i) := by rw [hc, s.unwrapped_succ]
  rw [Memory.unwrapStore, Nat.mul_add_mod, Nat.mod_eq_of_lt hi] at hstore
  obtain ⟨pc', hpc', hloop⟩ := unwrapLoopStep_of_sound
    (s := (s.inUnwrap (s.unwrapped (c + 1) k) pc j i fs).withSchedule es) hpc
  refine ⟨pc', hpc', ?_⟩
  rw [step_of_engineNext (s := s.inUnwrap (s.unwrapped (c + 1) k) pc j i fs) hw hn,
    engineStep_unwrapLoop (s := (s.inUnwrap (s.unwrapped (c + 1) k) pc j i fs).withSchedule es) hp, hloop, hstore]
  rfl

/-- R105: the UNWRAP loop, before its last step. -/
theorem unwrapLoop_run {s : State} (hw : s.cfg.wf = true) (hp : s.phase = .unwrapLoop) (hpc : s.pcache.Sound s.cfg)
    (hn : 0 < s.n) (hj : s.j = 5) (hi : s.i = s.n - 1) {k : Nat} :
    k < 6 * s.n → ∀ {es}, EnginesFirst k s.schedule es →
      ∃ pc j i c, PCache.Sound s.cfg pc ∧ i < s.n ∧ s.n * j + i = c ∧ c + 1 + k = 6 * s.n
        ∧ BusyRun k s (s.inUnwrap (s.unwrapped (c + 1) k) pc j i es) := by
  induction k with
  | zero =>
    intro _ es hes
    refine ⟨s.pcache, s.j, s.i, _, hpc, by omega, rfl, by rw [hj, hi]; omega, ?_⟩
    rw [← hes.eq_of_zero]
    exact .refl s
  | succ k ih =>
    intro hk es hes
    obtain ⟨fs, hfs, hlast⟩ := hes.split
    obtain ⟨pc, j, i, c, hpc, hin, hc, hcount, hrun⟩ := ih (by omega) hfs
    obtain ⟨pc', hpc', hstep⟩ := step_inUnwrap (k := k) hw hp hpc hin hc hlast
    have hb : (s.inUnwrap (s.unwrapped (c + 1) k) pc j i fs).phase ≠ .idle := by simp [hp]
    obtain ⟨d, rfl⟩ : ∃ d, c = d + 1 := ⟨c - 1, by omega⟩
    rcases unwrapAdvance_cases (s.inUnwrap (s.unwrapped (d + 1) (k + 1)) pc' j i es) with
      ⟨h, e⟩ | ⟨h, hj, e⟩ | ⟨h, hj, -⟩
    · obtain ⟨i, rfl⟩ : ∃ i', i = i' + 1 := Nat.exists_eq_add_one.mpr h
      exact ⟨pc', j, i, d, hpc', by omega, by omega, by omega, hrun.trans (.single hb (hstep.trans (congrArg _ e)))⟩
    · obtain ⟨j, rfl⟩ : ∃ j', j = j' + 1 := Nat.exists_eq_add_one.mpr hj
      have hfirstBlock : i = 0 := h
      have hround : s.n * (j + 1) = s.n * j + s.n := Nat.mul_succ s.n j
      exact ⟨pc', j, s.n - 1, d, hpc', by omega, by omega, by omega,
        hrun.trans (.single hb (hstep.trans (congrArg _ e)))⟩
    · obtain rfl : i = 0 := h
      obtain rfl : j = 0 := hj
      omega

/-- R105: the whole UNWRAP loop. -/
theorem unwrapLoop_run_to_check {s : State} (hw : s.cfg.wf = true) (hp : s.phase = .unwrapLoop)
    (hpc : s.pcache.Sound s.cfg) (hn : 0 < s.n) (hj : s.j = 5) (hi : s.i = s.n - 1) {es : List Event}
    (hes : EnginesFirst (6 * s.n) s.schedule es) :
    ∃ pc, PCache.Sound s.cfg pc ∧ BusyRun (6 * s.n) s
      { s.inUnwrap (s.unwrapped 0 (6 * s.n)) pc 0 0 es with phase := .unwrapCheck } := by
  obtain ⟨k, hk⟩ : ∃ k, 6 * s.n = k + 1 := ⟨6 * s.n - 1, by omega⟩
  rw [hk] at hes ⊢
  obtain ⟨fs, hfs, hlast⟩ := hes.split
  obtain ⟨pc, j, i, c, hpc, hin, hc, hcount, hrun⟩ := unwrapLoop_run hw hp hpc hn hj hi (by omega) hfs
  obtain rfl : c = 0 := by omega
  obtain ⟨rfl, rfl⟩ : j = 0 ∧ i = 0 := stepCounter_inj hin hn (congrArg (· + 1) hc)
  obtain ⟨pc', hpc', hstep⟩ := step_inUnwrap (k := k) hw hp hpc hin hc hlast
  have hb : (s.inUnwrap (s.unwrapped (0 + 1) k) pc 0 0 fs).phase ≠ .idle := by simp [hp]
  exact ⟨pc', hpc', hrun.trans (.single hb hstep)⟩

/-- An UNWRAP at DECODE whose operands pass both checks, with engine steps next up to its end (R109, R127). -/
structure State.UnwrapReady (s : State) (es : List Event) : Prop where
  cfgWf : s.cfg.wf = true
  phase : s.phase = .decode
  cmdLatch : s.cmdLatch = encode .unwrap
  lenOK : unwrapLenOK s.cfg s.len = true
  keklen : s.keklen = 32#32
  pcacheSound : s.pcache.Sound s.cfg
  engines : EnginesFirst (1 + 6 * unwrapCount s.len + 1) s.schedule es

/-- R127: the state that the DECODE step of an UNWRAP leaves, with `es` pending. -/
def State.unwrapSetUp (s : State) (es : List Event) : State :=
  { s with n := unwrapCount s.len, j := 5, i := unwrapCount s.len - 1, phase := .unwrapLoop, schedule := es }

theorem State.UnwrapReady.step {s : State} {es fs : List Event} (h : s.UnwrapReady es) (hn : s.engineNext fs) :
    Machine.step s = .next (s.unwrapSetUp fs) := by
  rw [step_of_decode (i := .unwrap) h.cfgWf hn h.phase (by rw [h.cmdLatch, decode_encode]), exec_unwrap]
  rcases execUnwrap_cases (s.withSchedule fs) with ⟨hl, -⟩ | ⟨-, hk, -⟩ | ⟨-, -, e⟩
  · cases h.lenOK.symm.trans hl
  · cases (s.kekLenOK_iff.mpr h.keklen).symm.trans hk
  · exact e

/-- The state of an UNWRAP whose loop has ended with BUF `m` and PCACHE `pc`, with `es` pending (R105). -/
def State.atCheck (s : State) (m : Memory) (pc : PCache) (es : List Event) : State :=
  { s with
    buf := m, pcache := pc, n := unwrapCount s.len, j := 0, i := 0, phase := .unwrapCheck, schedule := es }

/-- R127, R128, R105: an UNWRAP run up to the integrity check. -/
theorem State.UnwrapReady.run_to_check {s : State} {es : List Event} (h : s.UnwrapReady es) : ∃ m pc fs,
    s.buf.Stores 0 (Rfc3394.unwrap (aes256Dec s.kekBytes) (s.buf.blk 0) (s.regs (unwrapCount s.len))) m
    ∧ EnginesFirst 1 fs es ∧ BusyRun (1 + 6 * unwrapCount s.len) s (s.atCheck m pc fs) := by
  obtain ⟨fs, hbefore, hcheck⟩ := h.engines.split
  obtain ⟨gs, hfirst, hloop⟩ := hbefore.split
  have hn : 0 < unwrapCount s.len := lt_of_lt_of_le Nat.zero_lt_two (unwrapCount_range h.cfgWf h.lenOK).1
  obtain ⟨pc, -, hrun⟩ :=
    unwrapLoop_run_to_check (s := s.unwrapSetUp gs) h.cfgWf rfl h.pcacheSound hn rfl rfl hloop
  exact ⟨_, pc, fs, (s.unwrapSetUp gs).unwrapped_stores, hcheck,
    .trans (.single (by simp [h.phase]) (h.step hfirst.engineNext)) hrun⟩

/-- R127 to R131, R109: an UNWRAP run, with `es` pending after it: the integrity check of the loop's result `m` ends it. -/
theorem State.UnwrapReady.run {s : State} {es : List Event} (h : s.UnwrapReady es) : ∃ m pc,
    s.buf.Stores 0 (Rfc3394.unwrap (aes256Dec s.kekBytes) (s.buf.blk 0) (s.regs (unwrapCount s.len))) m
    ∧ BusyRun (1 + 6 * unwrapCount s.len + 1) s (unwrapCheckStep (s.atCheck m pc es)) := by
  obtain ⟨m, pc, fs, hm, hcheck, hrun⟩ := h.run_to_check
  have hn : (s.atCheck m pc fs).engineNext es := hcheck.engineNext
  refine ⟨m, pc, hm, hrun.trans (.single (by simp [State.atCheck]) ?_)⟩
  rw [step_of_engineNext (s := s.atCheck m pc fs) h.cfgWf hn]
  exact engineStep_unwrapCheck rfl

/-- Settles O41: the run of an UNWRAP with nothing pending after it, by the two outcomes of the check. -/
theorem unwrapRunComputesKeyUnwrap : Obligations.UnwrapRunComputesKeyUnwrap := by
  unfold Obligations.UnwrapRunComputesKeyUnwrap
  intro s hw hsched hp hc hl hk hpc n r
  have hready : s.UnwrapReady [] := ⟨hw, hp, hc, hl, hk, hpc, .inr ⟨hsched, rfl⟩⟩
  obtain ⟨m, pc, hm, hrun⟩ := hready.run
  refine ⟨hrun.busy, _, hrun.run, ?_⟩
  have hacc : m.blk 0 = r.1 := hm.acc
  rcases unwrapCheckStep_cases (s.atCheck m pc []) with ⟨h, e⟩ | ⟨h, e⟩ <;> rw [e]
  · have hregs := hm.regs
    have hrest := hm.rest
    rw [Rfc3394.unwrap_length, s.regs_length] at hregs hrest
    refine ⟨fun _ => ⟨rfl, h, (State.regs_eq _ n).trans hregs, fun a ha => ?_⟩,
      fun hne => absurd (hacc.symm.trans h) hne, ?_⟩
    · exact hrest a (by omega) (by simp only [unwrapCount]; omega)
    · simp only [State.succeed, State.atCheck, hsched]
  · refine ⟨fun heq => absurd (hacc.trans heq) h, fun _ => ⟨rfl, Memory.read_zeros⟩, ?_⟩
    simp only [State.fail, State.atCheck, hsched]

end Sys2Proof.Machine
end

section
/-! O17, O18. The legal lengths of WRAP and UNWRAP (R120, R126) and the values of the step counter (R121). -/

namespace Sys2Proof.Machine

/-! ### Lengths -/

/-- R120, as the rule writes it. -/
theorem wrapLenOK_iff (c : Config) (l : Word) : wrapLenOK c l = true ↔ (c.policy = .library ∧ l = 32#32)
    ∨ (c.policy = .general ∧ l.toNat % 8 = 0 ∧ 2 ≤ l.toNat / 8 ∧ l.toNat / 8 ≤ c.nmax) := by
  cases hpol : c.policy <;> simp [wrapLenOK, hpol, BitVec.toNat_eq, and_assoc]

/-- R126: a length of UNWRAP is legal by its register count LEN/8 - 1. -/
theorem unwrapLenOK_iff (c : Config) (l : Word) : unwrapLenOK c l = true ↔ (c.policy = .library ∧ l = 40#32)
    ∨ (c.policy = .general ∧ l.toNat % 8 = 0 ∧ 2 ≤ l.toNat / 8 - 1 ∧ l.toNat / 8 - 1 ≤ c.nmax) := by
  cases hpol : c.policy with
  | library => simp [unwrapLenOK, hpol, BitVec.toNat_eq]
  | general =>
    simp only [unwrapLenOK, hpol, Bool.and_eq_true, decide_eq_true_eq, reduceCtorEq, false_and, true_and, false_or]
    omega

/-- R9, R120: a legal WRAP length lies within BUF, so LEN + 8 does not wrap around. -/
theorem toNat_add_eight {c : Config} (hc : c.wf = true) {l : Word} (h : wrapLenOK c l = true) :
    (l + 8#32).toNat = l.toNat + 8 := by
  obtain ⟨⟨-, hmax⟩, -⟩ := (Config.wf_iff c).mp hc
  obtain ⟨-, hn⟩ := wrapCount_range hc h
  rw [wrapCount] at hn
  rw [BitVec.toNat_add_of_not_uaddOverflow]
  · rfl
  · simp only [BitVec.uaddOverflow, BitVec.toNat_ofNat, ge_iff_le, decide_eq_true_eq]
    omega

/-- R132: the wrap of n registers has a length from which UNWRAP takes n registers. -/
theorem unwrapCount_add_eight {c : Config} (hc : c.wf = true) {l : Word} (h : wrapLenOK c l = true) :
    unwrapCount (l + 8#32) = wrapCount l := by
  rw [unwrapCount, wrapCount, toNat_add_eight hc h]
  omega

/-- R132: the length of a wrap is legal for UNWRAP. -/
theorem unwrapLenOK_add_eight {c : Config} (hc : c.wf = true) {l : Word} (h : wrapLenOK c l = true) :
    unwrapLenOK c (l + 8#32) = true := by
  have hlen := toNat_add_eight hc h
  refine (unwrapLenOK_iff c _).mpr ?_
  rcases (wrapLenOK_iff c l).mp h with ⟨hpol, rfl⟩ | ⟨hpol, h8, h2, hmax⟩
  · exact .inl ⟨hpol, rfl⟩
  · exact .inr ⟨hpol, by omega, by omega, by omega⟩

/-- Settles O17, rule by rule. -/
theorem legalLengths : Obligations.LegalLengths := by
  unfold Obligations.LegalLengths
  exact fun c l => ⟨wrapLenOK_iff c l, unwrapLenOK_iff c l, fun hc hl => unwrapLenOK_add_eight hc hl⟩

/-! ### The step counter -/

/-- R121: every value from 1 to 6·n is the counter of a step. -/
theorem exists_stepCounter_eq {n t : Nat} (hn : 0 < n) (h1 : 1 ≤ t) (ht : t ≤ 6 * n) :
    ∃ j i, j ≤ 5 ∧ i < n ∧ stepCounter n j i = t := by
  have hround : (t - 1) / n < 6 := Nat.div_lt_of_lt_mul (by omega)
  have hcount : n * ((t - 1) / n) + (t - 1) % n = t - 1 := Nat.div_add_mod (t - 1) n
  exact ⟨(t - 1) / n, (t - 1) % n, by omega, Nat.mod_lt _ hn, by simp only [stepCounter]; omega⟩

/-- R121: a counter of 64 bits is XORed into the value of A as it is. -/
theorem xorCounter_toNat {t : Nat} (ht : t < 2 ^ 64) (a : Semiblock) : (xorCounter a t).toNat = a.toNat ^^^ t := by
  rw [xorCounter, BitVec.toNat_xor, BitVec.toNat_ofNat, Nat.mod_eq_of_lt ht]

/-- R121: a counter of one byte changes only the last byte of A. -/
theorem xorCounter_leading {t : Nat} (ht : t < 256) (a : Semiblock) :
    (xorCounter a t).extractLsb' 8 56 = a.extractLsb' 8 56 := by
  refine BitVec.eq_of_getLsbD_eq fun k hk => ?_
  have hpow : 2 ^ 8 ≤ 2 ^ (8 + k) := Nat.pow_le_pow_right Nat.two_pos (Nat.le_add_right 8 k)
  have hbit : t.testBit (8 + k) = false := Nat.testBit_lt_two_pow (ht.trans_le hpow)
  simp [xorCounter, BitVec.getLsbD_ofNat, hbit]

/-- Settles O18: the counter is injective in (j, i) and onto 1..6n, and 6n fits in a byte. -/
theorem stepCounterCoversOneToSixN : Obligations.StepCounterCoversOneToSixN := by
  unfold Obligations.StepCounterCoversOneToSixN
  intro n h2 h31
  refine ⟨fun j i hj hi => ⟨Nat.succ_pos _, stepCounter_le hj hi⟩, fun t h1 ht => ?_, fun a j i hj hi => ?_⟩
  · obtain ⟨j, i, hj, hi, rfl⟩ := exists_stepCounter_eq (by omega) h1 ht
    refine ⟨(j, i), ⟨hj, hi, rfl⟩, fun q ⟨_, hq, heq⟩ => ?_⟩
    obtain ⟨hj', hi'⟩ := stepCounter_inj hq hi heq
    exact Prod.ext hj' hi'
  · have := stepCounter_le hj hi
    exact ⟨xorCounter_toNat (by omega) a, xorCounter_leading (by omega) a⟩

end Sys2Proof.Machine
end

section
/-! O19, O20. WRAP and UNWRAP at DECODE (R122, R127): the two errors in their order, or the set-up of the loop. -/

namespace Sys2Proof.Machine

/-- R25: the check of KEKLEN fails. -/
theorem State.kekLenOK_eq_false_iff (s : State) : s.kekLenOK = false ↔ s.keklen ≠ 32#32 := by
  rw [← Bool.not_eq_true, s.kekLenOK_iff]

/-- Settles O19, by the three outcomes of WRAP at DECODE. -/
theorem wrapDecodeStep : Obligations.WrapDecodeStep := by
  unfold Obligations.WrapDecodeStep
  refine ⟨rfl, fun s => ?_⟩
  rw [exec_wrap]
  rcases execWrap_cases s with ⟨hl, e⟩ | ⟨hl, hk, e⟩ | ⟨hl, hk, e⟩
  · have hlen : wrapLenOK s.cfg s.len ≠ true := by simp [hl]
    exact ⟨_, e, fun _ => ⟨Memory.read_zeros, rfl⟩, fun h => absurd h hlen, fun h => absurd h hlen⟩
  · have hlen : wrapLenOK s.cfg s.len ≠ false := by simp [hl]
    have hne : s.keklen ≠ 32#32 := s.kekLenOK_eq_false_iff.mp hk
    exact ⟨_, e, fun h => absurd h hlen, fun _ _ => ⟨Memory.read_zeros, rfl⟩, fun _ h => absurd h hne⟩
  · have hlen : wrapLenOK s.cfg s.len ≠ false := by simp [hl]
    have heq : s.keklen = 32#32 := s.kekLenOK_iff.mp hk
    have hiv : (s.buf.setBlk 0 iv).blk 0 = iv := s.buf.blk_setBlk_same 0 iv
    have hrest (a : Nat) (ha : 8 ≤ a) : (s.buf.setBlk 0 iv).read a = s.buf.read a :=
      s.buf.read_setBlk_other iv (by omega)
    generalize s.buf.setBlk 0 iv = m at e hiv hrest
    exact ⟨_, e, fun h => absurd h hlen, fun _ h => absurd heq h, fun _ _ => ⟨hiv, hrest, rfl⟩⟩

/-- Settles O20, by the three outcomes of UNWRAP at DECODE. -/
theorem unwrapDecodeStep : Obligations.UnwrapDecodeStep := by
  unfold Obligations.UnwrapDecodeStep
  refine ⟨rfl, fun s => ?_⟩
  rw [exec_unwrap]
  rcases execUnwrap_cases s with ⟨hl, e⟩ | ⟨hl, hk, e⟩ | ⟨hl, hk, e⟩
  · have hlen : unwrapLenOK s.cfg s.len ≠ true := by simp [hl]
    exact ⟨_, e, fun _ => ⟨Memory.read_zeros, rfl⟩, fun h => absurd h hlen, fun h => absurd h hlen⟩
  · have hlen : unwrapLenOK s.cfg s.len ≠ false := by simp [hl]
    have hne : s.keklen ≠ 32#32 := s.kekLenOK_eq_false_iff.mp hk
    exact ⟨_, e, fun h => absurd h hlen, fun _ _ => ⟨Memory.read_zeros, rfl⟩, fun _ h => absurd h hne⟩
  · have hlen : unwrapLenOK s.cfg s.len ≠ false := by simp [hl]
    have heq : s.keklen = 32#32 := s.kekLenOK_iff.mp hk
    exact ⟨_, e, fun h => absurd h hlen, fun _ h => absurd heq h, fun _ _ => rfl⟩

end Sys2Proof.Machine
end

section
/-! O42. WRAP and then UNWRAP of its result gives the key back (R132, R246): each command from its CMD write on, and what
an UNWRAP makes of the blocks that a WRAP left. -/

namespace Sys2Proof.Machine

open Sys2Proof.Machine.Aes

/-- The state after the write of a command's word to CMD while idle, with `es` pending (R100). -/
def State.started (s : State) (i : Instr) (es : List Event) : State :=
  { (s.withSchedule es).acceptCmd (encode i) with resp := some .written }

theorem step_wrCmd {s : State} {i : Instr} {es : List Event} (hw : s.cfg.wf = true) (hp : s.phase = .idle)
    (hs : s.schedule = wrCmd i :: es) : step s = .next (s.started i es) :=
  step_of_cmdWrite hw hp hs

/-- R171: the write of LEN while idle. -/
theorem step_wrLen {s : State} {v : Word} {es : List Event} (hw : s.cfg.wf = true) (hp : s.phase = .idle)
    (hs : s.schedule = wr offLEN v :: es) :
    step s = .next { s with len := v, schedule := es, resp := some .written } :=
  step_wr_idle (r := .len) hw hp rfl rfl rfl hs

/-- R122 to R124: a WRAP from its CMD write to its end. -/
theorem wrap_from_idle {s : State} {es : List Event} (hw : s.cfg.wf = true) (hp : s.phase = .idle)
    (hl : wrapLenOK s.cfg s.len = true) (hk : s.keklen = 32#32)
    (hs : s.schedule = wrCmd .wrap :: (List.replicate (1 + 6 * wrapCount s.len) .engine ++ es)) : ∃ m j i,
    s.buf.Stores 0 (Rfc3394.wrap (aes256Enc s.kekBytes) (s.regs (wrapCount s.len))) m
    ∧ runSteps (1 + (1 + 6 * wrapCount s.len)) s
      = .next ({ s.started .wrap es with buf := m, n := wrapCount s.len, j := j, i := i } : State).succeed := by
  have hready : (s.started .wrap (List.replicate (1 + 6 * wrapCount s.len) .engine ++ es)).WrapReady es :=
    ⟨hw, rfl, rfl, hl, hk, .inl rfl⟩
  obtain ⟨m, j, i, hm, hrun⟩ := hready.run
  refine ⟨m, j, i, hm, ?_⟩
  rw [Nat.add_comm, runSteps_succ_of_next (step_wrCmd hw hp hs)]
  exact hrun.run

/-- R127 to R131: an UNWRAP from its CMD write to its end. -/
theorem unwrap_from_idle {s : State} {es : List Event} (hw : s.cfg.wf = true) (hp : s.phase = .idle)
    (hl : unwrapLenOK s.cfg s.len = true) (hk : s.keklen = 32#32) (hpc : s.pcache.Sound s.cfg)
    (hs : s.schedule = wrCmd .unwrap :: (List.replicate (1 + 6 * unwrapCount s.len + 1) .engine ++ es)) : ∃ m pc,
    s.buf.Stores 0 (Rfc3394.unwrap (aes256Dec s.kekBytes) (s.buf.blk 0) (s.regs (unwrapCount s.len))) m
    ∧ runSteps (1 + (1 + 6 * unwrapCount s.len + 1)) s
      = .next (unwrapCheckStep ((s.started .unwrap es).atCheck m pc es)) := by
  have hready : (s.started .unwrap (List.replicate (1 + 6 * unwrapCount s.len + 1) .engine ++ es)).UnwrapReady es :=
    ⟨hw, rfl, rfl, hl, hk, hpc, .inl rfl⟩
  obtain ⟨m, pc, hm, hrun⟩ := hready.run
  refine ⟨m, pc, hm, ?_⟩
  rw [Nat.add_comm, runSteps_succ_of_next (step_wrCmd hw hp hs)]
  exact hrun.run

/-- R132: what an UNWRAP makes of the blocks that a WRAP left is IV and the registers before the WRAP. -/
theorem Memory.Stores.unwrap_of_wrap {m m₁ m₂ : Memory} {k : Key} {n : Nat}
    (h₁ : m.Stores 0 (Rfc3394.wrap (aes256Enc k) (m.regsFrom 0 n)) m₁)
    (h₂ : m₁.Stores 0 (Rfc3394.unwrap (aes256Dec k) (m₁.blk 0) (m₁.regsFrom 0 n)) m₂) :
    m₁.Stores 0 (iv, m.regsFrom 0 n) m₂ := by
  have hregs := h₁.regs
  rw [Rfc3394.wrap_length, Memory.regsFrom_length] at hregs
  rwa [h₁.acc, hregs, Rfc3394.unwrap_wrap (aes256Dec_aes256Enc k)] at h₂

/-- The registers determine their bytes of BUF (R21, R22). -/
theorem Memory.read_eq_of_regsFrom {m m' : Memory} {n : Nat} (h : m'.regsFrom 0 n = m.regsFrom 0 n) {a : Nat}
    (hlo : 8 ≤ a) (hhi : a < 8 * n + 8) : m'.read a = m.read a := by
  have hblk : m'.blk (1 + (a / 8 - 1)) = m.blk (1 + (a / 8 - 1)) :=
    Memory.blk_eq_of_regsFrom h (Nat.zero_le _) (by omega)
  exact Memory.read_eq_of_blk hblk (by omega)

/-- What stands after a WRAP of `s` to its end and the write of `len` to LEN, with `es` pending. -/
structure State.WrappedFrom (s : State) (len : Word) (es : List Event) (u : State) : Prop where
  buf : s.buf.Stores 0 (Rfc3394.wrap (aes256Enc s.kekBytes) (s.regs (wrapCount s.len))) u.buf
  cfg : u.cfg = s.cfg
  kek : u.kek = s.kek
  keklen : u.keklen = s.keklen
  len : u.len = len
  pcache : u.pcache = s.pcache
  phase : u.phase = .idle
  schedule : u.schedule = es

theorem wrap_then_wrLen {s : State} {len : Word} {es : List Event} (hw : s.cfg.wf = true) (hp : s.phase = .idle)
    (hl : wrapLenOK s.cfg s.len = true) (hk : s.keklen = 32#32)
    (hs : s.schedule = wrCmd .wrap :: (List.replicate (1 + 6 * wrapCount s.len) .engine ++ wr offLEN len :: es)) :
    ∃ u, runSteps (1 + (1 + 6 * wrapCount s.len) + 1) s = .next u ∧ s.WrappedFrom len es u := by
  obtain ⟨m, j, i, hm, hwrap⟩ := wrap_from_idle hw hp hl hk hs
  let t : State := { s.started .wrap (wr offLEN len :: es) with buf := m, n := wrapCount s.len, j := j, i := i }
  have hstep : step t.succeed = .next { t.succeed with len := len, schedule := es, resp := some .written } :=
    step_wrLen hw rfl rfl
  exact ⟨_, (runSteps_add hwrap 1).trans (runSteps_succ_of_next hstep 0), hm, rfl, rfl, rfl, rfl, rfl, rfl, rfl⟩

/-- R132: UNWRAP after a WRAP and the write of LEN succeeds and restores the registers. -/
theorem State.WrappedFrom.unwrap {s u : State} {len : Word} (hw : s.cfg.wf = true) (hk : s.keklen = 32#32)
    (hpc : s.pcache.Sound s.cfg) (hl : unwrapLenOK s.cfg len = true) (hn : unwrapCount len = wrapCount s.len)
    (h : s.WrappedFrom len (wrCmd .unwrap :: List.replicate (1 + 6 * wrapCount s.len + 1) .engine) u) :
    ∃ t : State, runSteps (1 + (1 + 6 * wrapCount s.len + 1)) u = .next t.succeed
      ∧ t.buf.regsFrom 0 (wrapCount s.len) = s.buf.regsFrom 0 (wrapCount s.len) := by
  obtain ⟨hbuf, hcfg, hkek, hkeklen, hlen, hpcache, hphase, hschedule⟩ := h
  have hcount : unwrapCount u.len = wrapCount s.len := hlen ▸ hn
  obtain ⟨m, pc, hm, hrun⟩ := unwrap_from_idle (s := u) (es := []) (hcfg ▸ hw) hphase (by rwa [hcfg, hlen])
    (hkeklen.trans hk) (by rwa [hcfg, hpcache]) (by rw [hschedule, hcount, List.append_nil])
  rw [hcount, State.kekBytes_congr hkek, State.regs_eq] at hm
  rw [hcount] at hrun
  rw [State.regs_eq] at hbuf
  have hback := hbuf.unwrap_of_wrap hm
  have hregs := hback.regs
  rw [Memory.regsFrom_length] at hregs
  rcases unwrapCheckStep_cases ((u.started .unwrap []).atCheck m pc []) with ⟨-, e⟩ | ⟨hne, -⟩
  · exact ⟨_, hrun.trans (congrArg _ e), hregs⟩
  · exact absurd hback.acc hne

/-- Settles O42: the run of the WRAP and the LEN write, then that of the UNWRAP. -/
theorem unwrapUndoesWrap : Obligations.UnwrapUndoesWrap := by
  unfold Obligations.UnwrapUndoesWrap
  intro s hinv hp hl hk n hs
  have hw := hinv.cfgWf
  have hlen := unwrapLenOK_add_eight hw hl
  have hsched : s.schedule = wrCmd .wrap :: (List.replicate (1 + 6 * wrapCount s.len) .engine
      ++ wr offLEN (s.len + 8#32) :: wrCmd .unwrap :: List.replicate (1 + 6 * wrapCount s.len + 1) .engine) := by
    rw [hs, List.append_assoc]
    rfl
  obtain ⟨u, hwrap, hu⟩ := wrap_then_wrLen hw hp hl hk hsched
  obtain ⟨t, hunwrap, hregs⟩ := hu.unwrap hw hk hinv.pcacheSound hlen (unwrapCount_add_eight hw hl)
  have hrun : runSteps (1 + (1 + 6 * n) + 1 + (1 + (1 + 6 * n + 1))) s = .next t.succeed :=
    (runSteps_add hwrap _).trans hunwrap
  refine ⟨hlen, t.succeed, ?_, rfl, rfl, rfl, fun a hlo hhi => Memory.read_eq_of_regsFrom hregs hlo hhi⟩
  rwa [show 1 + (1 + 6 * n) + 2 + (1 + 6 * n + 1) = 1 + (1 + 6 * n) + 1 + (1 + (1 + 6 * n + 1)) by omega]

end Sys2Proof.Machine
end

section
/-! O30. PROVIDER, PAD_CACHE and a sound PCACHE are unobservable (R33, R153): every operation of the machine commutes with
replacing the three. The two that call BlockDecrypt do because a sound PCACHE makes it `AES256_Dec` on both sides. -/

namespace Sys2Proof

/-- The configuration with another PROVIDER and PAD_CACHE. -/
def Config.withProvider (c : Config) (p : Provider) (q : PadCache) : Config := { c with provider := p, padCache := q }

end Sys2Proof

namespace Sys2Proof.Machine

open Sys2Proof.Machine.Aes

/-- The state with another PROVIDER, PAD_CACHE and PCACHE. -/
def State.withProvider (s : State) (p : Provider) (q : PadCache) (pc : PCache) : State :=
  { s with cfg := s.cfg.withProvider p q, pcache := pc }

/-- The first outcome is a next state, and the second is that state with PROVIDER, PAD_CACHE and PCACHE replaced. -/
def StepsAlike (p : Provider) (q : PadCache) (o o' : Host.Outcome State Fault Refusal) : Prop :=
  ∃ t pc, o = .next t ∧ o' = .next (t.withProvider p q pc)

section
variable {p : Provider} {q : PadCache} {s : State} {pc : PCache}

@[simp] theorem State.withProvider_cfg : (s.withProvider p q pc).cfg = s.cfg.withProvider p q := rfl
@[simp] theorem State.withProvider_buf : (s.withProvider p q pc).buf = s.buf := rfl
@[simp] theorem State.withProvider_pcache : (s.withProvider p q pc).pcache = pc := rfl
@[simp] theorem State.withProvider_cmdLatch : (s.withProvider p q pc).cmdLatch = s.cmdLatch := rfl
@[simp] theorem State.withProvider_phase : (s.withProvider p q pc).phase = s.phase := rfl
@[simp] theorem State.withProvider_busy : (s.withProvider p q pc).busy = s.busy := rfl
@[simp] theorem State.withProvider_kekBytes : (s.withProvider p q pc).kekBytes = s.kekBytes := rfl

/-- R70: the register map does not depend on the provider. -/
@[simp] theorem regAt_withProvider (c : Config) (off : Nat) : regAt (c.withProvider p q) off = regAt c off := rfl

/-- R75, R170: no bus read depends on the provider. -/
theorem busRead_withProvider (off : Nat) : busRead (s.withProvider p q pc) off = busRead s off := rfl

theorem StepsAlike.next (t : State) (pc : PCache) : StepsAlike p q (.next t) (.next (t.withProvider p q pc)) :=
  ⟨t, pc, rfl, rfl⟩

/-- The same check with alike branches. -/
theorem StepsAlike.ite {c : Prop} [Decidable c] {a b a' b' : Host.Outcome State Fault Refusal}
    (ha : StepsAlike p q a a') (hb : StepsAlike p q b b') :
    StepsAlike p q (if c then a else b) (if c then a' else b') := by
  by_cases h : c
  · rwa [if_pos h, if_pos h]
  · rwa [if_neg h, if_neg h]

/-! ### The host step (R54, R170, R171) -/

theorem idleWrite_withProvider (r : BusReg) (v : Word) :
    ∃ pc', idleWrite (s.withProvider p q pc) r v = (idleWrite s r v).withProvider p q pc' := by
  cases r with
  | kekWord m => exact ⟨{ pc with valid := false }, rfl⟩
  | _ => exact ⟨pc, rfl⟩

theorem busWrite_withProvider (off : Nat) (v : Word) :
    ∃ pc', busWrite (s.withProvider p q pc) off v = (busWrite s off v).withProvider p q pc' := by
  unfold busWrite
  rw [State.withProvider_cfg, regAt_withProvider, State.withProvider_busy]
  by_cases hw : (regAt s.cfg off).writable = false
  · rw [if_pos hw, if_pos hw]
    exact ⟨pc, rfl⟩
  · rw [if_neg hw, if_neg hw]
    cases s.busy with
    | true => exact ⟨pc, rfl⟩
    | false => exact idleWrite_withProvider _ v

theorem hostStep_withProvider (a : Access) :
    ∃ pc', hostStep (s.withProvider p q pc) a = (hostStep s a).withProvider p q pc' := by
  unfold hostStep
  cases a.admitted with
  | false => exact ⟨pc, rfl⟩
  | true =>
    cases a.op with
    | read => exact ⟨pc, rfl⟩
    | write v =>
      obtain ⟨pc', e⟩ := busWrite_withProvider (s := s) (p := p) (q := q) (pc := pc) a.off.toNat v
      exact ⟨pc', congrArg (fun t : State => { t with resp := some .written }) e⟩

/-! ### The engine step (R101 to R106) -/

theorem wrapAdvance_withProvider : wrapAdvance (s.withProvider p q pc) = (wrapAdvance s).withProvider p q pc := by
  rcases wrapAdvance_cases s with ⟨hi, e⟩ | ⟨hi, hj, e⟩ | ⟨hi, hj, e⟩ <;> rw [e]
  · exact if_pos hi
  · exact (if_neg hi).trans (if_pos hj)
  · exact (if_neg hi).trans (if_neg hj)

theorem unwrapAdvance_withProvider : unwrapAdvance (s.withProvider p q pc) = (unwrapAdvance s).withProvider p q pc := by
  rcases unwrapAdvance_cases s with ⟨hi, e⟩ | ⟨hi, hj, e⟩ | ⟨hi, hj, e⟩ <;> rw [e]
  · exact if_pos hi
  · exact (if_neg hi.not_gt).trans (if_pos hj)
  · exact (if_neg hi.not_gt).trans (if_neg hj.not_gt)

theorem unwrapCheckStep_withProvider :
    unwrapCheckStep (s.withProvider p q pc) = (unwrapCheckStep s).withProvider p q pc := by
  rcases unwrapCheckStep_cases s with ⟨h, e⟩ | ⟨h, e⟩ <;> rw [e]
  · exact if_pos h
  · exact if_neg h

/-- R141: the WRAP_LOOP step takes the same cipher output with either provider. -/
theorem wrapLoopStep_withProvider : wrapLoopStep (s.withProvider p q pc) = (wrapLoopStep s).withProvider p q pc := by
  have hstore (b : CipherBlock) : wrapStoreB (s.withProvider p q pc) b = (wrapStoreB s b).withProvider p q pc := rfl
  rw [wrapLoopStep_eq, wrapLoopStep_eq, hstore, wrapAdvance_withProvider]
  rfl

section
variable (hs : s.pcache.Sound s.cfg) (hpc : pc.Sound (s.cfg.withProvider p q))
include hs hpc

theorem unwrapLoopStep_alike : StepsAlike p q (unwrapLoopStep s) (unwrapLoopStep (s.withProvider p q pc)) := by
  obtain ⟨pc₁, -, e₁⟩ := unwrapLoopStep_of_sound hs
  obtain ⟨pc₂, -, e₂⟩ := unwrapLoopStep_of_sound (s := s.withProvider p q pc) hpc
  have hinput : unwrapInput (s.withProvider p q pc) = unwrapInput s := rfl
  have hstore (b : CipherBlock) : unwrapStoreB { s.withProvider p q pc with pcache := pc₂ } b
      = (unwrapStoreB { s with pcache := pc₁ } b).withProvider p q pc₂ := rfl
  rw [hinput, hstore, unwrapAdvance_withProvider] at e₂
  exact ⟨_, pc₂, e₁, e₂⟩

theorem execDecBlock_alike : StepsAlike p q (execDecBlock s) (execDecBlock (s.withProvider p q pc)) := by
  obtain ⟨pc₁, e₁⟩ := blockDecrypt_of_sound hs s.kekBytes s.buf.cipherBlock
  obtain ⟨pc₂, e₂⟩ := blockDecrypt_of_sound hpc s.kekBytes s.buf.cipherBlock
  simp only [execDecBlock, State.withProvider_cfg, State.withProvider_pcache, State.withProvider_kekBytes,
    State.withProvider_buf, e₁, e₂]
  generalize s.buf.setCipherBlock _ = m
  exact .ite (.next _ pc) (.ite (.next _ pc) (.next _ pc₂))

theorem exec_alike (i : Instr) : StepsAlike p q (exec i s) (exec i (s.withProvider p q pc)) := by
  cases i with
  | wrap =>
    simp only [exec_wrap, execWrap, State.withProvider_buf]
    generalize s.buf.setBlk 0 iv = m
    exact .ite (.next _ pc) (.ite (.next _ pc) (.next _ pc))
  | unwrap => exact .ite (.next _ pc) (.ite (.next _ pc) (.next _ pc))
  | encBlock =>
    simp only [exec_encBlock, execEncBlock, blockEncrypt_eq, State.withProvider_buf, State.withProvider_kekBytes]
    generalize s.buf.setCipherBlock _ = m
    exact .ite (.next _ pc) (.ite (.next _ pc) (.next _ pc))
  | decBlock => exact execDecBlock_alike hs hpc
  | zeroize => exact .next _ { pc with valid := false }

theorem engineStep_alike : StepsAlike p q (engineStep s) (engineStep (s.withProvider p q pc)) := by
  cases hp : s.phase with
  | idle =>
    rw [engineStep_idle hp, engineStep_idle (s := s.withProvider p q pc) hp]
    exact .next _ pc
  | decode =>
    simp only [engineStep, decodeStep, State.withProvider_phase, State.withProvider_cmdLatch, hp]
    cases decode s.cmdLatch with
    | instr i => exact exec_alike hs hpc i
    | reservedBitsSet => exact .next _ pc
    | illegalOp _ => exact .next _ pc
  | wrapLoop =>
    rw [engineStep_wrapLoop hp, engineStep_wrapLoop (s := s.withProvider p q pc) hp, wrapLoopStep_withProvider]
    exact .next _ pc
  | unwrapLoop =>
    rw [engineStep_unwrapLoop hp, engineStep_unwrapLoop (s := s.withProvider p q pc) hp]
    exact unwrapLoopStep_alike hs hpc
  | unwrapCheck =>
    rw [engineStep_unwrapCheck hp, engineStep_unwrapCheck (s := s.withProvider p q pc) hp, unwrapCheckStep_withProvider]
    exact .next _ pc

/-! ### Every step -/

theorem step_alike (hw : s.cfg.wf = true) (hw' : (s.cfg.withProvider p q).wf = true) :
    StepsAlike p q (step s) (step (s.withProvider p q pc)) := by
  rcases next_cases s with ⟨a, es, h⟩ | ⟨es, h⟩ | ⟨es, h⟩
  · obtain ⟨pc', e⟩ := hostStep_withProvider (s := s.withSchedule es) (p := p) (q := q) (pc := pc) a
    exact ⟨_, pc', step_of_hostNext hw h, (step_of_hostNext (s := s.withProvider p q pc) hw' h).trans (congrArg _ e)⟩
  · rw [step_of_engineNext hw h, step_of_engineNext (s := s.withProvider p q pc) hw' h]
    exact engineStep_alike (s := s.withSchedule es) hs hpc
  · rw [step_of_resetNext hw h, step_of_resetNext (s := s.withProvider p q pc) hw' h]
    exact .next _ ⟨false, 0, 0⟩

end
end

/-- R33: a host access keeps PCACHE or invalidates it. -/
theorem HostEffect.pcacheSound {s t : State} {a : Access} (h : HostEffect s a t) (hs : s.pcache.Sound s.cfg) :
    t.pcache.Sound t.cfg := by
  cases h with
  | kekWrite => simp [PCache.Sound]
  | _ => exact hs

/-- R33: every step keeps PCACHE sound. -/
theorem step_pcacheSound {s t : State} (h : step s = .next t) (hs : s.pcache.Sound s.cfg) : t.pcache.Sound t.cfg := by
  obtain ⟨-, ⟨a, es, -, heff⟩ | ⟨es, -, heff⟩ | ⟨es, -, rfl⟩⟩ := step_effect h
  · exact heff.pcacheSound hs
  · exact heff.pcacheSound hs
  · simp [PCache.Sound]

/-- Settles O30: the steps are alike, and each keeps its PCACHE sound. -/
theorem providerIsUnobservable : Obligations.ProviderIsUnobservable := by
  unfold Obligations.ProviderIsUnobservable
  intro s p q pc other hw hw' hs hpc
  obtain ⟨t, pc', e, e'⟩ := step_alike hs hpc hw hw'
  exact ⟨t, pc', e, e', step_pcacheSound e hs, step_pcacheSound e' hpc, busRead_withProvider⟩

end Sys2Proof.Machine
end

section
/-! O27. The cipher undoes the inverse cipher as well (R140, R190, R191). -/

namespace Sys2Proof.Machine.Aes

/-- A round undoes an inverse round, seen through the InvShiftRows and InvSubBytes of the next one. -/
theorem encRound_decRound (ws : List Column) (r : Nat) (s : Matrix) :
    encRound ws r (invSubBytes (invShiftRows (decRound ws r s))) = invSubBytes (invShiftRows s) := by
  simp [encRound, decRound]

theorem encRounds_decRounds (ws : List Column) (m : Nat) (s : Matrix) :
    encRounds ws m (invSubBytes (invShiftRows (decRounds ws m s))) = invSubBytes (invShiftRows s) := by
  induction m generalizing s with
  | zero => rfl
  | succ m ih => rw [decRounds, encRounds, ih, encRound_decRound]

/-- R140: encrypting a decrypted block gives the block. -/
theorem aes256Enc_aes256Dec (k : Key) (y : CipherBlock) : aes256Enc k (aes256Dec k y) = y := by
  simp [aes256Enc, aes256Dec, encRounds_decRounds]

/-- Settles O27: round by round, in both orders. -/
theorem cipherIsInvertible : Obligations.CipherIsInvertible := by
  unfold Obligations.CipherIsInvertible
  exact fun k x y => ⟨aes256Dec_aes256Enc k x, aes256Enc_aes256Dec k y⟩

end Sys2Proof.Machine.Aes
end

section
/-! O29, O31. The values of the adapter's functions under each provider (R141, R142, R153), and the AES operations they
take (R154). -/

namespace Sys2Proof.Machine

/-- Settles O29: a sound PCACHE gives the padding ciphertext, which decrypts to the one block that is stripped. -/
theorem paddedProviderEqualsRaw : Obligations.PaddedProviderEqualsRaw := by
  unfold Obligations.PaddedProviderEqualsRaw
  intro c pc k x hpc
  obtain ⟨pc', hd⟩ := blockDecrypt_of_sound hpc k x
  exact ⟨blockEncrypt_eq c k x, ⟨pc', hd, hpc.blockDecrypt hd⟩, providerEcbDecrypt_paddingCiphertext k x⟩

section
variable {c : Config}

/-- R33: without a cache there is no hit. -/
theorem PCache.hit_of_off (h : c.padCache = .off) (pc : PCache) (k : Key) : pc.hit c k = false := by
  simp [PCache.hit, h]

theorem blockEncryptOps_raw (h : c.provider = .raw) : blockEncryptOps c = ⟨1, 0⟩ := by
  simp [blockEncryptOps, h]

theorem blockEncryptOps_padded (h : c.provider = .padded) : blockEncryptOps c = ⟨2, 0⟩ := by
  simp [blockEncryptOps, h, providerEncryptOps]

theorem blockDecryptOps_raw (h : c.provider = .raw) (pc : PCache) (k : Key) : blockDecryptOps c pc k = ⟨0, 1⟩ := by
  simp [blockDecryptOps, h]

/-- R152: on a hit the padding ciphertext takes no operation, else one BlockEncrypt. -/
theorem blockDecryptOps_padded (h : c.provider = .padded) (pc : PCache) (k : Key) :
    blockDecryptOps c pc k = if pc.hit c k then ⟨0, 2⟩ else ⟨2, 2⟩ := by
  cases hhit : pc.hit c k <;> simp [blockDecryptOps, h, hhit, blockEncryptOps_padded, providerDecryptOps]

end

/-- Settles O31, row by row of the table. -/
theorem adapterWorkCounts : Obligations.AdapterWorkCounts := by
  unfold Obligations.AdapterWorkCounts
  intro c pc k
  refine ⟨fun h => ⟨blockEncryptOps_raw h, blockDecryptOps_raw h pc k⟩,
    fun h => ⟨blockEncryptOps_padded h, fun hoff => ?_, fun hhit => ?_⟩⟩
  · rw [blockDecryptOps_padded h, pc.hit_of_off hoff]
    rfl
  · rw [blockDecryptOps_padded h, hhit]
    rfl

end Sys2Proof.Machine
end

section
/-! O21, O22. ENC_BLOCK and DEC_BLOCK (R143, R144): the two errors in their order, or the cipher block replaced. -/

namespace Sys2Proof.Machine

open Sys2Proof.Machine.Aes

/-- The cipher block written is read back, and no byte from 16 on has changed (R143, R144). -/
theorem Memory.setCipherBlock_effect (m : Memory) (x : CipherBlock) :
    ∃ m', m' = m.setCipherBlock x ∧ m'.cipherBlock = x ∧ ∀ a, 16 ≤ a → m'.read a = m.read a :=
  ⟨_, rfl, m.cipherBlock_setCipherBlock x, fun _ ha => m.read_setCipherBlock_other x ha⟩

/-- R143: ENC_BLOCK past its checks. -/
theorem execEncBlock_next {s : State} (ha : s.cfg.adapter = .enabled) (hk : s.kekLenOK = true) : ∃ m : Memory,
    m.cipherBlock = aes256Enc s.kekBytes s.buf.cipherBlock ∧ (∀ a, 16 ≤ a → m.read a = s.buf.read a)
    ∧ execEncBlock s = .next ({ s with buf := m } : State).succeed := by
  obtain ⟨m, hm, hblock, hrest⟩ := s.buf.setCipherBlock_effect (aes256Enc s.kekBytes s.buf.cipherBlock)
  exact ⟨m, hblock, hrest, by simp [execEncBlock, Instr.wf, ha, hk, hm]⟩

/-- R33: BlockDecrypt leaves PCACHE alone where it does not exist. -/
theorem blockDecrypt_pcache_eq {c : Config} {pc pc' : PCache} {k : Key} {y x : CipherBlock}
    (h : blockDecrypt c pc k y = some (x, pc')) (hc : c.provider = .raw ∨ c.padCache = .off) : pc' = pc := by
  rcases blockDecrypt_pcache h with heq | ⟨hp, rfl⟩
  · exact heq
  · have hoff : c.padCache = .off := hc.resolve_left (by simp [hp])
    exact PCache.update_of_off hoff pc k

/-- R144, R153: DEC_BLOCK past its checks, with a sound PCACHE. -/
theorem execDecBlock_next {s : State} (h : s.pcache.Sound s.cfg) (ha : s.cfg.adapter = .enabled)
    (hk : s.kekLenOK = true) : ∃ (m : Memory) (pc : PCache),
    m.cipherBlock = aes256Dec s.kekBytes s.buf.cipherBlock ∧ (∀ a, 16 ≤ a → m.read a = s.buf.read a)
    ∧ pc.Sound s.cfg ∧ (s.cfg.provider = .raw ∨ s.cfg.padCache = .off → pc = s.pcache)
    ∧ execDecBlock s = .next ({ s with buf := m, pcache := pc } : State).succeed := by
  obtain ⟨m, hm, hblock, hrest⟩ := s.buf.setCipherBlock_effect (aes256Dec s.kekBytes s.buf.cipherBlock)
  obtain ⟨pc, hd⟩ := blockDecrypt_of_sound h s.kekBytes s.buf.cipherBlock
  exact ⟨m, pc, hblock, hrest, h.blockDecrypt hd, blockDecrypt_pcache_eq hd,
    by simp [execDecBlock, Instr.wf, ha, hk, hd, hm]⟩

/-- R140, R144: DEC_BLOCK after ENC_BLOCK restores the cipher block. -/
theorem cipherBlock_of_encBlock_decBlock {s u v : State} (h : s.pcache.Sound s.cfg) (ha : s.cfg.adapter = .enabled)
    (hk : s.kekLenOK = true) (hu : execEncBlock s = .next u) (hv : execDecBlock u = .next v) :
    v.buf.cipherBlock = s.buf.cipherBlock := by
  obtain ⟨m, hm, -, henc⟩ := execEncBlock_next ha hk
  rw [henc] at hu
  cases hu
  obtain ⟨m', pc, hm', -, -, -, hdec⟩ := execDecBlock_next (s := ({ s with buf := m } : State).succeed) h ha hk
  rw [hdec] at hv
  cases hv
  calc m'.cipherBlock
      = aes256Dec s.kekBytes m.cipherBlock := hm'
    _ = s.buf.cipherBlock := by rw [hm, aes256Dec_aes256Enc]

/-- R78, R161: a command that the configuration rules out fails. -/
theorem exec_of_not_wf {i : Instr} {s : State} (h : i.wf s.cfg = false) : exec i s = .next (s.fail .illegalCommand) := by
  cases i with
  | encBlock => exact if_pos h
  | decBlock => exact if_pos h
  | wrap | unwrap | zeroize => cases h

/-- Settles O21, by the checks of ENC_BLOCK. -/
theorem encBlockEffect : Obligations.EncBlockEffect := by
  unfold Obligations.EncBlockEffect
  refine ⟨rfl, fun s => ?_⟩
  cases ha : s.cfg.adapter with
  | disabled =>
    exact ⟨_, exec_of_not_wf (by simp [Instr.wf, ha]), fun _ => ⟨Memory.read_zeros, rfl⟩, nofun, nofun⟩
  | enabled =>
    cases hk : s.kekLenOK with
    | false =>
      have hlen : s.keklen ≠ 32#32 := s.kekLenOK_eq_false_iff.mp hk
      exact ⟨_, exec_of_kekLenOK_false nofun (by simp [Instr.wf, ha]) nofun nofun hk, nofun,
        fun _ _ => ⟨Memory.read_zeros, rfl⟩, fun _ h => absurd h hlen⟩
    | true =>
      have hlen : s.keklen = 32#32 := s.kekLenOK_iff.mp hk
      obtain ⟨m, hm, hrest, e⟩ := execEncBlock_next ha hk
      exact ⟨_, e, nofun, fun _ h => absurd hlen h, fun _ _ => ⟨hm, hrest, rfl⟩⟩

/-- Settles O22, by the checks of DEC_BLOCK; past them a sound PCACHE excludes the padding error. -/
theorem decBlockEffect : Obligations.DecBlockEffect := by
  unfold Obligations.DecBlockEffect
  refine ⟨rfl, fun s hs => ?_⟩
  cases ha : s.cfg.adapter with
  | disabled =>
    exact ⟨_, exec_of_not_wf (by simp [Instr.wf, ha]), fun _ => ⟨Memory.read_zeros, rfl⟩, nofun, nofun⟩
  | enabled =>
    cases hk : s.kekLenOK with
    | false =>
      have hlen : s.keklen ≠ 32#32 := s.kekLenOK_eq_false_iff.mp hk
      exact ⟨_, exec_of_kekLenOK_false nofun (by simp [Instr.wf, ha]) nofun nofun hk, nofun,
        fun _ _ => ⟨Memory.read_zeros, rfl⟩, fun _ h => absurd h hlen⟩
    | true =>
      have hlen : s.keklen = 32#32 := s.kekLenOK_iff.mp hk
      obtain ⟨m, pc, hm, hrest, hsound, hsame, e⟩ := execDecBlock_next hs ha hk
      exact ⟨_, e, nofun, fun _ h => absurd hlen h, fun _ _ => ⟨hm, hrest, rfl, hsound, hsame,
        fun _ _ hu hv => cipherBlock_of_encBlock_decBlock hs ha hk hu hv⟩⟩

end Sys2Proof.Machine
end

section
/-! O8, O23. What the control outcomes do to the state: the failure of a word that is not legal (R161) and ZEROIZE
(R160). -/

namespace Sys2Proof.Machine

/-- R160: the state that ZEROIZE leaves, component by component. -/
theorem eraseKeys_succeed_eq (s : State) : s.eraseKeys.succeed = { s with
    kek := Memory.zeros, buf := Memory.zeros, len := 0#32, keklen := 0#32, pcache := { s.pcache with valid := false },
    errcode := .noError, done := true, phase := .idle } := rfl

/-- Settles O8: the engine step of DECODE on such a word is `Fail(ILLEGAL_COMMAND)`. -/
theorem illegalWordFails : Obligations.IllegalWordFails := by
  unfold Obligations.IllegalWordFails
  intro s es hw hn hp hl
  exact ⟨_, step_of_illegal hw hn hp hl, Memory.read_zeros, rfl⟩

/-- Settles O23: ZEROIZE has no check, so its one outcome is the erasure and `Succeed()`. -/
theorem zeroizeEffect : Obligations.ZeroizeEffect := by
  unfold Obligations.ZeroizeEffect
  exact ⟨rfl, fun s => ⟨_, exec_zeroize s, Memory.read_zeros, Memory.read_zeros, eraseKeys_succeed_eq s⟩⟩

end Sys2Proof.Machine
end

section
/-! O10, O11, O13. What a bus write and a bus read do at every offset of the window (R170, R171, R172). -/

namespace Sys2Proof.Machine

/-! ### The registers by their offsets (R70, R71, R72) -/

/-- R171: the aligned offsets of the writable registers. -/
theorem regAt_writable_iff (c : Config) {o : Nat} (ho : o % 4 = 0) :
    (regAt c o).writable = true ↔ o = 0x000 ∨ o = 0x008 ∨ o = 0x00C ∨ (0x020 ≤ o ∧ o ≤ 0x03C)
      ∨ (0x040 ≤ o ∧ o < 0x040 + 8 * (c.nmax + 1)) := by
  rcases regAt_cases c o ho with ⟨h, hr⟩ | ⟨h, hr⟩ | ⟨h, hr⟩ | ⟨h, hr⟩ | ⟨h, hr⟩ | ⟨m, h, hm, hr⟩ | ⟨k, h, hk, hr⟩
    | ⟨h0, -, h2, h3, -, hkek, hbuf, hr⟩ <;> rw [hr]
  -- STATUS, PARAM and the reserved offsets are not writable.
  case inr.inl | inr.inr.inr.inr.inl | inr.inr.inr.inr.inr.inr.inr =>
    exact iff_of_false Bool.false_ne_true (by omega)
  all_goals exact iff_of_true rfl (by omega)

/-- R72: an aligned offset of the KEK range is that of a KEK word. -/
theorem exists_offKEK {off : BitVec 9} (ha : off.toNat % 4 = 0) (h : 0x020 ≤ off.toNat ∧ off.toNat ≤ 0x03C) :
    ∃ m < 8, off = offKEK m ∧ off.toNat - 0x020 = 4 * m := by
  have hm : (off.toNat - 0x020) / 4 < 8 := by omega
  refine ⟨_, hm, BitVec.eq_of_toNat_eq ?_, by omega⟩
  rw [offKEK_toNat hm]
  omega

/-- R71: an aligned offset of the BUF range is that of an implemented BUF word. -/
theorem exists_offBUF {c : Config} {off : BitVec 9} (hw : c.wf = true) (ha : off.toNat % 4 = 0)
    (h : 0x040 ≤ off.toNat ∧ off.toNat < 0x040 + 8 * (c.nmax + 1)) :
    ∃ k < 2 * (c.nmax + 1), off = offBUF k ∧ off.toNat - 0x040 = 4 * k := by
  obtain ⟨⟨-, hmax⟩, -⟩ := (Config.wf_iff c).mp hw
  refine ⟨(off.toNat - 0x040) / 4, by omega, BitVec.eq_of_toNat_eq ?_, by omega⟩
  rw [offBUF_toNat (by omega)]
  omega

/-! ### Bus writes (R171) -/

theorem busWrite_of_not_writable {s : State} {off : Nat} (h : (regAt s.cfg off).writable = false) (v : Word) :
    busWrite s off v = s := if_pos h

/-- R72, R171: a write of a KEK word while idle. -/
theorem busWrite_offKEK {s : State} {m : Nat} (hp : s.phase = .idle) (hm : m < 8) (v : Word) :
    busWrite s (offKEK m).toNat v = ({ s with kek := s.kek.setWord m v } : State).invalidatePCache :=
  busWrite_idle hp (regAt_offKEK s.cfg hm) rfl v

/-- R71, R171: a write of an implemented BUF word while idle. -/
theorem busWrite_offBUF {s : State} {k : Nat} (hw : s.cfg.wf = true) (hp : s.phase = .idle)
    (hk : k < 2 * (s.cfg.nmax + 1)) (v : Word) :
    busWrite s (offBUF k).toNat v = { s with buf := s.buf.setWord k v } := by
  obtain ⟨⟨-, hmax⟩, -⟩ := (Config.wf_iff s.cfg).mp hw
  exact busWrite_idle hp (regAt_offBUF (by omega) hk) rfl v

@[simp] theorem idleWrite_cfg (s : State) (r : BusReg) (v : Word) : (idleWrite s r v).cfg = s.cfg := by
  cases r <;> rfl

theorem idleWrite_withSchedule (s : State) (r : BusReg) (v : Word) (es : List Event) :
    idleWrite (s.withSchedule es) r v = (idleWrite s r v).withSchedule es := by
  cases r <;> rfl

@[simp] theorem busWrite_cfg (s : State) (off : Nat) (v : Word) : (busWrite s off v).cfg = s.cfg := by
  unfold busWrite
  split_ifs <;> simp

/-- R17: a bus write does not depend on the pending events, and keeps them. -/
theorem busWrite_withSchedule (s : State) (off : Nat) (v : Word) (es : List Event) :
    busWrite (s.withSchedule es) off v = (busWrite s off v).withSchedule es := by
  have hbusy : (s.withSchedule es).busy = s.busy := rfl
  unfold busWrite
  rw [hbusy, State.withSchedule_cfg, idleWrite_withSchedule]
  split_ifs <;> rfl

/-- R171: the step of an aligned write that is next. -/
theorem step_of_writeNext {s : State} {off : BitVec 9} {v : Word} {es : List Event} (hw : s.cfg.wf = true)
    (ha : off.toNat % 4 = 0) (hs : s.schedule = wr off v :: es) :
    step s = .next { (busWrite s off.toNat v).withSchedule es with resp := some .written } := by
  rw [step_wr hw ha hs, busWrite_withSchedule]

/-- Settles O10: the step is the bus write, which goes by BUSY and by the register at the offset. -/
theorem hostWriteEffects : Obligations.HostWriteEffects := by
  unfold Obligations.HostWriteEffects
  intro s off v es hw hn ha
  refine ⟨_, step_of_writeNext hw ha hn, fun hro => ?_, fun hwr hb => ?_, fun hidle => ?_⟩
  · have hreg : (regAt s.cfg off.toNat).writable = false :=
      Bool.eq_false_iff.mpr (mt (regAt_writable_iff s.cfg ha).mp hro)
    rw [busWrite_of_not_writable hreg]
    rfl
  · rw [busWrite_busy hb ((regAt_writable_iff s.cfg ha).mpr hwr)]
    rfl
  · have hp := (busy_false_iff s).mp hidle
    refine ⟨fun ho => ?cmd, fun ho => ?len, fun ho => ?keklen, fun hkek => ?kek, fun hbuf => ?buf⟩
    case cmd =>
      rw [ho, busWrite_cmd hp]
      rfl
    case len =>
      rw [ho, busWrite_idle (r := .len) hp rfl rfl]
      rfl
    case keklen =>
      rw [ho, busWrite_idle (r := .keklen) hp rfl rfl]
      rfl
    case kek =>
      obtain ⟨m, hm, rfl, ho⟩ := exists_offKEK ha hkek
      rw [ho, busWrite_offKEK hp hm]
      exact ⟨rfl, s.kek.setWord_bytes m v, fun a hout => s.kek.read_setWord_other v (by omega)⟩
    case buf =>
      obtain ⟨k, hk, rfl, ho⟩ := exists_offBUF hw ha hbuf
      rw [ho, busWrite_offBUF hw hp hk]
      exact ⟨rfl, s.buf.setWord_bytes k v, fun a hout => s.buf.read_setWord_other v (by omega)⟩

/-! ### Bus reads (R170) -/

/-- R170: the step of an aligned read that is next. -/
theorem step_of_readNext {s : State} {off : BitVec 9} {es : List Event} (hw : s.cfg.wf = true)
    (ha : off.toNat % 4 = 0) (hs : s.schedule = rd off :: es) :
    step s = .next { s with schedule := es, resp := some (.data (busRead s off.toNat)) } := by
  rw [step_of_hostNext hw hs, hostStep_read _ ha]
  rfl

/-- R170: every offset reads zero that is not one of STATUS, LEN, KEKLEN, PARAM or an implemented BUF word. -/
theorem busRead_eq_zero {s : State} {o : Nat} (ha : o % 4 = 0)
    (h : ¬ (o = 0x004 ∨ o = 0x008 ∨ o = 0x00C ∨ o = 0x010 ∨ (0x040 ≤ o ∧ o < 0x040 + 8 * (s.cfg.nmax + 1)))) :
    busRead s o = 0x00000000#32 := by
  rcases regAt_cases s.cfg o ha with ⟨-, hr⟩ | ⟨ho, -⟩ | ⟨ho, -⟩ | ⟨ho, -⟩ | ⟨ho, -⟩ | ⟨m, -, -, hr⟩ | ⟨k, ho, hk, -⟩
    | ⟨-, -, -, -, -, -, -, hr⟩
  -- CMD, the KEK words and the reserved offsets read zero; the hypothesis excludes the others.
  case inl | inr.inr.inr.inr.inr.inl | inr.inr.inr.inr.inr.inr.inr => simp [busRead, hr]
  all_goals exact absurd ho (by omega)

theorem Memory.word_zeros (k : Nat) : Memory.zeros.word k = 0x00000000#32 := by
  simp [Memory.word, Memory.readBytes_zeros, be]

/-- R61: while idle a BUF word reads as BUF holds it. -/
theorem busRead_offBUF_idle {s : State} {k : Nat} (hw : s.cfg.wf = true) (hp : s.phase = .idle)
    (hk : k < 2 * (s.cfg.nmax + 1)) : busRead s (offBUF k).toNat = s.buf.word k := by
  rw [busRead_offBUF hw hk, State.visibleBuf_of_idle ((busy_false_iff s).mpr hp)]

/-- Settles O11: the step is the bus read; a BUF word is read of what the host sees of BUF. -/
theorem hostReadReturns : Obligations.HostReadReturns := by
  unfold Obligations.HostReadReturns
  intro s off es hw hn ha
  refine ⟨_, step_of_readNext hw ha hn, fun ho => ?status, fun ho => ?len, fun ho => ?keklen, fun ho => ?param,
    fun hbuf hb => ?busy, fun hbuf hidle => ?idle, busRead_eq_zero ha⟩
  case status | len | keklen | param =>
    rw [ho]
    rfl
  case busy =>
    obtain ⟨k, hk, rfl, -⟩ := exists_offBUF hw ha hbuf
    rw [busRead_offBUF hw hk, State.visibleBuf_of_busy hb, Memory.word_zeros]
  case idle =>
    obtain ⟨k, hk, rfl, ho⟩ := exists_offBUF hw ha hbuf
    rw [ho, busRead_offBUF_idle hw ((busy_false_iff s).mp hidle) hk]
    exact s.buf.word_bytes k

/-! ### A write and then a read of one offset (R172) -/

/-- The read answers from the state that the write leaves. -/
theorem runSteps_write_read {s : State} {off : BitVec 9} {v : Word} {es : List Event} (hw : s.cfg.wf = true)
    (ha : off.toNat % 4 = 0) (hs : s.schedule = wr off v :: rd off :: es) :
    runSteps 2 s = .next { (busWrite s off.toNat v).withSchedule es with
      resp := some (.data (busRead (busWrite s off.toNat v) off.toNat)) } := by
  have hcfg : (busWrite s off.toNat v).cfg.wf = true := by rw [busWrite_cfg, hw]
  have hread := step_of_readNext
    (s := { (busWrite s off.toNat v).withSchedule (rd off :: es) with resp := some .written }) hcfg ha rfl
  rw [runSteps_succ_of_next (step_of_writeNext hw ha hs), runSteps_succ_of_next hread, runSteps_zero]
  rfl

/-- Settles O13: an implemented word holds what was written; another is neither writable nor readable. -/
theorem bufWordWriteThenRead : Obligations.BufWordWriteThenRead := by
  unfold Obligations.BufWordWriteThenRead
  intro s k v es hw hp hk hs
  have ha := offBUF_aligned k
  refine ⟨_, runSteps_write_read hw ha hs, rfl, fun himpl => ?_, fun hnot => ?_⟩
  · have hread : busRead { s with buf := s.buf.setWord k v } (offBUF k).toNat = v :=
      (busRead_offBUF_idle (s := { s with buf := s.buf.setWord k v }) hw hp himpl).trans (s.buf.word_setWord_same k v)
    rw [busWrite_offBUF hw hp himpl, hread]
  · have ho := offBUF_toNat hk
    have hwrite : busWrite s (offBUF k).toNat v = s :=
      busWrite_of_not_writable (Bool.eq_false_iff.mpr (mt (regAt_writable_iff s.cfg ha).mp (by omega))) v
    rw [hwrite, busRead_eq_zero ha (by omega)]
    exact ⟨rfl, rfl⟩

end Sys2Proof.Machine
end

section
/-! O28. The S-box table against the arithmetic of the field (R180, R185, R186). -/

namespace Sys2Proof.Machine.Aes

/-- The inverse of the affine map A of R185. -/
def invAffine (y : Byte) : Byte :=
  y.rotateLeft 1 ^^^ y.rotateLeft 3 ^^^ y.rotateLeft 6 ^^^ 0x05#8

theorem affine_invAffine : ∀ y : Byte, affine (invAffine y) = y := by decide +kernel

/-- Undoing the affine map on the table's entry for `b` leaves the inverse of `b` in the field (R180). -/
theorem gmul_invAffine_sbox : ∀ b : Byte, b ≠ 0x00#8 → gmul b (invAffine (sbox b)) = 0x01#8 := by decide +kernel

/-- Settles O28: the inverse of `b` is read off the table by undoing the affine map. -/
theorem sboxIsAffineOfInverse : Obligations.SboxIsAffineOfInverse := by
  unfold Obligations.SboxIsAffineOfInverse
  have hzero : sbox 0x00#8 = affine 0x00#8 := by decide
  have hinverse (b : Byte) (hb : b ≠ 0x00#8) : ∃ x : Byte, gmul b x = 0x01#8 ∧ sbox b = affine x :=
    ⟨invAffine (sbox b), gmul_invAffine_sbox b hb, (affine_invAffine (sbox b)).symm⟩
  exact ⟨hzero, hinverse, invSbox_sbox⟩

end Sys2Proof.Machine.Aes
end

section
/-! O47. Two failed UNWRAPs look alike (R216): the number of steps depends on LEN alone, and Fail leaves nothing of KEK, BUF
or PCACHE that a bus read shows (R107). -/

namespace Sys2Proof.Machine

/-- R106: the integrity check completes the command with either outcome. -/
theorem unwrapCheckStep_busy (s : State) : (unwrapCheckStep s).busy = false := by
  rw [busy_false_iff]
  rcases unwrapCheckStep_cases s with ⟨-, e⟩ | ⟨-, e⟩ <;> rw [e] <;> rfl

/-- R129: the integrity check records an error only by failing. -/
theorem unwrapCheckStep_eq_fail {s : State} (h : (unwrapCheckStep s).errcode ≠ .noError) :
    unwrapCheckStep s = s.fail .integrityCheckFailed := by
  rcases unwrapCheckStep_cases s with ⟨-, e⟩ | ⟨-, e⟩
  · exact absurd (congrArg State.errcode e) h
  · exact e

/-- R107, R170: after Fail no bus read depends on what KEK, BUF and PCACHE held. -/
theorem busRead_fail_congr (s : State) (code : ErrCode) (kek buf : Memory) (pc : PCache) (off : Nat) :
    busRead (({ s with kek := kek, buf := buf, pcache := pc } : State).fail code) off = busRead (s.fail code) off :=
  have hbusy : (({ s with kek := kek, buf := buf, pcache := pc } : State).fail code).busy = (s.fail code).busy := rfl
  busRead_congr hbusy rfl (State.statusWord_congr hbusy rfl rfl rfl) rfl rfl (fun _ => rfl) off

/-- Settles O47: both runs take the steps of an UNWRAP of that length, and both end in the integrity check. -/
theorem integrityFailuresIndistinguishable : Obligations.IntegrityFailuresIndistinguishable := by
  unfold Obligations.IntegrityFailuresIndistinguishable
  intro s kek buf pc hw hsched hp hc hl hk hs hpc s' steps
  have hready : s.UnwrapReady [] := ⟨hw, hp, hc, hl, hk, hs, .inr ⟨hsched, rfl⟩⟩
  have hready' : s'.UnwrapReady [] := ⟨hw, hp, hc, hl, hk, hpc, .inr ⟨hsched, rfl⟩⟩
  obtain ⟨m, pc₁, -, hrun⟩ := hready.run
  obtain ⟨m', pc₂, -, hrun'⟩ := hready'.run
  refine ⟨fun k hlt => ?_, _, _, hrun.run, hrun'.run, unwrapCheckStep_busy _, unwrapCheckStep_busy _,
    fun herr herr' => ?_⟩
  · obtain ⟨u, hu, hbusy⟩ := hrun.busy k hlt
    obtain ⟨u', hu', hbusy'⟩ := hrun'.busy k hlt
    exact ⟨u, u', hu, hu', hbusy, hbusy'⟩
  · rw [unwrapCheckStep_eq_fail herr, unwrapCheckStep_eq_fail herr']
    exact ⟨rfl, rfl, rfl, rfl, Memory.read_zeros, Memory.read_zeros,
      fun off => (busRead_fail_congr (s.atCheck m pc₁ []) _ kek m' pc₂ off).symm⟩

end Sys2Proof.Machine
end

section
/-! O2. The reset step (R240). -/

namespace Sys2Proof.Machine

/-- Settles O2: the reset step keeps only the configuration and the pending events. -/
theorem resetStepErasesAndAbandons : Obligations.ResetStepErasesAndAbandons := by
  unfold Obligations.ResetStepErasesAndAbandons
  intro s es hw hn
  exact step_of_resetNext hw hn

end Sys2Proof.Machine
end

section
/-! O46. The sequencer does not depend on KEK, BUF or PCACHE (R131, R249): every operation of the machine leaves the
same control part when the three are replaced. The two operations that call BlockDecrypt do because a sound PCACHE gives
it a value on both sides. -/

namespace Sys2Proof.Machine

/-- The control part of a state: KEK, BUF, PCACHE, ERRCODE and the port's response are erased. -/
def State.control (s : State) : State :=
  { s with kek := Memory.zeros, buf := Memory.zeros, pcache := ⟨false, 0, 0⟩, errcode := .noError, resp := none }

/-- The state with another KEK, BUF and PCACHE. -/
def State.withSecrets (s : State) (kek buf : Memory) (pc : PCache) : State :=
  { s with kek := kek, buf := buf, pcache := pc }

/-- Both outcomes are next states, and these have one control part. -/
def ControlAlike (o o' : Host.Outcome State Fault Refusal) : Prop :=
  ∃ t u, o = .next t ∧ o' = .next u ∧ u.control = t.control

theorem ControlAlike.next {t u : State} (h : u.control = t.control) : ControlAlike (.next t) (.next u) :=
  ⟨t, u, rfl, rfl, h⟩

/-- The same check with alike branches. -/
theorem ControlAlike.ite {c : Prop} [Decidable c] {a b a' b' : Host.Outcome State Fault Refusal}
    (ha : ControlAlike a a') (hb : ControlAlike b b') :
    ControlAlike (if c then a else b) (if c then a' else b') := by
  by_cases h : c
  · rwa [if_pos h, if_pos h]
  · rwa [if_neg h, if_neg h]

/-- States with one control part differ only in KEK, BUF, PCACHE, ERRCODE and the port's response. -/
theorem State.eq_of_control_eq {t u : State} (h : u.control = t.control) :
    u = { t with kek := u.kek, buf := u.buf, pcache := u.pcache, errcode := u.errcode, resp := u.resp } :=
  congrArg (fun c : State =>
    { c with kek := u.kek, buf := u.buf, pcache := u.pcache, errcode := u.errcode, resp := u.resp }) h

/-! ### The loop advances and the integrity check (R104 to R106) -/

theorem wrapStoreB_control (s : State) (b : CipherBlock) : (wrapStoreB s b).control = s.control := by
  simp only [wrapStoreB, State.control]

theorem unwrapStoreB_control (s : State) (b : CipherBlock) : (unwrapStoreB s b).control = s.control := by
  simp only [unwrapStoreB, State.control]

theorem wrapAdvance_control (s : State) : wrapAdvance s.control = (wrapAdvance s).control := by
  rcases wrapAdvance_cases s with ⟨hi, e⟩ | ⟨hi, hj, e⟩ | ⟨hi, hj, e⟩ <;> rw [e]
  · exact if_pos hi
  · exact (if_neg hi).trans (if_pos hj)
  · exact (if_neg hi).trans (if_neg hj)

theorem wrapAdvance_control_congr {s s' : State} (h : s'.control = s.control) :
    (wrapAdvance s').control = (wrapAdvance s).control := by
  rw [← wrapAdvance_control s', h, wrapAdvance_control]

theorem unwrapAdvance_control (s : State) : unwrapAdvance s.control = (unwrapAdvance s).control := by
  rcases unwrapAdvance_cases s with ⟨hi, e⟩ | ⟨hi, hj, e⟩ | ⟨hi, hj, e⟩ <;> rw [e]
  · exact if_pos hi
  · exact (if_neg hi.not_gt).trans (if_pos hj)
  · exact (if_neg hi.not_gt).trans (if_neg hj.not_gt)

theorem unwrapAdvance_control_congr {s s' : State} (h : s'.control = s.control) :
    (unwrapAdvance s').control = (unwrapAdvance s).control := by
  rw [← unwrapAdvance_control s', h, unwrapAdvance_control]

/-- R106: the integrity check completes the command whether it passes or fails; only ERRCODE and BUF tell which. -/
theorem unwrapCheckStep_control (s : State) : (unwrapCheckStep s).control = s.control.succeed := by
  rcases unwrapCheckStep_cases s with ⟨-, e⟩ | ⟨-, e⟩
  · exact congrArg State.control e
  · exact congrArg State.control e

section
variable {s : State} {kek buf : Memory} {pc : PCache}

@[simp] theorem State.withSecrets_cfg : (s.withSecrets kek buf pc).cfg = s.cfg := rfl
@[simp] theorem State.withSecrets_buf : (s.withSecrets kek buf pc).buf = buf := rfl
@[simp] theorem State.withSecrets_pcache : (s.withSecrets kek buf pc).pcache = pc := rfl
@[simp] theorem State.withSecrets_cmdLatch : (s.withSecrets kek buf pc).cmdLatch = s.cmdLatch := rfl
@[simp] theorem State.withSecrets_phase : (s.withSecrets kek buf pc).phase = s.phase := rfl
@[simp] theorem State.withSecrets_busy : (s.withSecrets kek buf pc).busy = s.busy := rfl
@[simp] theorem State.withSecrets_control : (s.withSecrets kek buf pc).control = s.control := rfl

/-! ### The host step (R54, R170, R171) -/

theorem idleWrite_withSecrets (r : BusReg) (v : Word) :
    (idleWrite (s.withSecrets kek buf pc) r v).control = (idleWrite s r v).control := by
  cases r <;> rfl

theorem busWrite_withSecrets (off : Nat) (v : Word) :
    (busWrite (s.withSecrets kek buf pc) off v).control = (busWrite s off v).control := by
  unfold busWrite
  rw [State.withSecrets_cfg, State.withSecrets_busy]
  by_cases hw : (regAt s.cfg off).writable = false
  · rw [if_pos hw, if_pos hw, State.withSecrets_control]
  · rw [if_neg hw, if_neg hw]
    cases s.busy with
    | true => rfl
    | false => exact idleWrite_withSecrets _ v

theorem hostStep_withSecrets (a : Access) :
    (hostStep (s.withSecrets kek buf pc) a).control = (hostStep s a).control := by
  unfold hostStep
  cases a.admitted with
  | false => rfl
  | true =>
    cases a.op with
    | read => rfl
    | write v => exact busWrite_withSecrets a.off.toNat v

/-! ### The engine step (R101 to R106) -/

theorem wrapLoopStep_withSecrets : (wrapLoopStep (s.withSecrets kek buf pc)).control = (wrapLoopStep s).control := by
  rw [wrapLoopStep_eq, wrapLoopStep_eq]
  exact wrapAdvance_control_congr (by rw [wrapStoreB_control, wrapStoreB_control, State.withSecrets_control])

section
variable (hs : s.pcache.Sound s.cfg) (hpc : pc.Sound s.cfg)
include hs hpc

theorem unwrapLoopStep_controlAlike : ControlAlike (unwrapLoopStep s) (unwrapLoopStep (s.withSecrets kek buf pc)) := by
  obtain ⟨pc₁, -, e₁⟩ := unwrapLoopStep_of_sound hs
  obtain ⟨pc₂, -, e₂⟩ := unwrapLoopStep_of_sound (s := s.withSecrets kek buf pc) hpc
  refine ⟨_, _, e₁, e₂, unwrapAdvance_control_congr ?_⟩
  rw [unwrapStoreB_control, unwrapStoreB_control]
  rfl

theorem execDecBlock_controlAlike : ControlAlike (execDecBlock s) (execDecBlock (s.withSecrets kek buf pc)) := by
  obtain ⟨pc₁, e₁⟩ := blockDecrypt_of_sound hs s.kekBytes s.buf.cipherBlock
  obtain ⟨pc₂, e₂⟩ := blockDecrypt_of_sound hpc (s.withSecrets kek buf pc).kekBytes buf.cipherBlock
  simp only [execDecBlock, State.withSecrets_cfg, State.withSecrets_pcache, State.withSecrets_buf, e₁, e₂]
  exact .ite (.next rfl) (.ite (.next rfl) (.next (by simp only [State.succeed, State.control, State.withSecrets])))

/-- R101, R102: the checks of a command read LEN, KEKLEN and the configuration. -/
theorem exec_controlAlike (i : Instr) : ControlAlike (exec i s) (exec i (s.withSecrets kek buf pc)) := by
  cases i with
  | wrap =>
    simp only [exec_wrap, execWrap, State.withSecrets_buf]
    exact .ite (.next rfl) (.ite (.next rfl) (.next (by simp only [State.control, State.withSecrets])))
  | unwrap => exact .ite (.next rfl) (.ite (.next rfl) (.next rfl))
  | encBlock =>
    simp only [exec_encBlock, execEncBlock, State.withSecrets_buf]
    exact .ite (.next rfl) (.ite (.next rfl) (.next (by simp only [State.succeed, State.control, State.withSecrets])))
  | decBlock => exact execDecBlock_controlAlike hs hpc
  | zeroize => exact .next rfl

theorem engineStep_controlAlike : ControlAlike (engineStep s) (engineStep (s.withSecrets kek buf pc)) := by
  cases hp : s.phase with
  | idle =>
    rw [engineStep_idle hp, engineStep_idle (s := s.withSecrets kek buf pc) hp]
    exact .next rfl
  | decode =>
    simp only [engineStep, decodeStep, State.withSecrets_phase, State.withSecrets_cmdLatch, hp]
    cases decode s.cmdLatch with
    | instr i => exact exec_controlAlike hs hpc i
    | reservedBitsSet => exact .next rfl
    | illegalOp _ => exact .next rfl
  | wrapLoop =>
    rw [engineStep_wrapLoop hp, engineStep_wrapLoop (s := s.withSecrets kek buf pc) hp]
    exact .next wrapLoopStep_withSecrets
  | unwrapLoop =>
    rw [engineStep_unwrapLoop hp, engineStep_unwrapLoop (s := s.withSecrets kek buf pc) hp]
    exact unwrapLoopStep_controlAlike hs hpc
  | unwrapCheck =>
    rw [engineStep_unwrapCheck hp, engineStep_unwrapCheck (s := s.withSecrets kek buf pc) hp]
    exact .next (by rw [unwrapCheckStep_control, unwrapCheckStep_control, State.withSecrets_control])

/-! ### Every step -/

theorem step_controlAlike (hw : s.cfg.wf = true) : ControlAlike (step s) (step (s.withSecrets kek buf pc)) := by
  rcases next_cases s with ⟨a, es, hn⟩ | ⟨es, hn⟩ | ⟨es, hn⟩
  · rw [step_of_hostNext hw hn, step_of_hostNext (s := s.withSecrets kek buf pc) hw hn]
    exact .next (hostStep_withSecrets (s := s.withSchedule es) a)
  · rw [step_of_engineNext hw hn, step_of_engineNext (s := s.withSecrets kek buf pc) hw hn]
    exact engineStep_controlAlike (s := s.withSchedule es) hs hpc
  · rw [step_of_resetNext hw hn, step_of_resetNext (s := s.withSecrets kek buf pc) hw hn]
    exact .next rfl

end
end

/-- Settles O46: both states step, to states with one control part, and each step keeps its PCACHE sound. -/
theorem controlFlowIgnoresSecrets : Obligations.ControlFlowIgnoresSecrets := by
  unfold Obligations.ControlFlowIgnoresSecrets
  intro s kek buf pc hw hs hpc
  obtain ⟨t, u, ht, hu, hctl⟩ := step_controlAlike (kek := kek) (buf := buf) hs hpc hw
  exact ⟨t, u, ht, hu, State.eq_of_control_eq hctl, step_pcacheSound ht hs, step_pcacheSound hu hpc⟩

end Sys2Proof.Machine
end
